-- ==== Sys2Proof/Word.lean ====
section
/-! DEFINITION. The two word types of the pixels CORE: registers and pixel-memory addresses are 32 bits wide and a
channel is 8 bits wide (00_scope.md R8; 10_state.md R20). Bit 0 is the least significant bit (R9). -/

namespace Sys2Proof

/-- The value of a register, a command word or a pixel-memory address held in a register: 32 bits (R8). -/
abbrev Word := BitVec 32

/-- One byte of pixel memory, one channel of a pixel, one byte lane of the register port: 8 bits (R8, R20). -/
abbrev Byte := BitVec 8

end Sys2Proof
end

