-- ==== Sys2Proof/Syntax.lean ====
section
/-! DEFINITION. The commands of the pixels CORE, one constructor per row of spec/opcode_table.json (30_encoding.md
R94). A command word has no immediate, register or mode field (R90): every operand is a parameter register, so no
constructor has an argument. -/

namespace Sys2Proof

/-- The sixteen commands, in the order of the opcode map R94. -/
inductive Instr where
  | clamp
  | prngDraw
  | grayscale
  | invert
  | brightness
  | sepia
  | contrast
  | vignette
  | lofi
  | vintage
  | cyberpunk
  | resizeNn
  | resizeBilinear
  | crop
  | flipH
  | flipV
  deriving DecidableEq, Repr

end Sys2Proof
end

