-- ==== Sys2Proof/WellFormed.lean ====
section
/-! DEFINITION. Which command words are well formed, written from the list of illegal words (30_encoding.md R90,
R96) and not from the opcode map the decoder uses, so that the two can be held against each other. -/

namespace Sys2Proof

/-- Field RSVD, bits [31:8], is reserved and must be zero (R90). -/
def CommandWord.rsvdIsZero (w : Word) : Bool :=
  w.extractLsb' 8 24 == 0

/-- The OPCODE values R96 does not list as illegal: not 0x00, 0x03-0x0F, 0x19-0x1F or 0x25-0xFF. -/
def CommandWord.opcodeIsAssigned (op : Byte) : Bool :=
  !(op.toNat == 0x00
    || (0x03 ≤ op.toNat && op.toNat ≤ 0x0F)
    || (0x19 ≤ op.toNat && op.toNat ≤ 0x1F)
    || (0x25 ≤ op.toNat && op.toNat ≤ 0xFF))

/-- A command word R96 does not call illegal. The reserved opcode 0x21 is well formed: it completes with
`UNIMPLEMENTED`, not with `ILLEGAL_CMD`. -/
def CommandWord.wellFormed (w : Word) : Bool :=
  CommandWord.rsvdIsZero w && CommandWord.opcodeIsAssigned (w.setWidth 8)

/-- Every term of `Instr` is well formed: a command has no operand field to check (R90, R95). -/
def Instr.wellFormed (_ : Instr) : Bool := true

end Sys2Proof
end

