-- ==== Sys2Proof/Decode.lean ====
section
/-! DEFINITION. Decoding and encoding of command words (30_encoding.md R90 to R96), and the byte lanes a 32-bit value
travels on (10_state.md R20). -/

namespace Sys2Proof

/-- Why a word is no command. Both make the core complete with `ILLEGAL_CMD` (R93, R252). -/
inductive DecodeError where
  /-- Bits [31:8] are not zero (R93, first line). -/
  | reservedBits
  /-- Bits [7:0] are no opcode of R94. -/
  | unassignedOpcode
  /-- The bytes are not exactly the four of one command word (R91). -/
  | notOneWord
  deriving DecidableEq, Repr

/-- Byte lane j of a 32-bit value carries bits [8j+7:8j]: little-endian (R20). -/
def lanesOfWord (w : Word) : List Byte :=
  [w.extractLsb' 0 8, w.extractLsb' 8 8, w.extractLsb' 16 8, w.extractLsb' 24 8]

/-- The 32-bit value on four byte lanes, lane 0 first (R20); no other width is a value (R45). -/
def wordOfLanes : List Byte → Option Word
  | [b0, b1, b2, b3] => some (b3 ++ b2 ++ b1 ++ b0)
  | _ => none

/-- The opcode map (R94): OPCODE and command. -/
def opcodeMap : List (Byte × Instr) :=
  [ (0x01, .clamp),
    (0x02, .prngDraw),
    (0x10, .grayscale),
    (0x11, .invert),
    (0x12, .brightness),
    (0x13, .sepia),
    (0x14, .contrast),
    (0x15, .vignette),
    (0x16, .lofi),
    (0x17, .vintage),
    (0x18, .cyberpunk),
    (0x20, .resizeNn),
    (0x21, .resizeBilinear),
    (0x22, .crop),
    (0x23, .flipH),
    (0x24, .flipV) ]

/-- Decode (R93): reserved bits first, then the opcode map. -/
def decode (w : Word) : Except DecodeError Instr :=
  if w.extractLsb' 8 24 = 0 then
    match opcodeMap.lookup (w.setWidth 8) with
    | some i => .ok i
    | none => .error .unassignedOpcode
  else .error .reservedBits

/-- Decode the bytes of a command word, lane 0 first; total on any bytes (R91). -/
def decodeBytes (bs : List Byte) : Except DecodeError Instr :=
  match wordOfLanes bs with
  | some w => decode w
  | none => .error .notOneWord

/-- The OPCODE field of a command, from each command's own rule (R122, R127, R155 to R167, R204 to R210). -/
def Instr.opcode : Instr → Byte
  | .clamp => 0x01
  | .prngDraw => 0x02
  | .grayscale => 0x10
  | .invert => 0x11
  | .brightness => 0x12
  | .sepia => 0x13
  | .contrast => 0x14
  | .vignette => 0x15
  | .lofi => 0x16
  | .vintage => 0x17
  | .cyberpunk => 0x18
  | .resizeNn => 0x20
  | .resizeBilinear => 0x21
  | .crop => 0x22
  | .flipH => 0x23
  | .flipV => 0x24

/-- The command word of a command: RSVD zero above OPCODE (R90, R94). -/
def encode (i : Instr) : Word :=
  (0 : BitVec 24) ++ i.opcode

/-- The instruction this decoder reads from a row of spec/opcode_table.json: a command is exactly 32 bits (R91), laid
out on its byte lanes; bits at `nbits` and above are zero. -/
def decodeTableWord (nbits w : Nat) : Option Instr :=
  if nbits ≤ 32 then
    match decodeBytes (lanesOfWord (BitVec.ofNat 32 (w % 2 ^ nbits))) with
    | .ok i => some i
    | .error _ => none
  else none

end Sys2Proof
end

