-- ==== Sys2Proof/Config.lean ====
section
/-! DEFINITION. What one chip fixes (the OPEN parameters of 00_scope.md R8) and the values the spec leaves
unspecified (60_exceptions.md R274, 93_implementation_defined.md). The parameters are a record `Params`, which every
state carries, so a statement about every state holds for every admitted value; `Config.params`
(Machine/Float.lean) is the record of the unknown chip that `State.reset` speaks of. The opaque constants below have
no body: no proof can find out a value of theirs. -/

namespace Sys2Proof

/-- The two admitted formats of the filter arithmetic, IEEE 754 binary32 and binary64: the values of `FMT` (R8). -/
inductive Fmt where
  | binary32
  | binary64
  deriving DecidableEq, Repr, Inhabited

/-- One value of `LOFI_NOISE` (R8, R164): a finite value, its sign (`true` is negative) and its magnitude counted in
the least positive subnormal of the format (`Fp` in Machine/Float.lean). It cannot be a NaN or an infinity. -/
structure NoiseTerm where
  neg : Bool
  mag : Nat
  deriving DecidableEq, Repr, Inhabited

/-- The OPEN parameters of R8 that a rule reads. `LATENCY` is the host's schedule (`State.inbox`) and `BUS_PROTOCOL`
crosses no rule; see the assumption log 3 and 6. -/
structure Params where
  /-- `REG_BASE`: the host address of the 256-byte register window (R20). -/
  regBase   : Nat
  /-- `MEM_BYTES`: the size of the pixel memory in bytes, 0 < `MEM_BYTES` <= 2^32 (R8, R60). -/
  memBytes  : Nat
  /-- `FMT`: the format of the filter arithmetic (R11). -/
  fmt       : Fmt
  /-- `LOFI_NOISE`: the noise term for each draw index 0 .. 99 (R164). -/
  lofiNoise : Vector NoiseTerm 100
  deriving DecidableEq, Repr

/-- `REG_BASE` of the unknown chip (R8, OPEN). -/
opaque Config.regBase : Nat

/-- `MEM_BYTES` of the unknown chip, less one: every size in 1 .. 2^32 is possible, no other (R8, OPEN). -/
opaque Config.memBytesLessOne : Fin (2 ^ 32)

/-- `FMT` of the unknown chip (R8, OPEN). -/
opaque Config.fmt : Fmt

/-- `LOFI_NOISE` of the unknown chip before it is fitted to its format (R8, OPEN; `Config.params`). -/
opaque Config.lofiNoise : Fin 100 → NoiseTerm

/-- The byte each address of pixel memory holds after power-on: any value (R54, R291). -/
opaque Config.powerOnByte : Nat → Byte

/-- The n-th free draw of a register read (R48, R290) or of a length no register can hold: any value (R274). -/
opaque Config.freeWord : Nat → Word

/-- The n-th free draw of the byte at an address (R71 clauses 3 and 4, R291): any value (R274). -/
opaque Config.freeByte : Nat → Nat → Byte

end Sys2Proof
end

