-- ==== Sys2Proof/Machine/Float.lean ====
section
/-! DEFINITION. The numeric primitives of the filters: the saturating clamp (40_clamp_prng.md R120), the IEEE 754
arithmetic of 00_scope.md R11 in either format, and truncate-then-clamp (R12).

A finite value is a sign and a magnitude counted in the least positive subnormal of the format, 2^-149 for binary32
and 2^-1074 for binary64. Every finite value is a whole number of these units, so an exact sum, product or quotient
is an integer or a ratio of two integers, and gradual underflow needs no case of its own. -/

namespace Sys2Proof

/-- `clamp8(n)`: the nearest 8-bit unsigned value of an integer of any size (R120). -/
def clamp8 (n : Int) : Byte :=
  if n < 0 then 0 else if 255 < n then 255 else BitVec.ofInt 8 n

/-- The significand bits of the format, the hidden one included: 24 and 53 (IEEE 754, R11). -/
def Fmt.precision : Fmt → Nat
  | .binary32 => 24
  | .binary64 => 53

/-- The least positive subnormal is 2^-`unitExp`: the unit of `Fp`'s magnitudes (IEEE 754, R11). -/
def Fmt.unitExp : Fmt → Nat
  | .binary32 => 149
  | .binary64 => 1074

/-- The value 1 in units. -/
def Fmt.one (f : Fmt) : Nat := 2 ^ f.unitExp

/-- The greatest finite magnitude in units: (2^24 - 1) * 2^104 in binary32, (2^53 - 1) * 2^971 in binary64. -/
def Fmt.maxMag : Fmt → Nat
  | .binary32 => (2 ^ 24 - 1) * 2 ^ (104 + 149)
  | .binary64 => (2 ^ 53 - 1) * 2 ^ (971 + 1074)

/-- A value of the format (R11): a NaN, a signed infinity, or a finite value of a sign and a magnitude in units. Zero
has both signs. -/
inductive Fp where
  | nan
  | inf (neg : Bool)
  | fin (neg : Bool) (mag : Nat)
  deriving DecidableEq, Repr

/-- A sign and a magnitude as one integer. -/
def signed (neg : Bool) (mag : Nat) : Int := if neg then -(mag : Int) else mag

/-- A quotient rounded to the nearest whole number, ties to the even one. -/
def nearestEven (n d : Nat) : Nat :=
  if d < 2 * (n % d) ∨ (2 * (n % d) = d ∧ n / d % 2 = 1) then n / d + 1 else n / d

/-- How many low bits of a whole part are lost when `p` significant bits are kept. -/
def excessBits (p q : Nat) : Nat := Nat.log2 q + 1 - p

/-- The ratio `n / d` rounded to the nearest number of `p` significant bits, ties to even, no bound on the
exponent (R11, IEEE 754 round-to-nearest-even). A ratio of fewer bits is rounded to a whole number: the subnormals. -/
def roundRatio (p n d : Nat) : Nat :=
  nearestEven n (d * 2 ^ excessBits p (n / d)) * 2 ^ excessBits p (n / d)

/-- A rounded magnitude as a value: beyond the greatest finite one it is an infinity (IEEE 754 overflow, R11). -/
def Fp.ofMag (f : Fmt) (neg : Bool) (mag : Nat) : Fp :=
  if mag ≤ f.maxMag then .fin neg mag else .inf neg

/-- The ratio `n / d` units rounded to the format. -/
def Fp.round (f : Fmt) (neg : Bool) (n d : Nat) : Fp :=
  Fp.ofMag f neg (roundRatio f.precision n d)

/-- `K(lit)`: the decimal literal `n / d` converted to the format (R11). -/
def Fp.lit (f : Fmt) (n d : Nat) : Fp := Fp.round f false (n * f.one) d

/-- `conv(n)`: an integer converted to the format (R11). -/
def Fp.conv (f : Fmt) (n : Int) : Fp := Fp.round f (decide (n < 0)) (n.natAbs * f.one) 1

/-- The negated value. -/
def Fp.neg : Fp → Fp
  | .nan => .nan
  | .inf s => .inf !s
  | .fin s m => .fin (!s) m

/-- `a ⊕ b`, correctly rounded (R11). An exact zero is positive unless both operands are negative. -/
def Fp.add (f : Fmt) : Fp → Fp → Fp
  | .fin s a, .fin t b =>
    if signed s a + signed t b = 0 then .fin (s && t) 0
    else Fp.round f (decide (signed s a + signed t b < 0)) (signed s a + signed t b).natAbs 1
  | .inf s, .inf t => if s = t then .inf s else .nan
  | .inf s, .fin _ _ => .inf s
  | .fin _ _, .inf t => .inf t
  | .nan, _ => .nan
  | .inf _, .nan => .nan
  | .fin _ _, .nan => .nan

/-- `a ⊖ b`, correctly rounded (R11). -/
def Fp.sub (f : Fmt) (a b : Fp) : Fp := Fp.add f a b.neg

/-- `a ⊗ b`, correctly rounded (R11). Infinity times zero is a NaN. -/
def Fp.mul (f : Fmt) : Fp → Fp → Fp
  | .fin s a, .fin t b => Fp.round f (s != t) (a * b) f.one
  | .inf s, .inf t => .inf (s != t)
  | .inf s, .fin t b => if b = 0 then .nan else .inf (s != t)
  | .fin s a, .inf t => if a = 0 then .nan else .inf (s != t)
  | .nan, _ => .nan
  | .inf _, .nan => .nan
  | .fin _ _, .nan => .nan

/-- `a ⊘ b`, correctly rounded (R11). Zero by zero and infinity by infinity are NaNs; another value by zero is an
infinity. -/
def Fp.div (f : Fmt) : Fp → Fp → Fp
  | .fin s a, .fin t b =>
    if b = 0 then (if a = 0 then .nan else .inf (s != t))
    else Fp.round f (s != t) (a * f.one) b
  | .inf _, .inf _ => .nan
  | .inf s, .fin t _ => .inf (s != t)
  | .fin s _, .inf t => .fin (s != t) 0
  | .nan, _ => .nan
  | .inf _, .nan => .nan
  | .fin _ _, .nan => .nan

/-- The whole part of the square root of a number below 4^`bits`, two binary digits a step. -/
def wholeRoot : (bits n : Nat) → Nat
  | 0, _ => 0
  | bits + 1, n =>
    if (2 * wholeRoot bits (n / 4) + 1) * (2 * wholeRoot bits (n / 4) + 1) ≤ n
    then 2 * wholeRoot bits (n / 4) + 1 else 2 * wholeRoot bits (n / 4)

/-- How many low bits of the square root of `n` are lost when `p` significant bits are kept. -/
def rootExcess (p n : Nat) : Nat := Nat.log2 n / 2 + 1 - p

/-- The square root of `n` rounded to the nearest number of `p` significant bits, ties to even (R11). -/
def roundRoot (p n : Nat) : Nat :=
  let k := rootExcess p n
  let t := wholeRoot p (n / 4 ^ k)
  (if (2 * t + 1) * (2 * t + 1) * 4 ^ k < 4 * n ∨ ((2 * t + 1) * (2 * t + 1) * 4 ^ k = 4 * n ∧ t % 2 = 1)
   then t + 1 else t) * 2 ^ k

/-- `fsqrt(a)`, correctly rounded (R11). The root of a negative value is a NaN, of a zero that zero. -/
def Fp.sqrt (f : Fmt) : Fp → Fp
  | .fin s a =>
    if a = 0 then .fin s 0
    else if s then .nan
    else Fp.ofMag f false (roundRoot f.precision (a * f.one))
  | .inf s => if s then .nan else .inf false
  | .nan => .nan

/-- `trunc(q)` of a finite value: the nearest integer in the direction of zero (R10). -/
def truncate (f : Fmt) (neg : Bool) (mag : Nat) : Int := signed neg (mag / f.one)

/-- `tc(q)`, truncate then clamp (R12); `none` for a NaN, which the machine turns into the fault `nanChannel`. -/
def tc (f : Fmt) : Fp → Option Byte
  | .fin s m => some (clamp8 (truncate f s m))
  | .inf s => some (if s then 0 else 255)
  | .nan => none

/-- STRENGTH's IEEE 754 binary32 pattern (R41): sign, biased exponent and fraction. -/
structure Binary32 where
  neg  : Bool
  exp  : Nat
  frac : Nat
  deriving DecidableEq, Repr

/-- The three fields of a binary32 pattern: bit 31, bits [30:23], bits [22:0] (R41). -/
def Binary32.ofWord (w : Word) : Binary32 :=
  { neg := w.getLsbD 31, exp := (w.extractLsb' 23 8).toNat, frac := (w.extractLsb' 0 23).toNat }

/-- A NaN or an infinity: the exponent is 0xFF (R41, R257). -/
def Binary32.nonFinite (b : Binary32) : Bool := b.exp == 0xFF

/-- The magnitude of a finite pattern in binary32 units of 2^-149. -/
def Binary32.units (b : Binary32) : Nat :=
  if b.exp = 0 then b.frac else (2 ^ 23 + b.frac) * 2 ^ (b.exp - 1)

/-- The value of a finite binary32 pattern, converted exactly to the format (R41): the units of binary64 are 2^925
times finer. -/
def Binary32.toFp (f : Fmt) (b : Binary32) : Fp :=
  .fin b.neg (b.units * 2 ^ (f.unitExp - 149))

/-- A magnitude is one of the format's finite values (R164 asks it of every noise term). -/
def Fmt.representable (f : Fmt) (mag : Nat) : Bool :=
  mag ≤ f.maxMag && roundRatio f.precision mag 1 == mag

/-- The parameters R8 admits: 0 < `MEM_BYTES` <= 2^32, and every noise term a value of the format (R164). -/
def Params.wf (p : Params) : Bool :=
  0 < p.memBytes && p.memBytes ≤ 2 ^ 32 && p.lofiNoise.all (fun n => p.fmt.representable n.mag)

/-- A noise term fitted to the format: the nearest finite value of the format. Every finite value is the image of
itself, so no noise function R164 admits is lost. -/
def NoiseTerm.fit (f : Fmt) (n : NoiseTerm) : NoiseTerm :=
  if f.representable n.mag then n else { n with mag := min (roundRatio f.precision n.mag 1) f.maxMag }

/-- The parameters of the unknown chip (R8): each of the admitted values, and no other, is possible. -/
def Config.params : Params :=
  { regBase := Config.regBase,
    memBytes := Config.memBytesLessOne.val + 1,
    fmt := Config.fmt,
    lofiNoise := Vector.ofFn fun k => (Config.lofiNoise k).fit Config.fmt }

/-- The reference instance of `LOFI_NOISE`: n = conv(k) ⊘ 100, the draw itself (R164, R125). -/
def referenceNoise (f : Fmt) : Vector NoiseTerm 100 :=
  Vector.ofFn fun k =>
    match Fp.div f (Fp.conv f k.val) (Fp.conv f 100) with
    | .fin s m => { neg := s, mag := m }
    | .inf _ => default
    | .nan => default

end Sys2Proof
end

