-- ==== Sys2Proof/Machine/State.lean ====
section
/-! DEFINITION. The state of the pixels CORE as the spec gives it (10_state.md), the transactions of its host
(R55), and the state after reset (70_reset_and_hazards.md R290). There is no program counter (R51) and no
general-purpose register file (R50). -/

namespace Sys2Proof.Machine

/-- The phase of the core (R46). `STATUS.BUSY` is 1 exactly when it is `busy` (R23). -/
inductive Phase where
  | idle
  | busy
  deriving DecidableEq, Repr

/-- The error codes of R250, each named as there; `CmdError.code` (Machine/Ops.lean) gives the numbers. -/
inductive CmdError where
  | illegalCmd
  | unimplemented
  | lenAlign
  | srcRange
  | contrastRange
  | strengthNonfinite
  | dimsBounds
  | cropOverrun
  | dstRange
  | overlap
  deriving DecidableEq, Repr

/-- The registers of the window (R20), by name. -/
inductive Reg where
  | id | ctrl | status | cmd
  | srcBase | srcLen | dstBase | dstLen
  | width | height | newWidth | newHeight | startX | startY
  | amount | strength | arg | result | prngState
  deriving DecidableEq, Repr

/-- One transaction of the host (R55). A register access names a host address and a width in bytes (the number of
lanes of a write), so that the accesses R45 leaves without a meaning can be written down and refused. -/
inductive Txn where
  /-- A read of `nbytes` bytes at a host address of the register window. -/
  | regRead  (addr nbytes : Nat)
  /-- A write of the byte lanes, lane 0 first, at a host address of the register window. -/
  | regWrite (addr : Nat) (lanes : List Byte)
  /-- A read of one byte of pixel memory (R63: a wider access is its bytes). -/
  | memRead  (addr : Nat)
  /-- A write of one byte of pixel memory. -/
  | memWrite (addr : Nat) (b : Byte)
  deriving DecidableEq, Repr

/-- What happens next at the core's boundary: the host's transactions, the reset input, and the core's own turn. The
order of the list `State.inbox` is the interleaving of host and core: the host transactions that stand before a `core`
land while the command runs. -/
inductive Event where
  /-- A host transaction, alone. -/
  | host (t : Txn)
  /-- A host transaction in the same cycle as the completion of the running command (R24, R265). -/
  | hostAtCompletion (t : Txn)
  /-- The core's turn: the running command runs to its completion (R263, R298). -/
  | core
  /-- `rst_n` goes low (R290). -/
  | assertReset
  /-- `rst_n` goes high (R290). -/
  | releaseReset
  deriving DecidableEq, Repr

/-- The data of a host read, as the port gives it. -/
inductive ReadData where
  /-- The four byte lanes of a register read, lane 0 first (R20). -/
  | reg (lanes : List Byte)
  /-- One byte of pixel memory. -/
  | mem (b : Byte)
  deriving DecidableEq, Repr

/-- Why the machine stops with a fault. -/
inductive Fault where
  /-- A NaN reached `tc` (R12, R274). Raised by the colour filters' pixel loop; R169 says it is unreachable.
  Safe: the machine stops. -/
  | nanChannel
  /-- A host access to a pixel-memory address at or above `MEM_BYTES`, which does not exist (R60, R69). Raised by
  `hostMemRead` and `hostMemWrite`. Safe: the machine stops. -/
  | noSuchAddress
  deriving DecidableEq, Repr

/-- Why the model gives no meaning. -/
inductive Refusal where
  /-- A command that has no meaning yet, by its mnemonic. Raised by `exec`'s arms alone. Safe. -/
  | notModelled (mnemonic : String)
  /-- A register access that is not 32 bits wide, not at a word-aligned offset or not in the 256-byte window: no part
  of the interface (R20, R45, R274). Raised by `hostRegRead` and `hostRegWrite`. Safe. -/
  | notRegisterAccess
  deriving DecidableEq, Repr

/-- The parameter registers the host writes and no command does (R30 to R32, R34 to R42). -/
structure Regs where
  srcBase   : Word
  srcLen    : Word
  dstBase   : Word
  width     : Word
  height    : Word
  newWidth  : Word
  newHeight : Word
  startX    : Word
  startY    : Word
  amount    : Word
  strength  : Word
  arg       : Word
  deriving DecidableEq, Repr

/-- Pixel memory (R60): the bytes that have a specified value, addresses strictly rising (`Memory.wf`). An address
that is not listed has no specified value (`Memory.unlisted`). -/
abbrev Memory := List Host.Cell

/-- The state. Fields without a rule of 10_state.md are the model's own (assumption log 1 to 5). -/
structure State where
  /-- The chip's OPEN parameters (R8). No step changes them. -/
  params    : Params
  /-- CTRL bit 0, IRQ_EN (R22). CTRL[31:1] read 0 and hold nothing. -/
  irqEn     : Bool
  /-- The phase (R46), which STATUS.BUSY shows (R23). -/
  phase     : Phase
  /-- STATUS.DONE, bit 1 (R24). -/
  done      : Bool
  /-- STATUS.ERR, bit 2 (R25). -/
  err       : Bool
  /-- STATUS.DROPPED, bit 3 (R26). -/
  dropped   : Bool
  /-- STATUS.ERR_CODE, bits [15:8] (R27). -/
  errCode   : Byte
  /-- The command word accepted last, what a read of CMD gives (R29). -/
  cmd       : Word
  /-- The parameter registers. -/
  regs      : Regs
  /-- DST_LEN (R33). -/
  dstLen    : Word
  /-- RESULT (R43). -/
  result    : Word
  /-- PRNG_STATE (R44). -/
  prngState : Word
  /-- The pixel memory (R54, R60). -/
  mem       : Memory
  /-- `rst_n` is low (R290). -/
  inReset   : Bool
  /-- The host wrote into the running command's footprint, so what the command writes is unspecified (R71 clause 4). -/
  tainted   : Bool
  /-- How many free draws were taken (R274). -/
  draws     : Nat
  /-- What happens next, first event first. -/
  inbox     : List Event
  /-- The data of the last host read. -/
  readData  : Option ReadData
  deriving DecidableEq, Repr

/-- Every parameter register at its reset value (R290). -/
def Regs.reset : Regs :=
  { srcBase := 0, srcLen := 0, dstBase := 0, width := 0, height := 0, newWidth := 0, newHeight := 0,
    startX := 0, startY := 0, amount := 0, strength := 0, arg := 0 }

/-- The machine right after reset (R290), power having just come on: no byte of memory is specified (R291), `rst_n`
is released and the host has asked for nothing. -/
def State.reset : State :=
  { params := Config.params,
    irqEn := false,
    phase := .idle,
    done := false, err := false, dropped := false, errCode := 0x00,
    cmd := 0x00000000,
    regs := Regs.reset,
    dstLen := 0x00000000,
    result := 0x00000000,
    prngState := 0x00003039,
    mem := [],
    inReset := false,
    tainted := false,
    draws := 0,
    inbox := [],
    readData := none }

end Sys2Proof.Machine
end

