-- ==== Sys2Proof/Machine/Ops.lean ====
section
/-! DEFINITION. The named operations over memory and registers: reading and writing a byte of pixel memory
(20_memory.md R60, R65), the core's stores, accepting a command (30_encoding.md R92), and the one way a command ends
with an error (60_exceptions.md R262) or without one (R263).

TAKING AN EXCEPTION: the core has no trap (R266). What takes its place is an error completion, `raiseError`, whose
whole effect is R262: no state is saved, no mode changes and there is no handler. The RETURN is the host's write to
STATUS (`writeStatus`, Machine/HostPort.lean) or simply the next accepted command (`State.accept`). -/

namespace Sys2Proof.Machine

/-- What an address that is not listed reads as: no specified value. -/
def Memory.unlisted : Option Byte := none

/-- The specified byte at an address, if there is one. -/
def Memory.get? : Memory → Nat → Option Byte
  | [], _ => Memory.unlisted
  | (b, v) :: rest, a => if a = b then some v else Memory.get? rest a

/-- Give an address a specified byte, keeping the addresses strictly rising. -/
def Memory.set : Memory → Nat → Byte → Memory
  | [], a, v => [(a, v)]
  | (b, w) :: rest, a, v =>
    if a < b then (a, v) :: (b, w) :: rest
    else if a = b then (a, v) :: rest
    else (b, w) :: Memory.set rest a v

/-- The canonical form: addresses strictly rising, and no entry equal to what an unlisted address reads as. -/
abbrev Memory.wf (m : Memory) : Prop :=
  m.Pairwise (fun c d => c.1 < d.1) ∧ ∀ c ∈ m, some c.2 ≠ Memory.unlisted

/-- The byte a memory holds at an address (R60). One that has no specified value holds whatever it held after power-on
(R291). -/
def Memory.byteAt (m : Memory) (a : Nat) : Byte := (m.get? a).getD (Config.powerOnByte a)

/-- `MemRead(a, 1)` (R10, R65). -/
def State.byteAt (s : State) (a : Nat) : Byte := s.mem.byteAt a

/-- Write a specified byte (R60). -/
def State.setByte (s : State) (a : Nat) (v : Byte) : State :=
  { s with mem := s.mem.set a v }

/-- The byte at an address becomes unspecified: a free draw (R71 clause 4, R291). -/
def State.forgetByte (s : State) (a : Nat) : State :=
  { s with mem := s.mem.set a (Config.freeByte s.draws a), draws := s.draws + 1 }

/-- The n bytes from an address on become unspecified, lowest address first. -/
def State.forgetBytes (s : State) (a : Nat) : Nat → State
  | 0 => s
  | n + 1 => (s.forgetByte a).forgetBytes (a + 1) n

/-- The core stores a byte (R65): the byte itself, or any value once the host has written into the footprint of the
running command (R71 clause 4). -/
def State.storeByte (s : State) (a : Nat) (v : Byte) : State :=
  if s.tainted then s.forgetByte a else s.setByte a v

/-- `MemWrite(a, 3, (r, g, b))` (R10): the three colour channels of the pixel at a. Channel 3 is not written (R152). -/
def State.storeColour (s : State) (a : Nat) (r g b : Byte) : State :=
  ((s.storeByte a r).storeByte (a + 1) g).storeByte (a + 2) b

/-- `MemWrite(d, 4, v)` (R10): the four channels of the pixel at d. -/
def State.storePixel (s : State) (d : Nat) (c0 c1 c2 c3 : Byte) : State :=
  (((s.storeByte d c0).storeByte (d + 1) c1).storeByte (d + 2) c2).storeByte (d + 3) c3

/-- For i = `first` and the `n - 1` numbers after it, in increasing order, do `body i`; a NaN ends the loop. -/
def pixelLoop (body : Nat → State → Option State) : (n first : Nat) → State → Option State
  | 0, _, s => some s
  | n + 1, first, s =>
    match body first s with
    | some t => pixelLoop body n (first + 1) t
    | none => none

/-- One destination pixel, at d (R200): a verbatim copy of the pixel at p, all four channels, or four zero bytes. -/
def State.copyPixel (s : State) (d : Nat) : Option Nat → State
  | some p => s.storePixel d (s.byteAt p) (s.byteAt (p + 1)) (s.byteAt (p + 2)) (s.byteAt (p + 3))
  | none => s.storePixel d 0 0 0 0

/-- The copying loop of the geometric transforms: for i = `first` and the `n - 1` numbers after it, the destination
pixel at `dst + 4*i` becomes the pixel at `src i`, or zero where `src i` is `none` (R200). -/
def copyPixels (src : Nat → Option Nat) (dst : Nat) : (n first : Nat) → State → State
  | 0, _, s => s
  | n + 1, first, s => copyPixels src dst n (first + 1) (s.copyPixel (dst + 4 * first) (src first))

/-- The core accepts a command word while idle, in one step (R92). DROPPED is unchanged. -/
def State.accept (s : State) (w : Word) : State :=
  { s with cmd := w, phase := .busy, done := false, err := false, errCode := 0x00, tainted := false }

/-- The error codes' numbers (R250). -/
def CmdError.code : CmdError → Byte
  | .illegalCmd => 0x01
  | .unimplemented => 0x02
  | .lenAlign => 0x03
  | .srcRange => 0x04
  | .contrastRange => 0x05
  | .strengthNonfinite => 0x06
  | .dimsBounds => 0x07
  | .cropOverrun => 0x08
  | .dstRange => 0x09
  | .overlap => 0x0A

/-- Error completion, in one step (R262): ERR_CODE, ERR, DONE, and the phase back to IDLE; nothing else changes. -/
def raiseError (e : CmdError) (s : State) : State :=
  { s with errCode := e.code, err := true, done := true, phase := .idle, tainted := false }

/-- Successful completion, in one step (R263), after the command's own writes. -/
def completeOk (s : State) : State :=
  { s with errCode := 0x00, err := false, done := true, phase := .idle, tainted := false }

/-- The end of a colour filter's loop: `complete OK`, or the fault `nanChannel` (R12, R274). -/
def finish : Option State → Host.Outcome State Fault Refusal
  | some s => .next (completeOk s)
  | none => .fault .nanChannel

end Sys2Proof.Machine
end

