-- ==== Sys2Proof/Machine/Operands.lean ====
section
/-! DEFINITION. How a command reads its operands (30_encoding.md R95), its regions (20_memory.md R66, 42_geometric.md
R200), its checks in their order (60_exceptions.md R251 to R261) and its footprint (R67). Every product and sum is an
exact integer (00_scope.md R10). -/

namespace Sys2Proof.Machine

/-- `zext_32` (R10): the unsigned value of a register. -/
abbrev zext (w : Word) : Nat := w.toNat

/-- `sext_32` (R10): the two's complement value of a register. -/
abbrev sext (w : Word) : Int := w.toInt

/-- The bytes `base .. base + len - 1` of pixel memory. -/
structure Region where
  base : Nat
  len  : Nat
  deriving DecidableEq, Repr

/-- The region holds the address. -/
def Region.has (r : Region) (a : Nat) : Bool := r.base ≤ a && a < r.base + r.len

/-- S = [SRC_BASE, SRC_BASE + SRC_LEN) (R66, R150, R200). -/
def srcRegion (s : State) : Region := { base := zext s.regs.srcBase, len := zext s.regs.srcLen }

/-- The pixels of the source image, WIDTH * HEIGHT (R62). -/
def imagePixels (s : State) : Nat := zext s.regs.width * zext s.regs.height

/-- The pixels of the new image, NEW_WIDTH * NEW_HEIGHT (R200). -/
def newPixels (s : State) : Nat := zext s.regs.newWidth * zext s.regs.newHeight

/-- VIGNETTE's prefix of S, [SRC_BASE, SRC_BASE + WIDTH*HEIGHT*4) (R67). -/
def imageRegion (s : State) : Region := { base := zext s.regs.srcBase, len := imagePixels s * 4 }

/-- D for RESIZE_NN and CROP: Ldst = NEW_WIDTH * NEW_HEIGHT * 4 (R200). -/
def newRegion (s : State) : Region := { base := zext s.regs.dstBase, len := newPixels s * 4 }

/-- D for FLIP_H and FLIP_V: Ldst = WIDTH * HEIGHT * 4 (R200; 90_conflicts.md C5). -/
def flipRegion (s : State) : Region := { base := zext s.regs.dstBase, len := imagePixels s * 4 }

/-- A check of R251: the error if the condition holds. -/
def failIf (cond : Bool) (e : CmdError) : Option CmdError := if cond then some e else none

/-- LEN_ALIGN (R254). -/
def checkLenAlign (s : State) : Option CmdError :=
  failIf (zext s.regs.srcLen % 4 != 0) .lenAlign

/-- SRC_RANGE (R255): S must lie inside the pixel memory; its end is not taken mod 2^32. -/
def checkSrcRange (s : State) : Option CmdError :=
  failIf (!(decide (zext s.regs.srcBase + zext s.regs.srcLen ≤ s.params.memBytes))) .srcRange

/-- CONTRAST_RANGE (R256). -/
def checkContrastRange (s : State) : Option CmdError :=
  failIf (decide (sext s.regs.amount < -255) || decide (255 < sext s.regs.amount)) .contrastRange

/-- STRENGTH_NONFINITE (R257). -/
def checkStrength (s : State) : Option CmdError :=
  failIf (Binary32.ofWord s.regs.strength).nonFinite .strengthNonfinite

/-- DIMS_BOUNDS (R258). -/
def checkDimsBounds (s : State) : Option CmdError :=
  failIf (decide (zext s.regs.srcLen < imagePixels s * 4)) .dimsBounds

/-- CROP_OVERRUN (R259). -/
def checkCropOverrun (s : State) : Option CmdError :=
  failIf (decide (zext s.regs.width < zext s.regs.startX + zext s.regs.newWidth)) .cropOverrun

/-- DST_RANGE (R260): D must lie inside the pixel memory. -/
def checkDstRange (s : State) (d : Region) : Option CmdError :=
  failIf (!(decide (d.base + d.len ≤ s.params.memBytes))) .dstRange

/-- OVERLAP (R261): S and D share a byte, both being non-empty. -/
def checkOverlap (s : State) (d : Region) : Option CmdError :=
  failIf (decide (0 < zext s.regs.srcLen) && decide (0 < d.len)
    && decide (zext s.regs.srcBase < d.base + d.len)
    && decide (d.base < zext s.regs.srcBase + zext s.regs.srcLen)) .overlap

/-- The checks of each command in increasing code order, as the table of R251 gives them. The check 0x01 is made at
decode (R252). -/
def commandChecks : Instr → State → List (Option CmdError)
  | .clamp, _ => []
  | .prngDraw, _ => []
  | .grayscale, s => [checkLenAlign s, checkSrcRange s]
  | .invert, s => [checkLenAlign s, checkSrcRange s]
  | .brightness, s => [checkLenAlign s, checkSrcRange s]
  | .sepia, s => [checkLenAlign s, checkSrcRange s]
  | .contrast, s => [checkLenAlign s, checkSrcRange s, checkContrastRange s]
  | .vignette, s => [checkLenAlign s, checkSrcRange s, checkStrength s, checkDimsBounds s]
  | .lofi, s => [checkLenAlign s, checkSrcRange s]
  | .vintage, s => [checkLenAlign s, checkSrcRange s]
  | .cyberpunk, s => [checkLenAlign s, checkSrcRange s]
  | .resizeNn, s => [checkLenAlign s, checkSrcRange s, checkDstRange s (newRegion s), checkOverlap s (newRegion s)]
  | .resizeBilinear, _ => [some .unimplemented]
  | .crop, s =>
    [checkLenAlign s, checkSrcRange s, checkDimsBounds s, checkCropOverrun s, checkDstRange s (newRegion s),
     checkOverlap s (newRegion s)]
  | .flipH, s =>
    [checkLenAlign s, checkSrcRange s, checkDimsBounds s, checkDstRange s (flipRegion s), checkOverlap s (flipRegion s)]
  | .flipV, s =>
    [checkLenAlign s, checkSrcRange s, checkDimsBounds s, checkDstRange s (flipRegion s), checkOverlap s (flipRegion s)]

/-- The first check that fails, in the order given. -/
def firstError : List (Option CmdError) → Option CmdError
  | [] => none
  | some e :: _ => some e
  | none :: rest => firstError rest

/-- The error a command completes with, or `none` when all its checks pass (R251). It reads registers only. -/
def commandError (i : Instr) (s : State) : Option CmdError := firstError (commandChecks i s)

/-- The region a command whose checks pass writes (R67, R291): S, VIGNETTE's prefix of it, or D; none for CLAMP and
PRNG_DRAW. Only channels 0 to 2 of S and of the prefix are written (R152). -/
def targetRegion : Instr → State → Option Region
  | .clamp, _ => none
  | .prngDraw, _ => none
  | .grayscale, s => some (srcRegion s)
  | .invert, s => some (srcRegion s)
  | .brightness, s => some (srcRegion s)
  | .sepia, s => some (srcRegion s)
  | .contrast, s => some (srcRegion s)
  | .vignette, s => some (imageRegion s)
  | .lofi, s => some (srcRegion s)
  | .vintage, s => some (srcRegion s)
  | .cyberpunk, s => some (srcRegion s)
  | .resizeNn, s => some (newRegion s)
  | .resizeBilinear, _ => none
  | .crop, s => some (newRegion s)
  | .flipH, s => some (flipRegion s)
  | .flipV, s => some (flipRegion s)

/-- A geometric transform reads S beside the region it writes (R67, R200). -/
def readsSource : Instr → Bool
  | .resizeNn => true
  | .crop => true
  | .flipH => true
  | .flipV => true
  | _ => false

/-- The region the running command could write: none when it fails (R67, R291). -/
def writableRegion (i : Instr) (s : State) : Option Region :=
  match commandError i s with
  | some _ => none
  | none => targetRegion i s

/-- The footprint of a command (R67): the region it writes, and S for a geometric transform; empty for CLAMP,
PRNG_DRAW and a command that fails. -/
def footprint (i : Instr) (s : State) : List Region :=
  match writableRegion i s with
  | none => []
  | some r => if readsSource i then [srcRegion s, r] else [r]

/-- The footprint of the command in flight; a word that is no command has none. -/
def runningFootprint (s : State) : List Region :=
  match s.phase with
  | .idle => []
  | .busy =>
    match decode s.cmd with
    | .ok i => footprint i s
    | .error _ => []

/-- The address lies in the running command's footprint. -/
def inFootprint (s : State) (a : Nat) : Bool := (runningFootprint s).any (fun r => r.has a)

/-- The pixels of S: SRC_LEN / 4 (R150). -/
def srcPixels (s : State) : Nat := zext s.regs.srcLen / 4

/-- The address of pixel i of S (R62, R150). -/
def pixelAddr (s : State) (i : Nat) : Nat := zext s.regs.srcBase + 4 * i

/-- Read a pixel's colour channels, compute the new ones from all three, write them back (R151). `none` is a NaN. -/
def recolour (f : Byte → Byte → Byte → Option (Byte × Byte × Byte)) (a : Nat) (s : State) : Option State :=
  match f (s.byteAt a) (s.byteAt (a + 1)) (s.byteAt (a + 2)) with
  | some (r, g, b) => some (s.storeColour a r g b)
  | none => none

/-- The shape of every colour filter (R153): the checks, then the pixel loop over n pixels, then completion. -/
def runFilter (i : Instr) (n : Nat) (body : Nat → State → Option State) (s : State) : Host.Outcome State Fault Refusal :=
  match commandError i s with
  | some e => .next (raiseError e s)
  | none => finish (pixelLoop body n 0 s)

/-- A filter whose pixel function does not depend on the pixel's place or on the generator (R168), over all of S. -/
def recolourSource (i : Instr) (f : Byte → Byte → Byte → Option (Byte × Byte × Byte)) (s : State) :
    Host.Outcome State Fault Refusal :=
  runFilter i (srcPixels s) (fun k t => recolour f (pixelAddr s k) t) s

/-- One function on each of the three channels (R154). -/
def eachChannel (f : Byte → Option Byte) (r g b : Byte) : Option (Byte × Byte × Byte) :=
  match f r, f g, f b with
  | some r', some g', some b' => some (r', g', b')
  | _, _, _ => none

/-- DST_LEN <- Ldst (R33, R200). Only the length 2^32 does not fit the register; the spec states no value for it, so
it is a free draw (assumption log 8). -/
def State.setDstLen (s : State) (len : Nat) : State :=
  if len < 2 ^ 32 then { s with dstLen := BitVec.ofNat 32 len }
  else { s with dstLen := Config.freeWord s.draws, draws := s.draws + 1 }

/-- The shape of every geometric transform (R200, R201): the checks, then every pixel of D, then DST_LEN and
completion. `src k` is the address destination pixel k is copied from, if it is copied. -/
def runTransform (i : Instr) (d : Region) (src : Nat → Option Nat) (s : State) : Host.Outcome State Fault Refusal :=
  match commandError i s with
  | some e => .next (raiseError e s)
  | none => .next (completeOk ((copyPixels src d.base (d.len / 4) 0 s).setDstLen d.len))

end Sys2Proof.Machine
end

