-- ==== Sys2Proof/Machine/Diagnostic.lean ====
section
/-! DEFINITION. The clamp unit and the noise generator (40_clamp_prng.md) and their two commands, CLAMP and
PRNG_DRAW. -/

namespace Sys2Proof.Machine

/-- One transition of the generator: (s * 1664525 + 1013904223) mod 2^32 (R124). The constants are written first: a
kernel that compares two generator states would otherwise count the greater one down. -/
def advance (s : Word) : Word := BitVec.ofNat 32 (1013904223 + 1664525 * s.toNat)

/-- The seed, 12345 (R126). -/
def seed : Word := 12345

/-- The draw index of a generator state: state mod 100 (R125). -/
def drawIndex (s : Word) : Fin 100 := ⟨s.toNat % 100, Nat.mod_lt _ (by decide)⟩

/-- A draw makes the transition; the new state gives the draw index (R125). -/
def State.drawNoise (s : State) : State := { s with prngState := advance s.prngState }

/-- CLAMP (R122): RESULT <- clamp8(sext_32(ARG)), zero-extended. -/
def execClamp (s : State) : Host.Outcome State Fault Refusal :=
  .next (completeOk { s with result := (clamp8 (sext s.regs.arg)).setWidth 32 })

/-- PRNG_DRAW (R127): one draw; PRNG_STATE holds the new state and RESULT the draw index. -/
def execPrngDraw (s : State) : Host.Outcome State Fault Refusal :=
  .next (completeOk { s.drawNoise with result := BitVec.ofNat 32 (drawIndex s.drawNoise.prngState).val })

end Sys2Proof.Machine
end

