-- ==== Sys2Proof/Machine/Filters.lean ====
section
/-! DEFINITION. The nine colour filters (41_color_filters.md). Each pixel's three new channels are computed from the
three old ones (R151), in the format `FMT` of the chip (R11), left to right as parenthesised. -/

namespace Sys2Proof.Machine

/-- A channel as a value of the format: `conv` (R11). -/
def channel (f : Fmt) (c : Byte) : Fp := Fp.conv f c.toNat

/-- The luminance ((K(0.299) ⊗ r) ⊕ (K(0.587) ⊗ g)) ⊕ (K(0.114) ⊗ b) (R155, R163). -/
def luminance (f : Fmt) (r g b : Byte) : Fp :=
  Fp.add f (Fp.add f (Fp.mul f (Fp.lit f 299 1000) (channel f r)) (Fp.mul f (Fp.lit f 587 1000) (channel f g)))
    (Fp.mul f (Fp.lit f 114 1000) (channel f b))

/-- GRAYSCALE's pixel (R155): all three channels become the truncated luminance. -/
def grayscalePixel (f : Fmt) (r g b : Byte) : Option (Byte × Byte × Byte) :=
  match tc f (luminance f r g b) with
  | some v => some (v, v, v)
  | none => none

/-- INVERT's channel (R156): 255 - c, exact. -/
def invertChannel (c : Byte) : Option Byte := some (BitVec.ofNat 8 (255 - c.toNat))

/-- BRIGHTNESS's channel (R157): clamp8(c + amt), exact. -/
def brightnessChannel (amt : Int) (c : Byte) : Option Byte := some (clamp8 (c.toNat + amt))

/-- One row of the sepia matrix, its entries in thousandths (R158). -/
def sepiaRow (f : Fmt) (kr kg kb : Nat) (r g b : Byte) : Fp :=
  Fp.add f (Fp.add f (Fp.mul f (channel f r) (Fp.lit f kr 1000)) (Fp.mul f (channel f g) (Fp.lit f kg 1000)))
    (Fp.mul f (channel f b) (Fp.lit f kb 1000))

/-- Three values truncated and clamped (R12). -/
def tcPixel (f : Fmt) (r g b : Fp) : Option (Byte × Byte × Byte) :=
  match tc f r, tc f g, tc f b with
  | some r', some g', some b' => some (r', g', b')
  | _, _, _ => none

/-- SEPIA's pixel (R158). -/
def sepiaPixel (f : Fmt) (r g b : Byte) : Option (Byte × Byte × Byte) :=
  tcPixel f (sepiaRow f 393 769 189 r g b) (sepiaRow f 349 686 168 r g b) (sepiaRow f 272 534 131 r g b)

/-- The contrast factor (R159): conv(259 * (a + 255)) ⊘ conv(255 * (259 - a)). -/
def contrastFactor (f : Fmt) (a : Int) : Fp :=
  Fp.div f (Fp.conv f (259 * (a + 255))) (Fp.conv f (255 * (259 - a)))

/-- CONTRAST's channel (R160): tc((factor ⊗ conv(c - 128)) ⊕ K(128)). -/
def contrastChannel (f : Fmt) (factor : Fp) (c : Byte) : Option Byte :=
  tc f (Fp.add f (Fp.mul f factor (Fp.conv f ((c.toNat : Int) - 128))) (Fp.lit f 128 1))

/-- The image centre's coordinate for a side of n pixels: conv(n) ⊘ 2 (R161). -/
def centre (f : Fmt) (n : Nat) : Fp := Fp.div f (Fp.conv f n) (Fp.conv f 2)

/-- The length of the vector (a, b): fsqrt((a ⊗ a) ⊕ (b ⊗ b)) (R161). -/
def hypotenuse (f : Fmt) (a b : Fp) : Fp := Fp.sqrt f (Fp.add f (Fp.mul f a a) (Fp.mul f b b))

/-- `maxd`, from the centre to a corner (R161). -/
def maxDistance (f : Fmt) (w h : Nat) : Fp := hypotenuse f (centre f w) (centre f h)

/-- `d`, from the centre to the pixel at column x, row y (R161). -/
def distance (f : Fmt) (w h x y : Nat) : Fp :=
  hypotenuse f (Fp.sub f (Fp.conv f x) (centre f w)) (Fp.sub f (Fp.conv f y) (centre f h))

/-- f(x, y) = K(1) ⊖ ((d ⊘ maxd) ⊗ s) (R161). -/
def vignetteFactor (f : Fmt) (w h : Nat) (strength : Fp) (x y : Nat) : Fp :=
  Fp.sub f (Fp.lit f 1 1) (Fp.mul f (Fp.div f (distance f w h x y) (maxDistance f w h)) strength)

/-- VIGNETTE's pixel at column x, row y (R162): tc(conv(c) ⊗ f(x, y)) on each channel. -/
def vignettePixel (f : Fmt) (w h : Nat) (strength : Fp) (x y : Nat) (r g b : Byte) : Option (Byte × Byte × Byte) :=
  eachChannel (fun c => tc f (Fp.mul f (channel f c) (vignetteFactor f w h strength x y))) r g b

/-- desat(c) = (K(0.8) ⊗ c) ⊕ (K(0.2) ⊗ L) (R163). -/
def desaturate (f : Fmt) (lum : Fp) (c : Byte) : Fp :=
  Fp.add f (Fp.mul f (Fp.lit f 8 10) (channel f c)) (Fp.mul f (Fp.lit f 2 10) lum)

/-- LOFI's pixel with noise term n (R165): desaturate, tint red by 30 and green by 15, add the noise, truncate once. -/
def lofiPixel (f : Fmt) (n : NoiseTerm) (r g b : Byte) : Option (Byte × Byte × Byte) :=
  tcPixel f
    (Fp.add f (Fp.add f (desaturate f (luminance f r g b) r) (Fp.lit f 30 1)) (.fin n.neg n.mag))
    (Fp.add f (Fp.add f (desaturate f (luminance f r g b) g) (Fp.lit f 15 1)) (.fin n.neg n.mag))
    (Fp.add f (desaturate f (luminance f r g b) b) (.fin n.neg n.mag))

/-- One pixel of LOFI (R165): the draw first, then the pixel with the noise of the draw's index (R164). -/
def lofiStep (a : Nat) (s : State) : Option State :=
  recolour (lofiPixel s.params.fmt (s.params.lofiNoise.get (drawIndex s.drawNoise.prngState))) a s.drawNoise

/-- VINTAGE's pixel (R166). -/
def vintagePixel (f : Fmt) (r g b : Byte) : Option (Byte × Byte × Byte) :=
  tcPixel f
    (Fp.add f (Fp.mul f (channel f r) (Fp.lit f 9 10)) (Fp.lit f 40 1))
    (Fp.add f (Fp.mul f (channel f g) (Fp.lit f 7 10)) (Fp.lit f 10 1))
    (Fp.add f (Fp.mul f (channel f b) (Fp.lit f 9 10)) (Fp.lit f 40 1))

/-- CYBERPUNK's pixel (R167). -/
def cyberpunkPixel (f : Fmt) (r g b : Byte) : Option (Byte × Byte × Byte) :=
  tcPixel f
    (Fp.sub f (Fp.mul f (channel f r) (Fp.lit f 13 10)) (Fp.lit f 30 1))
    (Fp.mul f (channel f g) (Fp.lit f 9 10))
    (Fp.sub f (Fp.mul f (channel f b) (Fp.lit f 14 10)) (Fp.lit f 10 1))

/-- GRAYSCALE (R155). -/
def execGrayscale (s : State) : Host.Outcome State Fault Refusal :=
  recolourSource .grayscale (grayscalePixel s.params.fmt) s

/-- INVERT (R156). -/
def execInvert (s : State) : Host.Outcome State Fault Refusal :=
  recolourSource .invert (eachChannel invertChannel) s

/-- BRIGHTNESS (R157). -/
def execBrightness (s : State) : Host.Outcome State Fault Refusal :=
  recolourSource .brightness (eachChannel (brightnessChannel (sext s.regs.amount))) s

/-- SEPIA (R158). -/
def execSepia (s : State) : Host.Outcome State Fault Refusal :=
  recolourSource .sepia (sepiaPixel s.params.fmt) s

/-- CONTRAST (R160). -/
def execContrast (s : State) : Host.Outcome State Fault Refusal :=
  recolourSource .contrast
    (eachChannel (contrastChannel s.params.fmt (contrastFactor s.params.fmt (sext s.regs.amount)))) s

/-- VIGNETTE (R162): pixel k stands at column k mod WIDTH, row k / WIDTH (R62), for WIDTH * HEIGHT pixels. -/
def execVignette (s : State) : Host.Outcome State Fault Refusal :=
  runFilter .vignette (imagePixels s)
    (fun k t =>
      recolour
        (vignettePixel s.params.fmt (zext s.regs.width) (zext s.regs.height)
          ((Binary32.ofWord s.regs.strength).toFp s.params.fmt) (k % zext s.regs.width) (k / zext s.regs.width))
        (pixelAddr s k) t) s

/-- LOFI (R165): the generator is seeded anew, after the checks, before the first pixel. -/
def execLofi (s : State) : Host.Outcome State Fault Refusal :=
  match commandError .lofi s with
  | some e => .next (raiseError e s)
  | none => finish (pixelLoop (fun k t => lofiStep (pixelAddr s k) t) (srcPixels s) 0 { s with prngState := seed })

/-- VINTAGE (R166). -/
def execVintage (s : State) : Host.Outcome State Fault Refusal :=
  recolourSource .vintage (vintagePixel s.params.fmt) s

/-- CYBERPUNK (R167). -/
def execCyberpunk (s : State) : Host.Outcome State Fault Refusal :=
  recolourSource .cyberpunk (cyberpunkPixel s.params.fmt) s

end Sys2Proof.Machine
end

