-- ==== Sys2Proof/Machine/Geometric.lean ====
section
/-! DEFINITION. The four geometric transforms and the reserved bilinear resize (42_geometric.md). Destination pixel k
stands at column k mod w, row k / w of the destination image of width w (20_memory.md R62). Every address is an exact
integer. -/

namespace Sys2Proof.Machine

/-- The source pixel of RESIZE_NN's destination pixel (x, y): column floor(x*W / NW) of row floor(y*H / NH), as a byte
offset from SRC_BASE (R202, R203). With W = 0 or H = 0 there is no such column or row, and every destination pixel
takes offset 0 (R205; 90_conflicts.md C13). -/
def resizeOffset (s : State) (x y : Nat) : Nat :=
  if zext s.regs.width = 0 ∨ zext s.regs.height = 0 then 0
  else (y * zext s.regs.height / zext s.regs.newHeight * zext s.regs.width
    + x * zext s.regs.width / zext s.regs.newWidth) * 4

/-- RESIZE_NN copies the pixel when it lies wholly inside S and skips it otherwise (R203). -/
def resizeSource (s : State) (k : Nat) : Option Nat :=
  if resizeOffset s (k % zext s.regs.newWidth) (k / zext s.regs.newWidth) + 4 ≤ zext s.regs.srcLen
  then some (zext s.regs.srcBase + resizeOffset s (k % zext s.regs.newWidth) (k / zext s.regs.newWidth))
  else none

/-- CROP copies row START_Y + y from column START_X on; a row at or beyond HEIGHT is zero (R207, R208). -/
def cropSource (s : State) (k : Nat) : Option Nat :=
  if zext s.regs.startY + k / zext s.regs.newWidth < zext s.regs.height
  then some (zext s.regs.srcBase
    + ((zext s.regs.startY + k / zext s.regs.newWidth) * zext s.regs.width + zext s.regs.startX) * 4
    + k % zext s.regs.newWidth * 4)
  else none

/-- FLIP_H: destination (x, y) takes source (W - 1 - x, y) (R209). -/
def flipHSource (s : State) (k : Nat) : Option Nat :=
  some (zext s.regs.srcBase
    + (k / zext s.regs.width * zext s.regs.width + (zext s.regs.width - 1 - k % zext s.regs.width)) * 4)

/-- FLIP_V: destination row y takes source row H - 1 - y (R210). -/
def flipVSource (s : State) (k : Nat) : Option Nat :=
  some (zext s.regs.srcBase + (zext s.regs.height - 1 - k / zext s.regs.width) * zext s.regs.width * 4
    + k % zext s.regs.width * 4)

/-- RESIZE_NN (R204, R205). -/
def execResizeNn (s : State) : Host.Outcome State Fault Refusal :=
  runTransform .resizeNn (newRegion s) (resizeSource s) s

/-- RESIZE_BILINEAR (R206): reads no register, touches no memory and completes with `UNIMPLEMENTED` (R253). -/
def execResizeBilinear (s : State) : Host.Outcome State Fault Refusal :=
  .next (raiseError .unimplemented s)

/-- CROP (R207). -/
def execCrop (s : State) : Host.Outcome State Fault Refusal :=
  runTransform .crop (newRegion s) (cropSource s) s

/-- FLIP_H (R209). -/
def execFlipH (s : State) : Host.Outcome State Fault Refusal :=
  runTransform .flipH (flipRegion s) (flipHSource s) s

/-- FLIP_V (R210). -/
def execFlipV (s : State) : Host.Outcome State Fault Refusal :=
  runTransform .flipV (flipRegion s) (flipVSource s) s

end Sys2Proof.Machine
end

