-- ==== Sys2Proof/Machine/Dispatch.lean ====
section
/-! DEFINITION. One arm per command (30_encoding.md R94): the command's effect from acceptance to completion. -/

namespace Sys2Proof.Machine

def exec (i : Instr) (s : State) : Host.Outcome State Fault Refusal :=
  match i with
  | .clamp => Sys2Proof.Machine.execClamp s
  | .prngDraw => Sys2Proof.Machine.execPrngDraw s
  | .grayscale => Sys2Proof.Machine.execGrayscale s
  | .invert => Sys2Proof.Machine.execInvert s
  | .brightness => Sys2Proof.Machine.execBrightness s
  | .sepia => Sys2Proof.Machine.execSepia s
  | .contrast => Sys2Proof.Machine.execContrast s
  | .vignette => Sys2Proof.Machine.execVignette s
  | .lofi => Sys2Proof.Machine.execLofi s
  | .vintage => Sys2Proof.Machine.execVintage s
  | .cyberpunk => Sys2Proof.Machine.execCyberpunk s
  | .resizeNn => Sys2Proof.Machine.execResizeNn s
  | .resizeBilinear => Sys2Proof.Machine.execResizeBilinear s
  | .crop => Sys2Proof.Machine.execCrop s
  | .flipH => Sys2Proof.Machine.execFlipH s
  | .flipV => Sys2Proof.Machine.execFlipV s

end Sys2Proof.Machine
end

