-- ==== Sys2Proof/Machine/Flags.lean ====
section
/-! DEFINITION. The flags. The core has no arithmetic condition codes (10_state.md R52); its only flags are the fields
of STATUS (R23 to R28) and CTRL.IRQ_EN (R22), and `irq` is a function of them (R53, R264). -/

namespace Sys2Proof.Machine

/-- STATUS.BUSY (R23): 1 exactly when the phase is BUSY. -/
def State.busy (s : State) : Bool :=
  match s.phase with
  | .busy => true
  | .idle => false

/-- A flag as a bit of a word. -/
def flagBit (b : Bool) : BitVec 1 := BitVec.ofBool b

/-- The word a read of STATUS gives: BUSY bit 0, DONE bit 1, ERR bit 2, DROPPED bit 3, ERR_CODE bits [15:8], the
other bits zero (R23 to R28). -/
def State.statusWord (s : State) : Word :=
  (0 : BitVec 16) ++ s.errCode ++ (0 : BitVec 4) ++ flagBit s.dropped ++ flagBit s.err ++ flagBit s.done ++ flagBit s.busy

/-- The word a read of CTRL gives: IRQ_EN bit 0, the other bits zero (R22). -/
def State.ctrlWord (s : State) : Word := (0 : BitVec 31) ++ flagBit s.irqEn

/-- The output `irq` = CTRL.IRQ_EN AND STATUS.DONE (R53, R264). -/
def State.irq (s : State) : Bool := s.irqEn && s.done

/-- A write to CTRL (R22): bit 0 is IRQ_EN; writes to the other bits are ignored. -/
def State.writeCtrl (s : State) (v : Word) : State := { s with irqEn := v.getLsbD 0 }

/-- A write to STATUS (R24 to R28): a 1 in bit 1, 2 or 3 clears DONE, ERR or DROPPED; nothing else changes. -/
def State.writeStatus (s : State) (v : Word) : State :=
  { s with
    done := s.done && !v.getLsbD 1,
    err := s.err && !v.getLsbD 2,
    dropped := s.dropped && !v.getLsbD 3 }

/-- The core drops a host write (R47): DROPPED is set and nothing else changes. -/
def State.dropWrite (s : State) : State := { s with dropped := true }

end Sys2Proof.Machine
end

