-- ==== Sys2Proof/Machine/HostPort.lean ====
section
/-! DEFINITION. What the host can do to the core (10_state.md R20 to R48, R55; 20_memory.md R71; 70_reset_and_hazards.md
R290, R291): register reads and writes, reads and writes of pixel memory, and the reset input. -/

namespace Sys2Proof.Machine

/-- The register at an offset of the window; the offsets 0x4C .. 0xFC are reserved (R20, R45). -/
def Reg.ofOffset : Nat → Option Reg
  | 0x00 => some .id
  | 0x04 => some .ctrl
  | 0x08 => some .status
  | 0x0C => some .cmd
  | 0x10 => some .srcBase
  | 0x14 => some .srcLen
  | 0x18 => some .dstBase
  | 0x1C => some .dstLen
  | 0x20 => some .width
  | 0x24 => some .height
  | 0x28 => some .newWidth
  | 0x2C => some .newHeight
  | 0x30 => some .startX
  | 0x34 => some .startY
  | 0x38 => some .amount
  | 0x3C => some .strength
  | 0x40 => some .arg
  | 0x44 => some .result
  | 0x48 => some .prngState
  | _ => none

/-- The offset of a register, from its own rule (R21 to R44). -/
def Reg.offset : Reg → Nat
  | .id => 0x00
  | .ctrl => 0x04
  | .status => 0x08
  | .cmd => 0x0C
  | .srcBase => 0x10
  | .srcLen => 0x14
  | .dstBase => 0x18
  | .dstLen => 0x1C
  | .width => 0x20
  | .height => 0x24
  | .newWidth => 0x28
  | .newHeight => 0x2C
  | .startX => 0x30
  | .startY => 0x34
  | .amount => 0x38
  | .strength => 0x3C
  | .arg => 0x40
  | .result => 0x44
  | .prngState => 0x48

/-- The host address of a register (R20). -/
def State.regAddr (s : State) (r : Reg) : Nat := s.params.regBase + r.offset

/-- The offset of a register access: 32 bits wide, word-aligned, in 0x00 .. 0xFC of the window; any other access is
outside the interface (R20, R45). -/
def windowOffset (p : Params) (addr nbytes : Nat) : Option Nat :=
  if p.regBase ≤ addr ∧ addr - p.regBase < 256 ∧ (addr - p.regBase) % 4 = 0 ∧ nbytes = 4
  then some (addr - p.regBase) else none

/-- The ID word: "PIX" and revision 1 (R21). -/
def idWord : Word := 0x50495801

/-- The value a register holds. -/
def State.readReg (s : State) : Reg → Word
  | .id => idWord
  | .ctrl => s.ctrlWord
  | .status => s.statusWord
  | .cmd => s.cmd
  | .srcBase => s.regs.srcBase
  | .srcLen => s.regs.srcLen
  | .dstBase => s.regs.dstBase
  | .dstLen => s.dstLen
  | .width => s.regs.width
  | .height => s.regs.height
  | .newWidth => s.regs.newWidth
  | .newHeight => s.regs.newHeight
  | .startX => s.regs.startX
  | .startY => s.regs.startY
  | .amount => s.regs.amount
  | .strength => s.regs.strength
  | .arg => s.regs.arg
  | .result => s.result
  | .prngState => s.prngState

/-- The registers whose value is unspecified while the core is busy (R48). -/
def Reg.unspecifiedWhileBusy : Reg → Bool
  | .dstLen => true
  | .result => true
  | .prngState => true
  | _ => false

/-- The host is given a word on the register port. -/
def State.answerWord (s : State) (w : Word) : State := { s with readData := some (.reg (lanesOfWord w)) }

/-- The host is given an unspecified word: a free draw (R274). -/
def State.answerFreeWord (s : State) : State :=
  { s with readData := some (.reg (lanesOfWord (Config.freeWord s.draws))), draws := s.draws + 1 }

/-- A host read at an offset of the window. While reset is asserted every read is unspecified (R290); while the core
is busy DST_LEN, RESULT and PRNG_STATE are (R48); a reserved offset reads 0 (R45). -/
def readOffset (off : Nat) (s : State) : State :=
  if s.inReset then s.answerFreeWord
  else match Reg.ofOffset off with
    | none => s.answerWord 0
    | some r => if s.busy && r.unspecifiedWhileBusy then s.answerFreeWord else s.answerWord (s.readReg r)

/-- A host write to a parameter register or PRNG_STATE takes effect while idle and is dropped while busy (R47). -/
def State.unlessBusy (s : State) (written : State) : State := if s.busy then s.dropWrite else written

/-- A host write to a register (R21 to R47). -/
def State.writeReg (s : State) (v : Word) : Reg → State
  | .id => s
  | .ctrl => s.writeCtrl v
  | .status => s.writeStatus v
  | .cmd => s.unlessBusy (s.accept v)
  | .srcBase => s.unlessBusy { s with regs := { s.regs with srcBase := v } }
  | .srcLen => s.unlessBusy { s with regs := { s.regs with srcLen := v } }
  | .dstBase => s.unlessBusy { s with regs := { s.regs with dstBase := v } }
  | .dstLen => s
  | .width => s.unlessBusy { s with regs := { s.regs with width := v } }
  | .height => s.unlessBusy { s with regs := { s.regs with height := v } }
  | .newWidth => s.unlessBusy { s with regs := { s.regs with newWidth := v } }
  | .newHeight => s.unlessBusy { s with regs := { s.regs with newHeight := v } }
  | .startX => s.unlessBusy { s with regs := { s.regs with startX := v } }
  | .startY => s.unlessBusy { s with regs := { s.regs with startY := v } }
  | .amount => s.unlessBusy { s with regs := { s.regs with amount := v } }
  | .strength => s.unlessBusy { s with regs := { s.regs with strength := v } }
  | .arg => s.unlessBusy { s with regs := { s.regs with arg := v } }
  | .result => s
  | .prngState => s.unlessBusy { s with prngState := v }

/-- A host write at an offset of the window: no effect while reset is asserted (R290); a reserved offset ignores it and
is never counted as dropped (R45). -/
def writeOffset (off : Nat) (v : Word) (s : State) : State :=
  if s.inReset then s
  else match Reg.ofOffset off with
    | none => s
    | some r => s.writeReg v r

/-- A host read of the register window (R20, R45). -/
def hostRegRead (addr nbytes : Nat) (s : State) : Host.Outcome State Fault Refusal :=
  match windowOffset s.params addr nbytes with
  | some off => .next (readOffset off s)
  | none => .refused .notRegisterAccess

/-- A host write to the register window, its value on byte lanes (R20, R45). -/
def hostRegWrite (addr : Nat) (lanes : List Byte) (s : State) : Host.Outcome State Fault Refusal :=
  match windowOffset s.params addr lanes.length, wordOfLanes lanes with
  | some off, some v => .next (writeOffset off v s)
  | _, _ => .refused .notRegisterAccess

/-- A host read of a byte of pixel memory: unspecified in the running command's footprint (R71 clause 3), the byte
itself elsewhere (R60, R71 clauses 2 and 5). -/
def hostMemRead (a : Nat) (s : State) : Host.Outcome State Fault Refusal :=
  if a < s.params.memBytes then
    if inFootprint s a then
      .next { s with readData := some (.mem (Config.freeByte s.draws a)), draws := s.draws + 1 }
    else .next { s with readData := some (.mem (s.byteAt a)) }
  else .fault .noSuchAddress

/-- A host write of a byte of pixel memory (R60). In the running command's footprint it makes what the command writes
unspecified (R71 clause 4). -/
def hostMemWrite (a : Nat) (b : Byte) (s : State) : Host.Outcome State Fault Refusal :=
  if a < s.params.memBytes then
    .next { s.setByte a b with tainted := s.tainted || inFootprint s a }
  else .fault .noSuchAddress

/-- A transaction of the host (R55). -/
def hostTxn : Txn → State → Host.Outcome State Fault Refusal
  | .regRead a n, s => hostRegRead a n s
  | .regWrite a lanes, s => hostRegWrite a lanes s
  | .memRead a, s => hostMemRead a s
  | .memWrite a b, s => hostMemWrite a b s

/-- The bytes the command in flight could have written become unspecified when reset abandons it (R291). -/
def abandonCommand (s : State) : State :=
  match s.phase with
  | .idle => s
  | .busy =>
    match decode s.cmd with
    | .error _ => s
    | .ok i =>
      match writableRegion i s with
      | none => s
      | some r => s.forgetBytes r.base r.len

/-- `rst_n` goes low (R290, R291): every register at its reset value, a command in flight abandoned, memory kept but
for what that command could have written. -/
def assertReset (s : State) : State :=
  { abandonCommand s with
    irqEn := false,
    phase := .idle,
    done := false, err := false, dropped := false, errCode := 0x00,
    cmd := 0x00000000,
    regs := Regs.reset,
    dstLen := 0x00000000,
    result := 0x00000000,
    prngState := 0x00003039,
    inReset := true,
    tainted := false }

/-- `rst_n` goes high (R290): the core is in its reset state and answers the host. -/
def releaseReset (s : State) : State := { s with inReset := false }

end Sys2Proof.Machine
end

