-- ==== Sys2Proof/Machine/Run.lean ====
section
/-! DEFINITION. The core's turn (10_state.md R46; 30_encoding.md R93) and what each event does. -/

namespace Sys2Proof.Machine

/-- The latched command runs to its completion, starting with decode (R92, R93, R263): a word that is no command
completes with `ILLEGAL_CMD` (R252). -/
def runLatched (s : State) : Host.Outcome State Fault Refusal :=
  match decode s.cmd with
  | .ok i => exec i s
  | .error _ => .next (raiseError .illegalCmd s)

/-- The core's turn: a busy core completes its command (R46); an idle one does nothing (R273, R292). -/
def coreTurn (s : State) : Host.Outcome State Fault Refusal :=
  match s.phase with
  | .busy => runLatched s
  | .idle => .next s

/-- A host transaction in the cycle in which the running command completes: the core was still busy when it landed,
and the completion's own writes win (R24, R265). With no command in flight it is a host transaction. -/
def hostThenCore (t : Txn) (s : State) : Host.Outcome State Fault Refusal :=
  match s.phase with
  | .idle => hostTxn t s
  | .busy =>
    match hostTxn t s with
    | .next s' => coreTurn s'
    | .fault r => .fault r
    | .refused r => .refused r

/-- What an event does. -/
def runEvent : Event → State → Host.Outcome State Fault Refusal
  | .host t, s => hostTxn t s
  | .hostAtCompletion t, s => hostThenCore t s
  | .core, s => coreTurn s
  | .assertReset, s => .next (assertReset s)
  | .releaseReset, s => .next (releaseReset s)

end Sys2Proof.Machine
end

