-- ==== Sys2Proof/Machine/Step.lean ====
section
/-! DEFINITION. One step of the machine: the next event of the inbox, or the core's turn when the host has asked for
nothing more. An inbox is finite, so every accepted command completes (70_reset_and_hazards.md R298: fairness). -/

namespace Sys2Proof.Machine

/-- One step (R7: two agents, the host and the core). -/
def step (s : State) : Host.Outcome State Fault Refusal :=
  match s.inbox with
  | [] => coreTurn s
  | e :: rest => runEvent e { s with inbox := rest }

/-- The state in which the core, out of reset, has accepted the command word and it is the core's turn: the next step
decodes and runs it. The core has no instruction memory (R51, R75): what it fetches is the word latched in CMD (R92). -/
def State.withFetchWord (s : State) (nbits w : Nat) : State :=
  { s.accept (BitVec.ofNat 32 (w % 2 ^ nbits)) with inReset := false, inbox := .core :: s.inbox }

end Sys2Proof.Machine
end

