-- ==== Sys2Proof/Machine/HostProgram.lean ====
section
/-! DEFINITION. Host programs as the assembler syntax writes them (30_encoding.md R97 to R99): each statement is the
host transactions it stands for, so a program is a list of events for `State.inbox`. The host's own program counter is
outside the spec (R51): a label has no transaction, and a branch is the read it makes. -/

namespace Sys2Proof.Machine

/-- A decimal number: its sign and a ratio of two whole numbers. -/
structure Decimal where
  neg : Bool
  num : Nat
  den : Nat
  deriving DecidableEq, Repr

/-- One statement (R97), or one pseudo-instruction (R98). -/
inductive HostStmt where
  /-- `wr NAME, value` -/
  | wr (r : Reg) (v : Word)
  /-- `rd NAME` -/
  | rd (r : Reg)
  /-- `cmd MNEMONIC` -/
  | cmd (i : Instr)
  /-- `mem addr: b0 b1 ... bn` -/
  | mem (a : Nat) (bytes : List Byte)
  /-- `bnz NAME, mask, label`, once executed -/
  | bnz (r : Reg) (mask : Word)
  /-- `wait` -/
  | wait
  /-- `run MNEMONIC` -/
  | run (i : Instr)
  /-- `clr` -/
  | clr
  /-- `wrf NAME, f` -/
  | wrf (r : Reg) (f : Decimal)
  /-- `buf B, L` -/
  | buf (base len : Word)
  /-- `dims W, H` -/
  | dims (w h : Word)
  /-- `ndims W, H` -/
  | ndims (w h : Word)
  deriving DecidableEq, Repr

/-- The exponent and fraction fields of a magnitude in binary32 units that binary32 can represent: exponent 0 below
2^23, else the fraction is what stands below the leading bit (IEEE 754, R41). -/
def binary32Fields (mag : Nat) : Nat × Nat :=
  if mag < 2 ^ 23 then (0, mag)
  else (Nat.log2 mag - 22, mag / 2 ^ (Nat.log2 mag - 23) - 2 ^ 23)

/-- A binary32 pattern from its fields (R41). -/
def binary32Word (neg : Bool) (exp frac : Nat) : Word :=
  BitVec.ofBool neg ++ BitVec.ofNat 8 exp ++ BitVec.ofNat 23 frac

/-- `bits32(f)`: the binary32 pattern of a decimal, rounded to nearest even (R98); beyond the greatest finite value it
is an infinity (IEEE 754, R11). -/
def bits32 (f : Decimal) : Word :=
  if roundRatio 24 (f.num * 2 ^ 149) f.den ≤ Fmt.binary32.maxMag then
    binary32Word f.neg (binary32Fields (roundRatio 24 (f.num * 2 ^ 149) f.den)).1
      (binary32Fields (roundRatio 24 (f.num * 2 ^ 149) f.den)).2
  else binary32Word f.neg 0xFF 0

/-- One host write of a 32-bit value to a register (R97). -/
def hostWrite (p : Params) (r : Reg) (v : Word) : Event := .host (.regWrite (p.regBase + r.offset) (lanesOfWord v))

/-- One host read of a register (R97). -/
def hostRead (p : Params) (r : Reg) : Event := .host (.regRead (p.regBase + r.offset) 4)

/-- Byte stores at an address and the addresses after it (R97). -/
def hostStores : Nat → List Byte → List Event
  | _, [] => []
  | a, b :: rest => .host (.memWrite a b) :: hostStores (a + 1) rest

/-- The transactions of a statement (R97 to R99). `wait` is the core's turn: "the host's next step happens after
completion" (R98). -/
def HostStmt.events (p : Params) : HostStmt → List Event
  | .wr r v => [hostWrite p r v]
  | .rd r => [hostRead p r]
  | .cmd i => [hostWrite p .cmd (encode i)]
  | .mem a bytes => hostStores a bytes
  | .bnz r _ => [hostRead p r]
  | .wait => [.core]
  | .run i => [hostWrite p .cmd (encode i), .core]
  | .clr => [hostWrite p .status 0x0000000E]
  | .wrf r f => [hostWrite p r (bits32 f)]
  | .buf b l => [hostWrite p .srcBase b, hostWrite p .srcLen l]
  | .dims w h => [hostWrite p .width w, hostWrite p .height h]
  | .ndims w h => [hostWrite p .newWidth w, hostWrite p .newHeight h]

/-- The transactions of a program (R99). -/
def programEvents (p : Params) : List HostStmt → List Event
  | [] => []
  | st :: rest => st.events p ++ programEvents p rest

/-- Whether `bnz` branches on the value the host was given (R97); `none` when it was given no register value. -/
def bnzTaken (mask : Word) : Option ReadData → Option Bool
  | some (.reg lanes) =>
    match wordOfLanes lanes with
    | some v => some (v &&& mask != 0)
    | none => none
  | some (.mem _) => none
  | none => none

/-- The state with a program loaded: its transactions come after what the host has asked for already. -/
def State.withProgram (s : State) (prog : List HostStmt) : State :=
  { s with inbox := s.inbox ++ programEvents s.params prog }

end Sys2Proof.Machine
end

