-- ==== Sys2Proof/Safety.lean ====
section
/-! DEFINITION. What claims about runs speak of: the invariant of the machine's states, and whose turn it is. -/

namespace Sys2Proof.Machine

/-- Every register at its reset value and the phase IDLE: the table of 70_reset_and_hazards.md R290. -/
structure State.AtResetValues (s : State) : Prop where
  phase     : s.phase = .idle
  irqEn     : s.irqEn = false
  done      : s.done = false
  err       : s.err = false
  dropped   : s.dropped = false
  errCode   : s.errCode = 0x00
  cmd       : s.cmd = 0x00000000
  regs      : s.regs = Regs.reset
  dstLen    : s.dstLen = 0x00000000
  result    : s.result = 0x00000000
  prngState : s.prngState = 0x00003039

/-- The invariant every step keeps. -/
structure State.Inv (s : State) : Prop where
  /-- The chip's parameters are admitted ones (R8, R164). -/
  params     : s.params.wf = true
  /-- Memory is in its canonical form. -/
  memWf      : Memory.wf s.mem
  /-- Memory lists no address outside the pixel memory (R60). -/
  memInside  : ∀ c ∈ s.mem, c.1 < s.params.memBytes
  /-- While a command runs, STATUS shows no completion (R92, R297). -/
  busyFlags  : s.phase = .busy → s.done = false ∧ s.err = false ∧ s.errCode = 0x00
  /-- ERR is set only beside an error code (R262). -/
  errHasCode : s.err = true → s.errCode ≠ 0x00
  /-- Codes 0x0B .. 0xFF are never produced (R250). -/
  codeBound  : s.errCode.toNat ≤ 0x0A
  /-- RESULT[31:8] = 0 (R122, R127). -/
  resultByte : s.result.toNat < 256
  /-- Only a running command's footprint can be written into (R71 clause 4). -/
  taintBusy  : s.tainted = true → s.phase = .busy
  /-- While reset is asserted the core is in its reset state (R290). -/
  resetState : s.inReset = true → s.AtResetValues

/-- It is the core's turn: the host has asked for nothing more, or the schedule says so. -/
def State.coreToMove (s : State) : Bool :=
  match s.inbox with
  | [] => true
  | .core :: _ => true
  | _ => false

/-- The state the core moves in: its own turn taken off the schedule. -/
def State.turnTaken (s : State) : State := { s with inbox := s.inbox.tail }

/-- A run is safe when no step of it ends in the fault `nanChannel` (R169, R274). -/
def State.NoNaN (s : State) : Prop := step s ≠ .fault .nanChannel

end Sys2Proof.Machine
end

