-- ==== Sys2Proof/Certificates/Slice0/Obligations.lean ====
section
/-! DEFINITION. The statements for the provers. Each docstring names the rule of spec/ it speaks of. What a statement
needs beside the model's own functions is written out here once more from the spec, under `Sys2Proof.Claims`. -/

namespace Sys2Proof.Claims

open Sys2Proof.Machine

/-- The state with one more event before all others. -/
def asks (e : Event) (s : State) : State := { s with inbox := e :: s.inbox }

/-- The host is about to write a 32-bit value at an offset of the register window (R20). -/
def writes (off : Nat) (v : Word) (s : State) : State :=
  asks (.host (.regWrite (s.params.regBase + off) (lanesOfWord v))) s

/-- The host is about to read the 32-bit register at an offset of the window (R20). -/
def reads (off : Nat) (s : State) : State := asks (.host (.regRead (s.params.regBase + off) 4)) s

/-- The state once the host has been given a word on the register port (R20). -/
def given (w : Word) (s : State) : State := { s with readData := some (.reg (lanesOfWord w)) }

/-- The STATUS fields a completion leaves, the phase IDLE (R262, R263). The model's own field `tainted` goes back to
false with it (assumption log 4). -/
def completed (code : Byte) (failed : Bool) (s : State) : State :=
  { s with errCode := code, err := failed, done := true, phase := .idle, tainted := false }

/-- Ldst (R200). -/
def dstBytes (i : Instr) (s : State) : Nat :=
  match i with
  | .flipH => s.regs.width.toNat * s.regs.height.toNat * 4
  | .flipV => s.regs.width.toNat * s.regs.height.toNat * 4
  | _ => s.regs.newWidth.toNat * s.regs.newHeight.toNat * 4

/-- The checks of a command after decode, in their order (the table of R251). -/
def checks : Instr → List CmdError
  | .clamp => []
  | .prngDraw => []
  | .grayscale => [.lenAlign, .srcRange]
  | .invert => [.lenAlign, .srcRange]
  | .brightness => [.lenAlign, .srcRange]
  | .sepia => [.lenAlign, .srcRange]
  | .contrast => [.lenAlign, .srcRange, .contrastRange]
  | .vignette => [.lenAlign, .srcRange, .strengthNonfinite, .dimsBounds]
  | .lofi => [.lenAlign, .srcRange]
  | .vintage => [.lenAlign, .srcRange]
  | .cyberpunk => [.lenAlign, .srcRange]
  | .resizeNn => [.lenAlign, .srcRange, .dstRange, .overlap]
  | .resizeBilinear => [.unimplemented]
  | .crop => [.lenAlign, .srcRange, .dimsBounds, .cropOverrun, .dstRange, .overlap]
  | .flipH => [.lenAlign, .srcRange, .dimsBounds, .dstRange, .overlap]
  | .flipV => [.lenAlign, .srcRange, .dimsBounds, .dstRange, .overlap]

/-- The cause of each error (R253 to R261); `ILLEGAL_CMD` is raised at decode, before there is a command (R252). -/
def cause (i : Instr) (s : State) : CmdError → Bool
  | .illegalCmd => false
  | .unimplemented => true
  | .lenAlign => s.regs.srcLen.toNat % 4 != 0
  | .srcRange => decide (s.params.memBytes < s.regs.srcBase.toNat + s.regs.srcLen.toNat)
  | .contrastRange => decide (s.regs.amount.toInt < -255 ∨ 255 < s.regs.amount.toInt)
  | .strengthNonfinite => s.regs.strength.extractLsb' 23 8 == 0xFF
  | .dimsBounds => decide (s.regs.srcLen.toNat < s.regs.width.toNat * s.regs.height.toNat * 4)
  | .cropOverrun => decide (s.regs.width.toNat < s.regs.startX.toNat + s.regs.newWidth.toNat)
  | .dstRange => decide (s.params.memBytes < s.regs.dstBase.toNat + dstBytes i s)
  | .overlap => decide (0 < s.regs.srcLen.toNat ∧ 0 < dstBytes i s ∧
      s.regs.srcBase.toNat < s.regs.dstBase.toNat + dstBytes i s ∧
      s.regs.dstBase.toNat < s.regs.srcBase.toNat + s.regs.srcLen.toNat)

/-- The numbers of the error codes (R250). -/
def number : CmdError → Byte
  | .illegalCmd => 0x01
  | .unimplemented => 0x02
  | .lenAlign => 0x03
  | .srcRange => 0x04
  | .contrastRange => 0x05
  | .strengthNonfinite => 0x06
  | .dimsBounds => 0x07
  | .cropOverrun => 0x08
  | .dstRange => 0x09
  | .overlap => 0x0A

/-- All the checks of a command pass. -/
def clear (i : Instr) (s : State) : Bool := (checks i).all (fun e => !cause i s e)

/-- The nine colour filters (R150). -/
def isFilter : Instr → Bool
  | .grayscale | .invert | .brightness | .sepia | .contrast | .vignette | .lofi | .vintage | .cyberpunk => true
  | _ => false

/-- The four geometric transforms (R200). -/
def isTransform : Instr → Bool
  | .resizeNn | .crop | .flipH | .flipV => true
  | _ => false

/-- How many pixels a filter processes: SRC_LEN / 4, and WIDTH*HEIGHT for VIGNETTE (R150). -/
def filterPixels (i : Instr) (s : State) : Nat :=
  match i with
  | .vignette => s.regs.width.toNat * s.regs.height.toNat
  | _ => s.regs.srcLen.toNat / 4

/-- Channel 0, 1 or 2 of one of the first n pixels of S (R62). -/
def colourByte (s : State) (n a : Nat) : Prop :=
  ∃ k c, k < n ∧ c < 3 ∧ a = s.regs.srcBase.toNat + 4 * k + c

/-- The bytes a command whose checks pass writes: colour bytes for a filter (R152), all of D for a transform (R200). -/
def stores (i : Instr) (s : State) (a : Nat) : Prop :=
  (isFilter i = true ∧ colourByte s (filterPixels i s) a) ∨
  (isTransform i = true ∧ s.regs.dstBase.toNat ≤ a ∧ a < s.regs.dstBase.toNat + dstBytes i s)

/-- The bytes a command whose checks pass may read or write (R67). -/
def touches (i : Instr) (s : State) (a : Nat) : Prop :=
  (isFilter i = true ∧ s.regs.srcBase.toNat ≤ a ∧
    a < s.regs.srcBase.toNat + (if i = .vignette then filterPixels i s * 4 else s.regs.srcLen.toNat)) ∨
  (isTransform i = true ∧ ((s.regs.srcBase.toNat ≤ a ∧ a < s.regs.srcBase.toNat + s.regs.srcLen.toNat) ∨
    (s.regs.dstBase.toNat ≤ a ∧ a < s.regs.dstBase.toNat + dstBytes i s)))

/-- The bytes that become unspecified when reset abandons a command whose checks pass: all of S for a filter, its prefix
for VIGNETTE, all of D for a transform (R291). -/
def abandons (i : Instr) (s : State) (a : Nat) : Prop :=
  (isFilter i = true ∧ s.regs.srcBase.toNat ≤ a ∧
    a < s.regs.srcBase.toNat + (if i = .vignette then filterPixels i s * 4 else s.regs.srcLen.toNat)) ∨
  (isTransform i = true ∧ s.regs.dstBase.toNat ≤ a ∧ a < s.regs.dstBase.toNat + dstBytes i s)

/-- Memory m holds s's bytes but for the colour channels of the first n pixels of S, and there each pixel's new
channels stand in relation R to its old ones (R151, R152). -/
def recoloured (s : State) (n : Nat) (R : Nat → (r g b r' g' b' : Byte) → Prop) (m : Memory) : Prop :=
  (∀ k, k < n →
    R k (s.byteAt (s.regs.srcBase.toNat + 4 * k)) (s.byteAt (s.regs.srcBase.toNat + 4 * k + 1))
      (s.byteAt (s.regs.srcBase.toNat + 4 * k + 2)) (m.byteAt (s.regs.srcBase.toNat + 4 * k))
      (m.byteAt (s.regs.srcBase.toNat + 4 * k + 1)) (m.byteAt (s.regs.srcBase.toNat + 4 * k + 2))) ∧
  ∀ a, ¬ colourByte s n a → m.byteAt a = s.byteAt a

/-- Memory m holds s's bytes but for D, an image of width w and height h at DST_BASE, whose channel c of column x, row
y is `px x y c` (R62, R200). -/
def redrawn (s : State) (w h : Nat) (px : (x y c : Nat) → Byte) (m : Memory) : Prop :=
  (∀ x y c, x < w → y < h → c < 4 → m.byteAt (s.regs.dstBase.toNat + (y * w + x) * 4 + c) = px x y c) ∧
  ∀ a, ¬ (s.regs.dstBase.toNat ≤ a ∧ a < s.regs.dstBase.toNat + w * h * 4) → m.byteAt a = s.byteAt a

/-- One transition of the generator on numbers (R124). -/
def lcg (n : Nat) : Nat := (n * 1664525 + 1013904223) % 2 ^ 32

/-- n transitions. -/
def lcgTimes : Nat → Nat → Nat
  | 0, s => s
  | n + 1, s => lcg (lcgTimes n s)

/-- `conv` of a channel (R11). -/
def chan (f : Fmt) (c : Byte) : Fp := Fp.conv f c.toNat

/-- The luminance of R155 and R163: ((K(0.299) ⊗ r) ⊕ (K(0.587) ⊗ g)) ⊕ (K(0.114) ⊗ b). -/
def lum (f : Fmt) (r g b : Byte) : Fp :=
  Fp.add f
    (Fp.add f (Fp.mul f (Fp.lit f 299 1000) (chan f r)) (Fp.mul f (Fp.lit f 587 1000) (chan f g)))
    (Fp.mul f (Fp.lit f 114 1000) (chan f b))

/-- A row of the sepia matrix (R158): ((r ⊗ K(kr)) ⊕ (g ⊗ K(kg))) ⊕ (b ⊗ K(kb)), the constants in thousandths. -/
def sepiaSum (f : Fmt) (kr kg kb : Nat) (r g b : Byte) : Fp :=
  Fp.add f
    (Fp.add f (Fp.mul f (chan f r) (Fp.lit f kr 1000)) (Fp.mul f (chan f g) (Fp.lit f kg 1000)))
    (Fp.mul f (chan f b) (Fp.lit f kb 1000))

/-- The distance fsqrt((a ⊗ a) ⊕ (b ⊗ b)) of R161. -/
def dist (f : Fmt) (a b : Fp) : Fp := Fp.sqrt f (Fp.add f (Fp.mul f a a) (Fp.mul f b b))

/-- The vignette factor f(x, y) of R161 for an image of w by h pixels and strength s. -/
def vignetteAt (f : Fmt) (w h : Nat) (s : Fp) (x y : Nat) : Fp :=
  let cx := Fp.div f (Fp.conv f w) (Fp.conv f 2)
  let cy := Fp.div f (Fp.conv f h) (Fp.conv f 2)
  let maxd := dist f cx cy
  let d := dist f (Fp.sub f (Fp.conv f x) cx) (Fp.sub f (Fp.conv f y) cy)
  Fp.sub f (Fp.lit f 1 1) (Fp.mul f (Fp.div f d maxd) s)

/-- desat(c) of R163. -/
def desat (f : Fmt) (l : Fp) (c : Byte) : Fp :=
  Fp.add f (Fp.mul f (Fp.lit f 8 10) (chan f c)) (Fp.mul f (Fp.lit f 2 10) l)

/-- The value of a finite binary32 pattern as a value of the format (R41): the fields are bit 31, bits [30:23] and bits
[22:0], and binary32's unit 2^-149 is 2^(unitExp - 149) units of the format. -/
def strengthValue (f : Fmt) (w : Word) : Fp :=
  .fin (w.getLsbD 31)
    ((if w.toNat / 2 ^ 23 % 256 = 0 then w.toNat % 2 ^ 23
      else (2 ^ 23 + w.toNat % 2 ^ 23) * 2 ^ (w.toNat / 2 ^ 23 % 256 - 1)) * 2 ^ (f.unitExp - 149))

/-- The offsets of the registers a busy core drops the writes of (R47). -/
def droppedOffsets : List Nat :=
  [0x0C, 0x10, 0x14, 0x18, 0x20, 0x24, 0x28, 0x2C, 0x30, 0x34, 0x38, 0x3C, 0x40, 0x48]

/-- The offsets whose writes are ignored, busy or idle: ID, DST_LEN, RESULT (R47). -/
def ignoredOffsets : List Nat := [0x00, 0x1C, 0x44]

/-- A number of p significant bits: what a format of precision p can hold when its exponent has no bound (R11). -/
def representable (p m : Nat) : Prop := ∃ t k, t < 2 ^ p ∧ m = t * 2 ^ k

/-- The event the next step carries out; a state whose host has asked for nothing lets the core have its turn. -/
def nextEvent (s : State) : Event :=
  match s.inbox with
  | [] => .core
  | e :: _ => e

end Sys2Proof.Claims

open Sys2Proof Sys2Proof.Machine Sys2Proof.Claims

/-! ## Encoding -/

/-- 30_encoding.md R90, R91, R93, R94: the decoder gives back the command of every command word, as a word, as the four
byte lanes and as a row of the opcode table, and no other word decodes to a command. -/
def Obligations.CommandWordsRoundTrip : Prop :=
  (∀ i : Instr, i.wellFormed = true →
    decode (encode i) = .ok i ∧ decodeBytes (lanesOfWord (encode i)) = .ok i ∧
      decodeTableWord 32 (encode i).toNat = some i) ∧
  ∀ w i, decode w = .ok i → w = encode i

/-- 30_encoding.md R93, R96: a word decodes exactly when it is well formed; reserved bits are found first. -/
def Obligations.DecodeRefusesExactlyIllegalWords : Prop :=
  ∀ w : Word,
    ((∃ i, decode w = .ok i) ↔ CommandWord.wellFormed w = true) ∧
    (CommandWord.rsvdIsZero w = false → decode w = .error .reservedBits) ∧
    (CommandWord.rsvdIsZero w = true → CommandWord.opcodeIsAssigned (w.setWidth 8) = false →
      decode w = .error .unassignedOpcode)

/-- 30_encoding.md R94: the sixteen words of the opcode map, written out, decode to their commands. -/
def Obligations.OpcodeMapWordsDecode : Prop :=
  decode 0x00000001 = .ok .clamp ∧ decode 0x00000002 = .ok .prngDraw ∧ decode 0x00000010 = .ok .grayscale ∧
  decode 0x00000011 = .ok .invert ∧ decode 0x00000012 = .ok .brightness ∧ decode 0x00000013 = .ok .sepia ∧
  decode 0x00000014 = .ok .contrast ∧ decode 0x00000015 = .ok .vignette ∧ decode 0x00000016 = .ok .lofi ∧
  decode 0x00000017 = .ok .vintage ∧ decode 0x00000018 = .ok .cyberpunk ∧ decode 0x00000020 = .ok .resizeNn ∧
  decode 0x00000021 = .ok .resizeBilinear ∧ decode 0x00000022 = .ok .crop ∧ decode 0x00000023 = .ok .flipH ∧
  decode 0x00000024 = .ok .flipV

/-- 30_encoding.md R92, R93: the step of a busy core whose turn it is is the decoded command's `exec`, the core's turn
taken off the schedule; the step after `withFetchWord` is `exec` of the placed command. -/
def Obligations.StepRunsDecodedCommand : Prop :=
  (∀ s i, s.phase = .busy → s.coreToMove = true → decode s.cmd = .ok i → step s = exec i s.turnTaken) ∧
  ∀ (s : State) (w : Nat) (i : Instr), w < 2 ^ 32 → decode (BitVec.ofNat 32 w) = .ok i →
    step (s.withFetchWord 32 w) =
      exec i { s with cmd := BitVec.ofNat 32 w, phase := .busy, done := false, err := false, errCode := 0x00,
                      tainted := false, inReset := false }

/-- 60_exceptions.md R252: a latched word with a reserved bit set or an unassigned opcode completes with `ILLEGAL_CMD`
and no other effect. -/
def Obligations.IllegalWordCompletesIllegalCmd : Prop :=
  ∀ s : State, s.phase = .busy → s.coreToMove = true →
    (s.cmd.extractLsb' 8 24 ≠ 0 ∨ ∀ i, encode i ≠ (0 : BitVec 24) ++ (s.cmd.setWidth 8 : Byte)) →
    step s = .next (completed 0x01 true s.turnTaken)

/-! ## The clamp unit and the generator -/

/-- 40_clamp_prng.md R120: `clamp8` on every integer. -/
def Obligations.Clamp8PinsToNearestByte : Prop :=
  ∀ n : Int, (n < 0 → (clamp8 n).toNat = 0) ∧ (255 < n → (clamp8 n).toNat = 255) ∧
    (0 ≤ n → n ≤ 255 → ((clamp8 n).toNat : Int) = n)

/-- 40_clamp_prng.md R122: CLAMP writes RESULT with ARG, read as a signed number, pinned to 0 .. 255, and nothing else
but the STATUS fields of R263, in every state: it has no error of its own. -/
def Obligations.ClampWritesSaturatedArg : Prop :=
  decode 0x00000001 = .ok .clamp ∧
  ∀ s : State, exec .clamp s =
    .next (completed 0x00 false { s with result := BitVec.ofInt 32 (max 0 (min 255 s.regs.arg.toInt)) })

/-- 40_clamp_prng.md R124, R127: PRNG_DRAW makes one transition and returns the new state mod 100, and changes nothing
else but the STATUS fields of R263. -/
def Obligations.PrngDrawReturnsIndex : Prop :=
  decode 0x00000002 = .ok .prngDraw ∧
  ∀ s : State, exec .prngDraw s =
    .next (completed 0x00 false
      { s with prngState := BitVec.ofNat 32 (lcg s.prngState.toNat),
               result := BitVec.ofNat 32 (lcg s.prngState.toNat % 100) })

/-- 40_clamp_prng.md R128: the first ten draws from the seed. -/
def Obligations.PrngSequenceFromSeed : Prop :=
  (List.range 10).map (fun n => ((advance^[n + 1] seed).toNat, (drawIndex (advance^[n + 1] seed)).val)) =
    [(87628868, 68), (71072467, 67), (2332836374, 74), (2726892157, 57), (3908547000, 0),
     (483019191, 91), (2129828778, 78), (2355140353, 53), (2560230508, 8), (3364893915, 15)]

/-! ## The arithmetic of the filters -/

/-- 00_scope.md R11: a rounded ratio is a number of p bits, no number of p bits is nearer, and when another one is as
near, the chosen one's last bit is zero. -/
def Obligations.RoundingIsToNearestEven : Prop :=
  ∀ p n d : Nat, 0 < p → 0 < d →
    representable p (roundRatio p n d) ∧
    ∀ m, representable p m →
      |((roundRatio p n d * d : Nat) : Int) - n| ≤ |((m * d : Nat) : Int) - n| ∧
      (m ≠ roundRatio p n d → |((roundRatio p n d * d : Nat) : Int) - n| = |((m * d : Nat) : Int) - n| →
        ∃ t k, roundRatio p n d = t * 2 ^ k ∧ t % 2 = 0 ∧ t ≤ 2 ^ p ∧ (k = 0 ∨ 2 ^ (p - 1) ≤ t))

/-- 00_scope.md R11: no number of p bits is nearer to the square root than the rounded one. With r the rounded root
and m another number, m < r is no nearer exactly when the midpoint is not above the root, (m + r)^2 <= 4n. -/
def Obligations.SquareRootIsNearest : Prop :=
  ∀ p n : Nat, 0 < p →
    representable p (roundRoot p n) ∧
    ∀ m, representable p m →
      (m < roundRoot p n → (m + roundRoot p n) * (m + roundRoot p n) ≤ 4 * n) ∧
      (roundRoot p n < m → 4 * n ≤ (m + roundRoot p n) * (m + roundRoot p n))

/-- 00_scope.md R11: `conv(n)` is exact for |n| <= 2^24 in binary32 and for |n| <= 2^53 in binary64. -/
def Obligations.ConvIsExactForSmallIntegers : Prop :=
  (∀ n : Int, |n| ≤ 2 ^ 24 → Fp.conv .binary32 n = .fin (decide (n < 0)) (n.natAbs * 2 ^ 149)) ∧
  ∀ n : Int, |n| ≤ 2 ^ 53 → Fp.conv .binary64 n = .fin (decide (n < 0)) (n.natAbs * 2 ^ 1074)

/-- 00_scope.md R12: truncate toward zero, then clamp; an infinity saturates by its sign; a NaN is recorded as the
fault NaNChannel by the loop it reaches. -/
def Obligations.TruncateThenClamp : Prop :=
  (∀ f n, n ≤ 255 → ∀ r, r < f.one → tc f (.fin false (n * f.one + r)) = some (BitVec.ofNat 8 n)) ∧
  (∀ f m, 255 * f.one ≤ m → tc f (.fin false m) = some 255) ∧
  (∀ f m, tc f (.fin true m) = some 0) ∧
  (∀ f, tc f (.inf false) = some 255 ∧ tc f (.inf true) = some 0 ∧ tc f .nan = none) ∧
  finish none = .fault .nanChannel

/-! ## The colour filters. Each statement gives the command's own effect when its checks pass and the host left its
footprint alone (R71 clause 4); `FilterStoresOnlyColourBytes` covers the other states. -/

/-- 41_color_filters.md R155. -/
def Obligations.GrayscaleSetsLuminance : Prop :=
  ∀ s : State, s.tainted = false → clear .grayscale s = true →
    ∃ m : Memory, exec .grayscale s = .next (completed 0x00 false { s with mem := m }) ∧
      recoloured s (s.regs.srcLen.toNat / 4) (fun _ r g b r' g' b' =>
        tc s.params.fmt (lum s.params.fmt r g b) = some r' ∧ g' = r' ∧ b' = r') m

/-- 41_color_filters.md R156. -/
def Obligations.InvertComplementsChannels : Prop :=
  ∀ s : State, s.tainted = false → clear .invert s = true →
    ∃ m : Memory, exec .invert s = .next (completed 0x00 false { s with mem := m }) ∧
      recoloured s (s.regs.srcLen.toNat / 4) (fun _ r g b r' g' b' =>
        r'.toNat = 255 - r.toNat ∧ g'.toNat = 255 - g.toNat ∧ b'.toNat = 255 - b.toNat) m

/-- 41_color_filters.md R157: every AMOUNT is legal. -/
def Obligations.BrightnessAddsSignedAmount : Prop :=
  ∀ s : State, s.tainted = false → clear .brightness s = true →
    ∃ m : Memory, exec .brightness s = .next (completed 0x00 false { s with mem := m }) ∧
      recoloured s (s.regs.srcLen.toNat / 4) (fun _ r g b r' g' b' =>
        (r'.toNat : Int) = max 0 (min 255 (r.toNat + s.regs.amount.toInt)) ∧
        (g'.toNat : Int) = max 0 (min 255 (g.toNat + s.regs.amount.toInt)) ∧
        (b'.toNat : Int) = max 0 (min 255 (b.toNat + s.regs.amount.toInt))) m

/-- 41_color_filters.md R158. -/
def Obligations.SepiaAppliesMatrix : Prop :=
  ∀ s : State, s.tainted = false → clear .sepia s = true →
    ∃ m : Memory, exec .sepia s = .next (completed 0x00 false { s with mem := m }) ∧
      recoloured s (s.regs.srcLen.toNat / 4) (fun _ r g b r' g' b' =>
        tc s.params.fmt (sepiaSum s.params.fmt 393 769 189 r g b) = some r' ∧
        tc s.params.fmt (sepiaSum s.params.fmt 349 686 168 r g b) = some g' ∧
        tc s.params.fmt (sepiaSum s.params.fmt 272 534 131 r g b) = some b') m

/-- 41_color_filters.md R159, R160: with a = AMOUNT and factor = conv(259*(a + 255)) ⊘ conv(255*(259 - a)), each
channel c becomes tc((factor ⊗ conv(c - 128)) ⊕ K(128)). -/
def Obligations.ContrastScalesAboutMidpoint : Prop :=
  ∀ s : State, s.tainted = false → clear .contrast s = true →
    ∃ m : Memory, exec .contrast s = .next (completed 0x00 false { s with mem := m }) ∧
      recoloured s (s.regs.srcLen.toNat / 4) (fun _ r g b r' g' b' =>
        let f := s.params.fmt
        let a := s.regs.amount.toInt
        let factor := Fp.div f (Fp.conv f (259 * (a + 255))) (Fp.conv f (255 * (259 - a)))
        let new := fun c : Byte => tc f (Fp.add f (Fp.mul f factor (Fp.conv f (c.toNat - 128))) (Fp.lit f 128 1))
        new r = some r' ∧ new g = some g' ∧ new b = some b') m

/-- 41_color_filters.md R161, R162: pixel y*W + x is multiplied by the factor of column x, row y; pixels beyond
WIDTH*HEIGHT are not touched. -/
def Obligations.VignetteDarkensByDistance : Prop :=
  ∀ s : State, s.tainted = false → clear .vignette s = true →
    ∃ m : Memory, exec .vignette s = .next (completed 0x00 false { s with mem := m }) ∧
      recoloured s (s.regs.width.toNat * s.regs.height.toNat) (fun k r g b r' g' b' =>
        ∀ x y, x < s.regs.width.toNat → k = y * s.regs.width.toNat + x →
          let f := s.params.fmt
          let v := vignetteAt f s.regs.width.toNat s.regs.height.toNat (strengthValue f s.regs.strength) x y
          tc f (Fp.mul f (chan f r) v) = some r' ∧ tc f (Fp.mul f (chan f g) v) = some g' ∧
            tc f (Fp.mul f (chan f b) v) = some b') m

/-- 41_color_filters.md R163, R164, R165: pixel k takes the (k+1)-st draw from the seed, and PRNG_STATE ends at the
state after the last draw. -/
def Obligations.LofiTintsWithSeededNoise : Prop :=
  ∀ s : State, s.tainted = false → clear .lofi s = true →
    ∃ m : Memory,
      exec .lofi s = .next (completed 0x00 false
        { s with mem := m, prngState := BitVec.ofNat 32 (lcgTimes (s.regs.srcLen.toNat / 4) 12345) }) ∧
      recoloured s (s.regs.srcLen.toNat / 4) (fun k r g b r' g' b' =>
        let f := s.params.fmt
        let l := lum f r g b
        let term := s.params.lofiNoise[lcgTimes (k + 1) 12345 % 100]'(Nat.mod_lt _ (by decide))
        let n := Fp.fin term.neg term.mag
        tc f (Fp.add f (Fp.add f (desat f l r) (Fp.lit f 30 1)) n) = some r' ∧
        tc f (Fp.add f (Fp.add f (desat f l g) (Fp.lit f 15 1)) n) = some g' ∧
        tc f (Fp.add f (desat f l b) n) = some b') m

/-- 41_color_filters.md R166. -/
def Obligations.VintageFadesAndLifts : Prop :=
  ∀ s : State, s.tainted = false → clear .vintage s = true →
    ∃ m : Memory, exec .vintage s = .next (completed 0x00 false { s with mem := m }) ∧
      recoloured s (s.regs.srcLen.toNat / 4) (fun _ r g b r' g' b' =>
        let f := s.params.fmt
        tc f (Fp.add f (Fp.mul f (chan f r) (Fp.lit f 9 10)) (Fp.lit f 40 1)) = some r' ∧
        tc f (Fp.add f (Fp.mul f (chan f g) (Fp.lit f 7 10)) (Fp.lit f 10 1)) = some g' ∧
        tc f (Fp.add f (Fp.mul f (chan f b) (Fp.lit f 9 10)) (Fp.lit f 40 1)) = some b') m

/-- 41_color_filters.md R167. -/
def Obligations.CyberpunkShiftsChannels : Prop :=
  ∀ s : State, s.tainted = false → clear .cyberpunk s = true →
    ∃ m : Memory, exec .cyberpunk s = .next (completed 0x00 false { s with mem := m }) ∧
      recoloured s (s.regs.srcLen.toNat / 4) (fun _ r g b r' g' b' =>
        let f := s.params.fmt
        tc f (Fp.sub f (Fp.mul f (chan f r) (Fp.lit f 13 10)) (Fp.lit f 30 1)) = some r' ∧
        tc f (Fp.mul f (chan f g) (Fp.lit f 9 10)) = some g' ∧
        tc f (Fp.sub f (Fp.mul f (chan f b) (Fp.lit f 14 10)) (Fp.lit f 10 1)) = some b') m

/-- 41_color_filters.md R152, R168: in every state, a filter whose checks pass completes, and all it changes beside the
STATUS fields of R263 are colour bytes of the pixels it processes and, for LOFI, PRNG_STATE. `draws` is the model's
count of free values (assumption log 2); it moves only when the host wrote into the footprint. -/
def Obligations.FilterStoresOnlyColourBytes : Prop :=
  ∀ (i : Instr) (s : State), isFilter i = true → clear i s = true →
    ∃ (m : Memory) (d : Nat) (p : Word),
      exec i s = .next (completed 0x00 false { s with mem := m, draws := d, prngState := p }) ∧
      (∀ a, ¬ colourByte s (filterPixels i s) a → m.byteAt a = s.byteAt a) ∧
      (i ≠ .lofi → p = s.prngState) ∧ (s.tainted = false → d = s.draws)

/-- 41_color_filters.md R156 and 90_conflicts.md C9: INVERT twice restores every byte. -/
def Obligations.InvertTwiceRestores : Prop :=
  ∀ s : State, s.tainted = false → clear .invert s = true →
    ∃ t u : State, exec .invert s = .next t ∧ exec .invert t = .next u ∧ (∀ a, u.byteAt a = s.byteAt a) ∧
      u.regs = s.regs

/-! ## The geometric transforms -/

/-- 42_geometric.md R202 to R205, and 90_conflicts.md C13 for a source without a row or a column, whose every
destination pixel takes offset 0. DST_LEN gets the length whenever 32 bits can hold it; 2^32 is the one length they
cannot, and what DST_LEN holds then is the model's free value (assumption log 8). -/
def Obligations.ResizeNnTakesNearestPixel : Prop :=
  ∀ s : State, s.tainted = false → clear .resizeNn s = true →
    ∃ (m : Memory) (l : Word) (d : Nat),
      exec .resizeNn s = .next (completed 0x00 false { s with mem := m, dstLen := l, draws := d }) ∧
      (dstBytes .resizeNn s < 2 ^ 32 → l.toNat = dstBytes .resizeNn s ∧ d = s.draws) ∧
      redrawn s s.regs.newWidth.toNat s.regs.newHeight.toNat (fun x y c =>
        let off := if s.regs.width.toNat = 0 ∨ s.regs.height.toNat = 0 then 0
          else (y * s.regs.height.toNat / s.regs.newHeight.toNat * s.regs.width.toNat
            + x * s.regs.width.toNat / s.regs.newWidth.toNat) * 4
        if off + 4 ≤ s.regs.srcLen.toNat then s.byteAt (s.regs.srcBase.toNat + off + c) else 0) m

/-- 42_geometric.md R207, R208. DST_LEN as in `ResizeNnTakesNearestPixel`. -/
def Obligations.CropCopiesWindow : Prop :=
  ∀ s : State, s.tainted = false → clear .crop s = true →
    ∃ (m : Memory) (l : Word) (d : Nat),
      exec .crop s = .next (completed 0x00 false { s with mem := m, dstLen := l, draws := d }) ∧
      (dstBytes .crop s < 2 ^ 32 → l.toNat = dstBytes .crop s ∧ d = s.draws) ∧
      redrawn s s.regs.newWidth.toNat s.regs.newHeight.toNat (fun x y c =>
        if s.regs.height.toNat ≤ s.regs.startY.toNat + y then 0
        else s.byteAt (s.regs.srcBase.toNat
          + ((s.regs.startY.toNat + y) * s.regs.width.toNat + (s.regs.startX.toNat + x)) * 4 + c)) m

/-- 42_geometric.md R209: destination (x, y) takes source (W - 1 - x, y). -/
def Obligations.FlipHMirrorsColumns : Prop :=
  ∀ s : State, s.tainted = false → clear .flipH s = true →
    ∃ m : Memory,
      exec .flipH s = .next (completed 0x00 false { s with mem := m, dstLen := BitVec.ofNat 32 (dstBytes .flipH s) }) ∧
      redrawn s s.regs.width.toNat s.regs.height.toNat (fun x y c =>
        s.byteAt (s.regs.srcBase.toNat + (y * s.regs.width.toNat + (s.regs.width.toNat - 1 - x)) * 4 + c)) m

/-- 42_geometric.md R210: destination row y takes source row H - 1 - y. -/
def Obligations.FlipVMirrorsRows : Prop :=
  ∀ s : State, s.tainted = false → clear .flipV s = true →
    ∃ m : Memory,
      exec .flipV s = .next (completed 0x00 false { s with mem := m, dstLen := BitVec.ofNat 32 (dstBytes .flipV s) }) ∧
      redrawn s s.regs.width.toNat s.regs.height.toNat (fun x y c =>
        s.byteAt (s.regs.srcBase.toNat + ((s.regs.height.toNat - 1 - y) * s.regs.width.toNat + x) * 4 + c)) m

/-- 42_geometric.md R200, R67: in every state, a transform whose checks pass completes, and all it changes beside the
STATUS fields of R263 are bytes of D and DST_LEN (and the model's count of free values). -/
def Obligations.TransformStoresOnlyDestination : Prop :=
  ∀ (i : Instr) (s : State), isTransform i = true → clear i s = true →
    ∃ (m : Memory) (l : Word) (d : Nat),
      exec i s = .next (completed 0x00 false { s with mem := m, dstLen := l, draws := d }) ∧
      (∀ a, ¬ (s.regs.dstBase.toNat ≤ a ∧ a < s.regs.dstBase.toNat + dstBytes i s) → m.byteAt a = s.byteAt a) ∧
      (dstBytes i s < 2 ^ 32 → l.toNat = dstBytes i s)

/-- 42_geometric.md R206, R253: the word 0x0000_0021 is RESIZE_BILINEAR, which completes with `UNIMPLEMENTED` and
changes nothing else, in every state. -/
def Obligations.BilinearCompletesUnimplemented : Prop :=
  decode 0x00000021 = .ok .resizeBilinear ∧
  ∀ s : State, exec .resizeBilinear s = .next (completed 0x02 true s)

/-- 42_geometric.md R211, "Flip involution": the same flip of a flip's destination, written to a third region, gives
the first WIDTH*HEIGHT*4 bytes of the source. -/
def Obligations.FlipTwiceRestores : Prop :=
  ∀ (i : Instr) (s : State) (e : Word), (i = .flipH ∨ i = .flipV) → s.tainted = false → clear i s = true →
    ∃ t, exec i s = .next t ∧
      ∀ t' : State, t' = { t with regs := { t.regs with srcBase := s.regs.dstBase, srcLen := t.dstLen, dstBase := e } } →
        clear i t' = true →
        ∃ u, exec i t' = .next u ∧
          ∀ j, j < dstBytes i s → u.byteAt (e.toNat + j) = s.byteAt (s.regs.srcBase.toNat + j)

/-- 42_geometric.md R211, "Resize identity" and "Crop-full-image identity". -/
def Obligations.FullImageIdentity : Prop :=
  ∀ (i : Instr) (s : State), (i = .resizeNn ∨ (i = .crop ∧ s.regs.startX = 0 ∧ s.regs.startY = 0)) →
    s.regs.newWidth = s.regs.width → s.regs.newHeight = s.regs.height →
    s.regs.srcLen.toNat = s.regs.width.toNat * s.regs.height.toNat * 4 → s.tainted = false → clear i s = true →
    ∃ u, exec i s = .next u ∧
      ∀ j, j < s.regs.srcLen.toNat → u.byteAt (s.regs.dstBase.toNat + j) = s.byteAt (s.regs.srcBase.toNat + j)

/-! ## Errors and completion -/

/-- 60_exceptions.md R251, R253 to R261: the first check of the table's order whose cause holds is the error the
command completes with, and nothing but the STATUS fields of R262 changes; with no cause the command succeeds. -/
def Obligations.LowestFailingCheckIsReported : Prop :=
  ∀ (i : Instr) (s : State),
    (∀ before e after, checks i = before ++ e :: after → (∀ e' ∈ before, cause i s e' = false) → cause i s e = true →
      exec i s = .next (completed (number e) true s)) ∧
    (clear i s = true → ∃ t, exec i s = .next t ∧ t.err = false ∧ t.errCode = 0x00)

/-- 60_exceptions.md R262, R263; 70_reset_and_hazards.md R298: whatever word is latched and whatever the registers and
memory hold, a busy core's turn completes the command, and an error completion changes nothing but the STATUS fields of
R262. -/
def Obligations.EveryCommandCompletes : Prop :=
  ∀ s : State, s.phase = .busy → s.coreToMove = true →
    ∃ t, step s = .next t ∧ t.phase = .idle ∧ t.done = true ∧
      ((t.err = false ∧ t.errCode = 0x00) ∨
        (t.err = true ∧ t.errCode ≠ 0x00 ∧ t = completed t.errCode true s.turnTaken))

/-- 41_color_filters.md R169: no step of any state, reachable or not, ends in the fault NaNChannel. -/
def Obligations.NaNChannelIsUnreachable : Prop :=
  ∀ s : State, s.NoNaN

/-! ## Registers -/

/-- 30_encoding.md R92: a CMD write while IDLE is accepted, with exactly these effects (`tainted` is the model's own
field, assumption log 4); while BUSY it is dropped. Out of reset. -/
def Obligations.CmdWriteIsAcceptedWhileIdle : Prop :=
  ∀ (s : State) (w : Word), s.inReset = false →
    (s.phase = .idle → step (writes 0x0C w s) =
      .next { s with cmd := w, phase := .busy, done := false, err := false, errCode := 0x00, tainted := false }) ∧
    (s.phase = .busy → step (writes 0x0C w s) = .next { s with dropped := true })

/-- 10_state.md R47: what a busy core does with every host write of the window, and its consequence that a running
command's operands keep their values. -/
def Obligations.BusyCoreDropsWrites : Prop :=
  (∀ (s : State) (off : Nat) (v : Word), s.inReset = false → s.phase = .busy → off ∈ droppedOffsets →
    step (writes off v s) = .next { s with dropped := true }) ∧
  (∀ (s : State) (off : Nat) (v : Word), s.inReset = false →
    (off ∈ ignoredOffsets ∨ (0x4C ≤ off ∧ off ≤ 0xFC ∧ off % 4 = 0)) → step (writes off v s) = .next s) ∧
  (∀ (s : State) (off : Nat) (v : Word), s.inReset = false → (off = 0x04 ∨ off = 0x08) →
    ∃ t, step (writes off v s) = .next t ∧ (s.dropped = false → t.dropped = false)) ∧
  ∀ s t : State, s.phase = .busy → step s = .next t → t.phase = .busy →
    t.regs = s.regs ∧ t.prngState = s.prngState ∧ t.cmd = s.cmd

/-- 10_state.md R30 to R44, R50: while idle, a write of a parameter register or of PRNG_STATE changes that register,
which then reads as written, and nothing else. -/
def Obligations.IdleWriteSetsOneRegister : Prop :=
  ∀ (s : State) (r : Reg) (v : Word), s.inReset = false → s.phase = .idle → r.offset ∈ droppedOffsets → r ≠ .cmd →
    ∃ t, step (writes r.offset v s) = .next t ∧ t = { s with regs := t.regs, prngState := t.prngState } ∧
      t.readReg r = v ∧ ∀ q, q ≠ r → t.readReg q = s.readReg q

/-- 10_state.md R22: CTRL is written busy or idle, only bit 0 is kept, and nothing is dropped; a read gives bit 0 and
zeros. -/
def Obligations.CtrlHoldsIrqEnOnly : Prop :=
  ∀ (s : State) (v : Word), s.inReset = false →
    step (writes 0x04 v s) = .next { s with irqEn := v.getLsbD 0 } ∧
    ∃ w : Word, step (reads 0x04 s) = .next (given w s) ∧ w.getLsbD 0 = s.irqEn ∧ w.extractLsb' 1 31 = 0

/-- 10_state.md R24 to R28: a STATUS write clears the flags whose bit is 1 and does nothing else, busy or idle. -/
def Obligations.StatusWriteOneToClear : Prop :=
  ∀ (s : State) (v : Word), s.inReset = false →
    step (writes 0x08 v s) = .next
      { s with done := (if v.getLsbD 1 = true then false else s.done),
               err := (if v.getLsbD 2 = true then false else s.err),
               dropped := (if v.getLsbD 3 = true then false else s.dropped) }

/-- 10_state.md R23 to R28: the fields of the word a STATUS read gives, busy or idle. -/
def Obligations.StatusReadShowsFields : Prop :=
  ∀ s : State, s.inReset = false →
    ∃ w : Word, step (reads 0x08 s) = .next (given w s) ∧ w.getLsbD 0 = decide (s.phase = .busy) ∧
      w.getLsbD 1 = s.done ∧ w.getLsbD 2 = s.err ∧ w.getLsbD 3 = s.dropped ∧ w.extractLsb' 4 4 = 0 ∧
      w.extractLsb' 8 8 = s.errCode ∧ w.extractLsb' 16 16 = 0

/-- 10_state.md R21: ID reads 0x5049_5801, busy or idle, and a write to it is ignored. -/
def Obligations.IdIsConstant : Prop :=
  ∀ (s : State) (v : Word), s.inReset = false →
    step (reads 0x00 s) = .next (given 0x50495801 s) ∧ step (writes 0x00 v s) = .next s

/-- 10_state.md R45: reserved offsets read 0 and ignore writes, busy or idle; an access of another width or at an
unaligned offset is refused. -/
def Obligations.ReservedOffsetsAndRefusedAccesses : Prop :=
  (∀ (s : State) (off : Nat) (v : Word), s.inReset = false → 0x4C ≤ off → off ≤ 0xFC → off % 4 = 0 →
    step (reads off s) = .next (given 0 s) ∧ step (writes off v s) = .next s) ∧
  ∀ (s : State) (off n : Nat) (lanes : List Byte), (off % 4 ≠ 0 ∨ n ≠ 4) → lanes.length = n →
    step (asks (.host (.regRead (s.params.regBase + off) n)) s) = .refused .notRegisterAccess ∧
    step (asks (.host (.regWrite (s.params.regBase + off) lanes)) s) = .refused .notRegisterAccess

/-- 10_state.md R48, R296: while busy DST_LEN, RESULT and PRNG_STATE read as a free draw; in every other case a
register reads as its current value. -/
def Obligations.RegisterReads : Prop :=
  ∀ (s : State) (r : Reg), s.inReset = false →
    (s.phase = .busy → (r = .dstLen ∨ r = .result ∨ r = .prngState) →
      step (reads r.offset s) = .next (given (Config.freeWord s.draws) { s with draws := s.draws + 1 })) ∧
    (¬ (s.phase = .busy ∧ (r = .dstLen ∨ r = .result ∨ r = .prngState)) →
      step (reads r.offset s) = .next (given (s.readReg r) s))

/-- 60_exceptions.md R264, 10_state.md R53: `irq` is IRQ_EN and DONE, and the five events that move it. -/
def Obligations.IrqFollowsDone : Prop :=
  (∀ s : State, s.irq = true ↔ s.irqEn = true ∧ s.done = true) ∧
  (∀ s t : State, s.phase = .busy → s.coreToMove = true → s.irqEn = true → step s = .next t → t.irq = true) ∧
  ∀ (s t : State) (v : Word), s.inReset = false →
    (s.done = true → v.getLsbD 0 = true → step (writes 0x04 v s) = .next t → t.irq = true) ∧
    (v.getLsbD 0 = false → step (writes 0x04 v s) = .next t → t.irq = false) ∧
    (v.getLsbD 1 = true → step (writes 0x08 v s) = .next t → t.irq = false) ∧
    (s.phase = .idle → step (writes 0x0C v s) = .next t → t.irq = false)

/-- 10_state.md R24, R26, 60_exceptions.md R265: a host transaction in the cycle of a completion. A STATUS write that
clears DONE loses to the completion, and a write dropped in that cycle leaves DROPPED at 1. That such a write of that
cycle is dropped and not accepted is the model's choice (assumption log 7). -/
def Obligations.CompletionWinsOverStatusClear : Prop :=
  ∀ (s : State) (off : Nat) (v : Word), s.inReset = false → s.phase = .busy → (off = 0x08 ∨ off ∈ droppedOffsets) →
    ∃ t, step (asks (.hostAtCompletion (.regWrite (s.params.regBase + off) (lanesOfWord v))) s) = .next t ∧
      t.phase = .idle ∧ t.done = true ∧ (off ∈ droppedOffsets → t.dropped = true ∧ t.regs = s.regs ∧ t.cmd = s.cmd)

/-! ## Pixel memory -/

/-- 20_memory.md R60, R71 clause 5: a host write outside the running command's footprint stores the byte and nothing
else, and a host read outside it gives the byte and leaves memory alone. That both hold while reset is asserted too is
the model's deduction (assumption log 22). -/
def Obligations.HostMemoryOutsideFootprint : Prop :=
  ∀ (s : State) (a : Nat) (b : Byte), a < s.params.memBytes → inFootprint s a = false →
    (∃ m : Memory, step (asks (.host (.memWrite a b)) s) = .next { s with mem := m } ∧ m.byteAt a = b ∧
      ∀ c, c ≠ a → m.byteAt c = s.byteAt c) ∧
    step (asks (.host (.memRead a)) s) = .next { s with readData := some (.mem (s.byteAt a)) }

/-- 20_memory.md R60: the pixel memory has no address at or above `MEM_BYTES`. That such an access stops the machine
with the fault `noSuchAddress` is the model's choice (assumption log 9), and that it does so while reset is asserted
too follows from its deduction in log entry 22. -/
def Obligations.AddressesBeyondMemoryFault : Prop :=
  ∀ (s : State) (a : Nat) (b : Byte), s.params.memBytes ≤ a →
    step (asks (.host (.memRead a)) s) = .fault .noSuchAddress ∧
    step (asks (.host (.memWrite a b)) s) = .fault .noSuchAddress

/-- 20_memory.md R67: the footprint of the command in flight; a command that fails has none, and an idle core has
none. -/
def Obligations.FootprintOfRunningCommand : Prop :=
  (∀ (s : State) (i : Instr) (a : Nat), s.phase = .busy → decode s.cmd = .ok i →
    (inFootprint s a = true ↔ clear i s = true ∧ touches i s a)) ∧
  ∀ (s : State) (a : Nat), (s.phase = .idle ∨ CommandWord.wellFormed s.cmd = false) → inFootprint s a = false

/-- 20_memory.md R71 clauses 3 and 4: a host read in the footprint is a free draw; a host write there is stored and
taints the command. That memory holds the host's value from then on is the model's deduction (assumption log 13). The
fields `tainted` and `draws` are the model's own (log entries 2 and 4). -/
def Obligations.HostAccessInsideFootprint : Prop :=
  ∀ (s : State) (a : Nat) (b : Byte), a < s.params.memBytes → inFootprint s a = true →
    step (asks (.host (.memRead a)) s) =
      .next { s with readData := some (.mem (Config.freeByte s.draws a)), draws := s.draws + 1 } ∧
    ∃ m : Memory, step (asks (.host (.memWrite a b)) s) = .next { s with mem := m, tainted := true } ∧
      m.byteAt a = b ∧ ∀ c, c ≠ a → m.byteAt c = s.byteAt c

/-- 20_memory.md R71 clause 4: every byte a command writes after a host write into its footprint is unspecified. That
a byte which both the host and the command write ends as a free draw too, and that no other byte of the footprint
moves, is the model's deduction (assumption log 13); the fields `tainted` and `draws` are the model's own (log entries
4 and 2). -/
def Obligations.TaintedCommandWritesAnyBytes : Prop :=
  ∀ (i : Instr) (s : State), s.tainted = true → clear i s = true →
    ∃ t, exec i s = .next t ∧ ∀ a,
      (stores i s a → ∃ n, s.draws ≤ n ∧ n < t.draws ∧ t.byteAt a = Config.freeByte n a) ∧
      (¬ stores i s a → t.byteAt a = s.byteAt a)

/-! ## Reset -/

/-- 70_reset_and_hazards.md R290, R291: the machine right after reset, with no byte of memory specified. The values of
`inReset`, `tainted`, `draws`, `inbox` and `readData` are the model's own (assumption log 5). -/
def Obligations.ResetStateValues : Prop :=
  State.reset.AtResetValues ∧ State.reset.irq = false ∧ State.reset.statusWord = 0 ∧ State.reset.ctrlWord = 0 ∧
    (∀ a, State.reset.byteAt a = Config.powerOnByte a) ∧ State.reset.inReset = false

/-- 70_reset_and_hazards.md R290, R291: asserting reset, in every state. Memory keeps its bytes but for those the
abandoned command could have written, which become free draws. That for a filter these are all bytes of S (or of
VIGNETTE's prefix), channel 3 included, which no filter writes (R152), is the model's deduction from the words of R291
(assumption log 14). The fields `inReset`, `draws` and `inbox` are the model's own (log entries 5, 2 and 3). -/
def Obligations.AssertResetKeepsMemory : Prop :=
  ∀ s : State, ∃ t, step (asks .assertReset s) = .next t ∧ t.AtResetValues ∧ t.inReset = true ∧
    t.params = s.params ∧ t.inbox = s.inbox ∧
    (s.phase = .idle → t.mem = s.mem) ∧
    (∀ i a, s.phase = .busy → decode s.cmd = .ok i → clear i s = true → abandons i s a →
      ∃ n, s.draws ≤ n ∧ n < t.draws ∧ t.byteAt a = Config.freeByte n a) ∧
    ∀ a, ¬ (s.phase = .busy ∧ ∃ i, decode s.cmd = .ok i ∧ clear i s = true ∧ abandons i s a) →
      t.byteAt a = s.byteAt a

/-- 70_reset_and_hazards.md R290: while reset is asserted register writes have no effect and reads are free draws;
releasing it changes no register. The fields `inReset` and `draws` are the model's own (assumption log 5 and 2). -/
def Obligations.AccessesWhileResetAsserted : Prop :=
  ∀ (s : State) (off : Nat) (v : Word), s.inReset = true → off < 256 → off % 4 = 0 →
    step (writes off v s) = .next s ∧
    step (reads off s) = .next (given (Config.freeWord s.draws) { s with draws := s.draws + 1 }) ∧
    step (asks .releaseReset s) = .next { s with inReset := false }

/-! ## Rules of the whole machine -/

/-- The invariant holds right after reset. -/
def Obligations.InvariantHoldsAtReset : Prop := State.reset.Inv

/-- Every step from a state of the invariant, reachable or not, leads to a state of the invariant (Sys2Proof/Safety.lean
lists the rules its clauses come from). -/
def Obligations.StepKeepsInvariant : Prop :=
  ∀ s t : State, s.Inv → step s = .next t → t.Inv

/-- 10_state.md R46: the only events that change the phase. -/
def Obligations.PhaseChangesOnlyByAcceptCompleteReset : Prop :=
  ∀ s t : State, step s = .next t → t.phase ≠ s.phase →
    (s.phase = .idle ∧ t.phase = .busy ∧ t.done = false ∧ ∃ lanes, wordOfLanes lanes = some t.cmd ∧
      (nextEvent s = .host (.regWrite (s.params.regBase + 0x0C) lanes) ∨
        nextEvent s = .hostAtCompletion (.regWrite (s.params.regBase + 0x0C) lanes))) ∨
    (s.phase = .busy ∧ t.phase = .idle ∧ t.done = true ∧
      (nextEvent s = .core ∨ ∃ x, nextEvent s = .hostAtCompletion x)) ∨
    (s.phase = .busy ∧ t.phase = .idle ∧ t.done = false ∧ nextEvent s = .assertReset)

/-- 10_state.md R26, R47, R52: DROPPED goes to 1 only by a register write while busy, and to 0 only by a STATUS write
with bit 3 set or by reset. -/
def Obligations.DroppedChangesOnlyByHost : Prop :=
  ∀ s t : State, step s = .next t →
    (s.dropped = false → t.dropped = true → s.phase = .busy ∧ ∃ a lanes,
      nextEvent s = .host (.regWrite a lanes) ∨ nextEvent s = .hostAtCompletion (.regWrite a lanes)) ∧
    (s.dropped = true → t.dropped = false → nextEvent s = .assertReset ∨ ∃ lanes v, wordOfLanes lanes = some v ∧
      v.getLsbD 3 = true ∧
      (nextEvent s = .host (.regWrite (s.params.regBase + 0x08) lanes) ∨
        nextEvent s = .hostAtCompletion (.regWrite (s.params.regBase + 0x08) lanes)))

/-- 00_scope.md R8: the chip's parameters are the same in every state of a run. -/
def Obligations.ChipParametersAreFixed : Prop :=
  ∀ s t : State, step s = .next t → t.params = s.params

/-- 30_encoding.md R98: `run MNEMONIC` on an idle core is acceptance, then the command's own effect. -/
def Obligations.RunStatementRunsCommand : Prop :=
  ∀ (s : State) (i : Instr), s.inReset = false → s.phase = .idle →
    ∃ t, step { s with inbox := (HostStmt.run i).events s.params ++ s.inbox } = .next t ∧
      step t = exec i { s with cmd := encode i, phase := .busy, done := false, err := false, errCode := 0x00,
                               tainted := false }
end

