-- ==== Sys2Proof/Laws/State.lean ====
section
/-! SUPPORT. One lemma for each field after each update of the state, so that no proof unfolds a record update. -/

namespace Sys2Proof.Machine

@[simp] theorem State.setByte_params (s : State) (a : Nat) (v : Byte) : (s.setByte a v).params = s.params := rfl
@[simp] theorem State.setByte_irqEn (s : State) (a : Nat) (v : Byte) : (s.setByte a v).irqEn = s.irqEn := rfl
@[simp] theorem State.setByte_phase (s : State) (a : Nat) (v : Byte) : (s.setByte a v).phase = s.phase := rfl
@[simp] theorem State.setByte_done (s : State) (a : Nat) (v : Byte) : (s.setByte a v).done = s.done := rfl
@[simp] theorem State.setByte_err (s : State) (a : Nat) (v : Byte) : (s.setByte a v).err = s.err := rfl
@[simp] theorem State.setByte_dropped (s : State) (a : Nat) (v : Byte) : (s.setByte a v).dropped = s.dropped := rfl
@[simp] theorem State.setByte_errCode (s : State) (a : Nat) (v : Byte) : (s.setByte a v).errCode = s.errCode := rfl
@[simp] theorem State.setByte_cmd (s : State) (a : Nat) (v : Byte) : (s.setByte a v).cmd = s.cmd := rfl
@[simp] theorem State.setByte_regs (s : State) (a : Nat) (v : Byte) : (s.setByte a v).regs = s.regs := rfl
@[simp] theorem State.setByte_dstLen (s : State) (a : Nat) (v : Byte) : (s.setByte a v).dstLen = s.dstLen := rfl
@[simp] theorem State.setByte_result (s : State) (a : Nat) (v : Byte) : (s.setByte a v).result = s.result := rfl
@[simp] theorem State.setByte_prngState (s : State) (a : Nat) (v : Byte) : (s.setByte a v).prngState = s.prngState := rfl
@[simp] theorem State.setByte_mem (s : State) (a : Nat) (v : Byte) : (s.setByte a v).mem = s.mem.set a v := rfl
@[simp] theorem State.setByte_inReset (s : State) (a : Nat) (v : Byte) : (s.setByte a v).inReset = s.inReset := rfl
@[simp] theorem State.setByte_tainted (s : State) (a : Nat) (v : Byte) : (s.setByte a v).tainted = s.tainted := rfl
@[simp] theorem State.setByte_draws (s : State) (a : Nat) (v : Byte) : (s.setByte a v).draws = s.draws := rfl
@[simp] theorem State.setByte_inbox (s : State) (a : Nat) (v : Byte) : (s.setByte a v).inbox = s.inbox := rfl
@[simp] theorem State.setByte_readData (s : State) (a : Nat) (v : Byte) : (s.setByte a v).readData = s.readData := rfl

@[simp] theorem State.forgetByte_params (s : State) (a : Nat) : (s.forgetByte a).params = s.params := rfl
@[simp] theorem State.forgetByte_irqEn (s : State) (a : Nat) : (s.forgetByte a).irqEn = s.irqEn := rfl
@[simp] theorem State.forgetByte_phase (s : State) (a : Nat) : (s.forgetByte a).phase = s.phase := rfl
@[simp] theorem State.forgetByte_done (s : State) (a : Nat) : (s.forgetByte a).done = s.done := rfl
@[simp] theorem State.forgetByte_err (s : State) (a : Nat) : (s.forgetByte a).err = s.err := rfl
@[simp] theorem State.forgetByte_dropped (s : State) (a : Nat) : (s.forgetByte a).dropped = s.dropped := rfl
@[simp] theorem State.forgetByte_errCode (s : State) (a : Nat) : (s.forgetByte a).errCode = s.errCode := rfl
@[simp] theorem State.forgetByte_cmd (s : State) (a : Nat) : (s.forgetByte a).cmd = s.cmd := rfl
@[simp] theorem State.forgetByte_regs (s : State) (a : Nat) : (s.forgetByte a).regs = s.regs := rfl
@[simp] theorem State.forgetByte_dstLen (s : State) (a : Nat) : (s.forgetByte a).dstLen = s.dstLen := rfl
@[simp] theorem State.forgetByte_result (s : State) (a : Nat) : (s.forgetByte a).result = s.result := rfl
@[simp] theorem State.forgetByte_prngState (s : State) (a : Nat) : (s.forgetByte a).prngState = s.prngState := rfl
@[simp] theorem State.forgetByte_mem (s : State) (a : Nat) : (s.forgetByte a).mem = s.mem.set a (Config.freeByte s.draws a) := rfl
@[simp] theorem State.forgetByte_inReset (s : State) (a : Nat) : (s.forgetByte a).inReset = s.inReset := rfl
@[simp] theorem State.forgetByte_tainted (s : State) (a : Nat) : (s.forgetByte a).tainted = s.tainted := rfl
@[simp] theorem State.forgetByte_draws (s : State) (a : Nat) : (s.forgetByte a).draws = s.draws + 1 := rfl
@[simp] theorem State.forgetByte_inbox (s : State) (a : Nat) : (s.forgetByte a).inbox = s.inbox := rfl
@[simp] theorem State.forgetByte_readData (s : State) (a : Nat) : (s.forgetByte a).readData = s.readData := rfl

@[simp] theorem State.accept_params (s : State) (w : Word) : (s.accept w).params = s.params := rfl
@[simp] theorem State.accept_irqEn (s : State) (w : Word) : (s.accept w).irqEn = s.irqEn := rfl
@[simp] theorem State.accept_phase (s : State) (w : Word) : (s.accept w).phase = .busy := rfl
@[simp] theorem State.accept_done (s : State) (w : Word) : (s.accept w).done = false := rfl
@[simp] theorem State.accept_err (s : State) (w : Word) : (s.accept w).err = false := rfl
@[simp] theorem State.accept_dropped (s : State) (w : Word) : (s.accept w).dropped = s.dropped := rfl
@[simp] theorem State.accept_errCode (s : State) (w : Word) : (s.accept w).errCode = 0x00 := rfl
@[simp] theorem State.accept_cmd (s : State) (w : Word) : (s.accept w).cmd = w := rfl
@[simp] theorem State.accept_regs (s : State) (w : Word) : (s.accept w).regs = s.regs := rfl
@[simp] theorem State.accept_dstLen (s : State) (w : Word) : (s.accept w).dstLen = s.dstLen := rfl
@[simp] theorem State.accept_result (s : State) (w : Word) : (s.accept w).result = s.result := rfl
@[simp] theorem State.accept_prngState (s : State) (w : Word) : (s.accept w).prngState = s.prngState := rfl
@[simp] theorem State.accept_mem (s : State) (w : Word) : (s.accept w).mem = s.mem := rfl
@[simp] theorem State.accept_inReset (s : State) (w : Word) : (s.accept w).inReset = s.inReset := rfl
@[simp] theorem State.accept_tainted (s : State) (w : Word) : (s.accept w).tainted = false := rfl
@[simp] theorem State.accept_draws (s : State) (w : Word) : (s.accept w).draws = s.draws := rfl
@[simp] theorem State.accept_inbox (s : State) (w : Word) : (s.accept w).inbox = s.inbox := rfl
@[simp] theorem State.accept_readData (s : State) (w : Word) : (s.accept w).readData = s.readData := rfl

@[simp] theorem State.drawNoise_params (s : State) : s.drawNoise.params = s.params := rfl
@[simp] theorem State.drawNoise_irqEn (s : State) : s.drawNoise.irqEn = s.irqEn := rfl
@[simp] theorem State.drawNoise_phase (s : State) : s.drawNoise.phase = s.phase := rfl
@[simp] theorem State.drawNoise_done (s : State) : s.drawNoise.done = s.done := rfl
@[simp] theorem State.drawNoise_err (s : State) : s.drawNoise.err = s.err := rfl
@[simp] theorem State.drawNoise_dropped (s : State) : s.drawNoise.dropped = s.dropped := rfl
@[simp] theorem State.drawNoise_errCode (s : State) : s.drawNoise.errCode = s.errCode := rfl
@[simp] theorem State.drawNoise_cmd (s : State) : s.drawNoise.cmd = s.cmd := rfl
@[simp] theorem State.drawNoise_regs (s : State) : s.drawNoise.regs = s.regs := rfl
@[simp] theorem State.drawNoise_dstLen (s : State) : s.drawNoise.dstLen = s.dstLen := rfl
@[simp] theorem State.drawNoise_result (s : State) : s.drawNoise.result = s.result := rfl
@[simp] theorem State.drawNoise_prngState (s : State) : s.drawNoise.prngState = advance s.prngState := rfl
@[simp] theorem State.drawNoise_mem (s : State) : s.drawNoise.mem = s.mem := rfl
@[simp] theorem State.drawNoise_inReset (s : State) : s.drawNoise.inReset = s.inReset := rfl
@[simp] theorem State.drawNoise_tainted (s : State) : s.drawNoise.tainted = s.tainted := rfl
@[simp] theorem State.drawNoise_draws (s : State) : s.drawNoise.draws = s.draws := rfl
@[simp] theorem State.drawNoise_inbox (s : State) : s.drawNoise.inbox = s.inbox := rfl
@[simp] theorem State.drawNoise_readData (s : State) : s.drawNoise.readData = s.readData := rfl

@[simp] theorem State.dropWrite_params (s : State) : s.dropWrite.params = s.params := rfl
@[simp] theorem State.dropWrite_irqEn (s : State) : s.dropWrite.irqEn = s.irqEn := rfl
@[simp] theorem State.dropWrite_phase (s : State) : s.dropWrite.phase = s.phase := rfl
@[simp] theorem State.dropWrite_done (s : State) : s.dropWrite.done = s.done := rfl
@[simp] theorem State.dropWrite_err (s : State) : s.dropWrite.err = s.err := rfl
@[simp] theorem State.dropWrite_dropped (s : State) : s.dropWrite.dropped = true := rfl
@[simp] theorem State.dropWrite_errCode (s : State) : s.dropWrite.errCode = s.errCode := rfl
@[simp] theorem State.dropWrite_cmd (s : State) : s.dropWrite.cmd = s.cmd := rfl
@[simp] theorem State.dropWrite_regs (s : State) : s.dropWrite.regs = s.regs := rfl
@[simp] theorem State.dropWrite_dstLen (s : State) : s.dropWrite.dstLen = s.dstLen := rfl
@[simp] theorem State.dropWrite_result (s : State) : s.dropWrite.result = s.result := rfl
@[simp] theorem State.dropWrite_prngState (s : State) : s.dropWrite.prngState = s.prngState := rfl
@[simp] theorem State.dropWrite_mem (s : State) : s.dropWrite.mem = s.mem := rfl
@[simp] theorem State.dropWrite_inReset (s : State) : s.dropWrite.inReset = s.inReset := rfl
@[simp] theorem State.dropWrite_tainted (s : State) : s.dropWrite.tainted = s.tainted := rfl
@[simp] theorem State.dropWrite_draws (s : State) : s.dropWrite.draws = s.draws := rfl
@[simp] theorem State.dropWrite_inbox (s : State) : s.dropWrite.inbox = s.inbox := rfl
@[simp] theorem State.dropWrite_readData (s : State) : s.dropWrite.readData = s.readData := rfl

@[simp] theorem State.writeCtrl_params (s : State) (v : Word) : (s.writeCtrl v).params = s.params := rfl
@[simp] theorem State.writeCtrl_irqEn (s : State) (v : Word) : (s.writeCtrl v).irqEn = v.getLsbD 0 := rfl
@[simp] theorem State.writeCtrl_phase (s : State) (v : Word) : (s.writeCtrl v).phase = s.phase := rfl
@[simp] theorem State.writeCtrl_done (s : State) (v : Word) : (s.writeCtrl v).done = s.done := rfl
@[simp] theorem State.writeCtrl_err (s : State) (v : Word) : (s.writeCtrl v).err = s.err := rfl
@[simp] theorem State.writeCtrl_dropped (s : State) (v : Word) : (s.writeCtrl v).dropped = s.dropped := rfl
@[simp] theorem State.writeCtrl_errCode (s : State) (v : Word) : (s.writeCtrl v).errCode = s.errCode := rfl
@[simp] theorem State.writeCtrl_cmd (s : State) (v : Word) : (s.writeCtrl v).cmd = s.cmd := rfl
@[simp] theorem State.writeCtrl_regs (s : State) (v : Word) : (s.writeCtrl v).regs = s.regs := rfl
@[simp] theorem State.writeCtrl_dstLen (s : State) (v : Word) : (s.writeCtrl v).dstLen = s.dstLen := rfl
@[simp] theorem State.writeCtrl_result (s : State) (v : Word) : (s.writeCtrl v).result = s.result := rfl
@[simp] theorem State.writeCtrl_prngState (s : State) (v : Word) : (s.writeCtrl v).prngState = s.prngState := rfl
@[simp] theorem State.writeCtrl_mem (s : State) (v : Word) : (s.writeCtrl v).mem = s.mem := rfl
@[simp] theorem State.writeCtrl_inReset (s : State) (v : Word) : (s.writeCtrl v).inReset = s.inReset := rfl
@[simp] theorem State.writeCtrl_tainted (s : State) (v : Word) : (s.writeCtrl v).tainted = s.tainted := rfl
@[simp] theorem State.writeCtrl_draws (s : State) (v : Word) : (s.writeCtrl v).draws = s.draws := rfl
@[simp] theorem State.writeCtrl_inbox (s : State) (v : Word) : (s.writeCtrl v).inbox = s.inbox := rfl
@[simp] theorem State.writeCtrl_readData (s : State) (v : Word) : (s.writeCtrl v).readData = s.readData := rfl

@[simp] theorem State.writeStatus_params (s : State) (v : Word) : (s.writeStatus v).params = s.params := rfl
@[simp] theorem State.writeStatus_irqEn (s : State) (v : Word) : (s.writeStatus v).irqEn = s.irqEn := rfl
@[simp] theorem State.writeStatus_phase (s : State) (v : Word) : (s.writeStatus v).phase = s.phase := rfl
@[simp] theorem State.writeStatus_done (s : State) (v : Word) : (s.writeStatus v).done = (s.done && !v.getLsbD 1) := rfl
@[simp] theorem State.writeStatus_err (s : State) (v : Word) : (s.writeStatus v).err = (s.err && !v.getLsbD 2) := rfl
@[simp] theorem State.writeStatus_dropped (s : State) (v : Word) : (s.writeStatus v).dropped = (s.dropped && !v.getLsbD 3) := rfl
@[simp] theorem State.writeStatus_errCode (s : State) (v : Word) : (s.writeStatus v).errCode = s.errCode := rfl
@[simp] theorem State.writeStatus_cmd (s : State) (v : Word) : (s.writeStatus v).cmd = s.cmd := rfl
@[simp] theorem State.writeStatus_regs (s : State) (v : Word) : (s.writeStatus v).regs = s.regs := rfl
@[simp] theorem State.writeStatus_dstLen (s : State) (v : Word) : (s.writeStatus v).dstLen = s.dstLen := rfl
@[simp] theorem State.writeStatus_result (s : State) (v : Word) : (s.writeStatus v).result = s.result := rfl
@[simp] theorem State.writeStatus_prngState (s : State) (v : Word) : (s.writeStatus v).prngState = s.prngState := rfl
@[simp] theorem State.writeStatus_mem (s : State) (v : Word) : (s.writeStatus v).mem = s.mem := rfl
@[simp] theorem State.writeStatus_inReset (s : State) (v : Word) : (s.writeStatus v).inReset = s.inReset := rfl
@[simp] theorem State.writeStatus_tainted (s : State) (v : Word) : (s.writeStatus v).tainted = s.tainted := rfl
@[simp] theorem State.writeStatus_draws (s : State) (v : Word) : (s.writeStatus v).draws = s.draws := rfl
@[simp] theorem State.writeStatus_inbox (s : State) (v : Word) : (s.writeStatus v).inbox = s.inbox := rfl
@[simp] theorem State.writeStatus_readData (s : State) (v : Word) : (s.writeStatus v).readData = s.readData := rfl

@[simp] theorem State.answerWord_params (s : State) (w : Word) : (s.answerWord w).params = s.params := rfl
@[simp] theorem State.answerWord_irqEn (s : State) (w : Word) : (s.answerWord w).irqEn = s.irqEn := rfl
@[simp] theorem State.answerWord_phase (s : State) (w : Word) : (s.answerWord w).phase = s.phase := rfl
@[simp] theorem State.answerWord_done (s : State) (w : Word) : (s.answerWord w).done = s.done := rfl
@[simp] theorem State.answerWord_err (s : State) (w : Word) : (s.answerWord w).err = s.err := rfl
@[simp] theorem State.answerWord_dropped (s : State) (w : Word) : (s.answerWord w).dropped = s.dropped := rfl
@[simp] theorem State.answerWord_errCode (s : State) (w : Word) : (s.answerWord w).errCode = s.errCode := rfl
@[simp] theorem State.answerWord_cmd (s : State) (w : Word) : (s.answerWord w).cmd = s.cmd := rfl
@[simp] theorem State.answerWord_regs (s : State) (w : Word) : (s.answerWord w).regs = s.regs := rfl
@[simp] theorem State.answerWord_dstLen (s : State) (w : Word) : (s.answerWord w).dstLen = s.dstLen := rfl
@[simp] theorem State.answerWord_result (s : State) (w : Word) : (s.answerWord w).result = s.result := rfl
@[simp] theorem State.answerWord_prngState (s : State) (w : Word) : (s.answerWord w).prngState = s.prngState := rfl
@[simp] theorem State.answerWord_mem (s : State) (w : Word) : (s.answerWord w).mem = s.mem := rfl
@[simp] theorem State.answerWord_inReset (s : State) (w : Word) : (s.answerWord w).inReset = s.inReset := rfl
@[simp] theorem State.answerWord_tainted (s : State) (w : Word) : (s.answerWord w).tainted = s.tainted := rfl
@[simp] theorem State.answerWord_draws (s : State) (w : Word) : (s.answerWord w).draws = s.draws := rfl
@[simp] theorem State.answerWord_inbox (s : State) (w : Word) : (s.answerWord w).inbox = s.inbox := rfl
@[simp] theorem State.answerWord_readData (s : State) (w : Word) : (s.answerWord w).readData = some (.reg (lanesOfWord w)) := rfl

@[simp] theorem State.answerFreeWord_params (s : State) : s.answerFreeWord.params = s.params := rfl
@[simp] theorem State.answerFreeWord_irqEn (s : State) : s.answerFreeWord.irqEn = s.irqEn := rfl
@[simp] theorem State.answerFreeWord_phase (s : State) : s.answerFreeWord.phase = s.phase := rfl
@[simp] theorem State.answerFreeWord_done (s : State) : s.answerFreeWord.done = s.done := rfl
@[simp] theorem State.answerFreeWord_err (s : State) : s.answerFreeWord.err = s.err := rfl
@[simp] theorem State.answerFreeWord_dropped (s : State) : s.answerFreeWord.dropped = s.dropped := rfl
@[simp] theorem State.answerFreeWord_errCode (s : State) : s.answerFreeWord.errCode = s.errCode := rfl
@[simp] theorem State.answerFreeWord_cmd (s : State) : s.answerFreeWord.cmd = s.cmd := rfl
@[simp] theorem State.answerFreeWord_regs (s : State) : s.answerFreeWord.regs = s.regs := rfl
@[simp] theorem State.answerFreeWord_dstLen (s : State) : s.answerFreeWord.dstLen = s.dstLen := rfl
@[simp] theorem State.answerFreeWord_result (s : State) : s.answerFreeWord.result = s.result := rfl
@[simp] theorem State.answerFreeWord_prngState (s : State) : s.answerFreeWord.prngState = s.prngState := rfl
@[simp] theorem State.answerFreeWord_mem (s : State) : s.answerFreeWord.mem = s.mem := rfl
@[simp] theorem State.answerFreeWord_inReset (s : State) : s.answerFreeWord.inReset = s.inReset := rfl
@[simp] theorem State.answerFreeWord_tainted (s : State) : s.answerFreeWord.tainted = s.tainted := rfl
@[simp] theorem State.answerFreeWord_draws (s : State) : s.answerFreeWord.draws = s.draws + 1 := rfl
@[simp] theorem State.answerFreeWord_inbox (s : State) : s.answerFreeWord.inbox = s.inbox := rfl
@[simp] theorem State.answerFreeWord_readData (s : State) : s.answerFreeWord.readData = some (.reg (lanesOfWord (Config.freeWord s.draws))) := rfl

@[simp] theorem State.turnTaken_params (s : State) : s.turnTaken.params = s.params := rfl
@[simp] theorem State.turnTaken_irqEn (s : State) : s.turnTaken.irqEn = s.irqEn := rfl
@[simp] theorem State.turnTaken_phase (s : State) : s.turnTaken.phase = s.phase := rfl
@[simp] theorem State.turnTaken_done (s : State) : s.turnTaken.done = s.done := rfl
@[simp] theorem State.turnTaken_err (s : State) : s.turnTaken.err = s.err := rfl
@[simp] theorem State.turnTaken_dropped (s : State) : s.turnTaken.dropped = s.dropped := rfl
@[simp] theorem State.turnTaken_errCode (s : State) : s.turnTaken.errCode = s.errCode := rfl
@[simp] theorem State.turnTaken_cmd (s : State) : s.turnTaken.cmd = s.cmd := rfl
@[simp] theorem State.turnTaken_regs (s : State) : s.turnTaken.regs = s.regs := rfl
@[simp] theorem State.turnTaken_dstLen (s : State) : s.turnTaken.dstLen = s.dstLen := rfl
@[simp] theorem State.turnTaken_result (s : State) : s.turnTaken.result = s.result := rfl
@[simp] theorem State.turnTaken_prngState (s : State) : s.turnTaken.prngState = s.prngState := rfl
@[simp] theorem State.turnTaken_mem (s : State) : s.turnTaken.mem = s.mem := rfl
@[simp] theorem State.turnTaken_inReset (s : State) : s.turnTaken.inReset = s.inReset := rfl
@[simp] theorem State.turnTaken_tainted (s : State) : s.turnTaken.tainted = s.tainted := rfl
@[simp] theorem State.turnTaken_draws (s : State) : s.turnTaken.draws = s.draws := rfl
@[simp] theorem State.turnTaken_inbox (s : State) : s.turnTaken.inbox = s.inbox.tail := rfl
@[simp] theorem State.turnTaken_readData (s : State) : s.turnTaken.readData = s.readData := rfl

@[simp] theorem raiseError_params (s : State) (e : CmdError) : (raiseError e s).params = s.params := rfl
@[simp] theorem raiseError_irqEn (s : State) (e : CmdError) : (raiseError e s).irqEn = s.irqEn := rfl
@[simp] theorem raiseError_phase (s : State) (e : CmdError) : (raiseError e s).phase = .idle := rfl
@[simp] theorem raiseError_done (s : State) (e : CmdError) : (raiseError e s).done = true := rfl
@[simp] theorem raiseError_err (s : State) (e : CmdError) : (raiseError e s).err = true := rfl
@[simp] theorem raiseError_dropped (s : State) (e : CmdError) : (raiseError e s).dropped = s.dropped := rfl
@[simp] theorem raiseError_errCode (s : State) (e : CmdError) : (raiseError e s).errCode = e.code := rfl
@[simp] theorem raiseError_cmd (s : State) (e : CmdError) : (raiseError e s).cmd = s.cmd := rfl
@[simp] theorem raiseError_regs (s : State) (e : CmdError) : (raiseError e s).regs = s.regs := rfl
@[simp] theorem raiseError_dstLen (s : State) (e : CmdError) : (raiseError e s).dstLen = s.dstLen := rfl
@[simp] theorem raiseError_result (s : State) (e : CmdError) : (raiseError e s).result = s.result := rfl
@[simp] theorem raiseError_prngState (s : State) (e : CmdError) : (raiseError e s).prngState = s.prngState := rfl
@[simp] theorem raiseError_mem (s : State) (e : CmdError) : (raiseError e s).mem = s.mem := rfl
@[simp] theorem raiseError_inReset (s : State) (e : CmdError) : (raiseError e s).inReset = s.inReset := rfl
@[simp] theorem raiseError_tainted (s : State) (e : CmdError) : (raiseError e s).tainted = false := rfl
@[simp] theorem raiseError_draws (s : State) (e : CmdError) : (raiseError e s).draws = s.draws := rfl
@[simp] theorem raiseError_inbox (s : State) (e : CmdError) : (raiseError e s).inbox = s.inbox := rfl
@[simp] theorem raiseError_readData (s : State) (e : CmdError) : (raiseError e s).readData = s.readData := rfl

@[simp] theorem completeOk_params (s : State) : (completeOk s).params = s.params := rfl
@[simp] theorem completeOk_irqEn (s : State) : (completeOk s).irqEn = s.irqEn := rfl
@[simp] theorem completeOk_phase (s : State) : (completeOk s).phase = .idle := rfl
@[simp] theorem completeOk_done (s : State) : (completeOk s).done = true := rfl
@[simp] theorem completeOk_err (s : State) : (completeOk s).err = false := rfl
@[simp] theorem completeOk_dropped (s : State) : (completeOk s).dropped = s.dropped := rfl
@[simp] theorem completeOk_errCode (s : State) : (completeOk s).errCode = 0x00 := rfl
@[simp] theorem completeOk_cmd (s : State) : (completeOk s).cmd = s.cmd := rfl
@[simp] theorem completeOk_regs (s : State) : (completeOk s).regs = s.regs := rfl
@[simp] theorem completeOk_dstLen (s : State) : (completeOk s).dstLen = s.dstLen := rfl
@[simp] theorem completeOk_result (s : State) : (completeOk s).result = s.result := rfl
@[simp] theorem completeOk_prngState (s : State) : (completeOk s).prngState = s.prngState := rfl
@[simp] theorem completeOk_mem (s : State) : (completeOk s).mem = s.mem := rfl
@[simp] theorem completeOk_inReset (s : State) : (completeOk s).inReset = s.inReset := rfl
@[simp] theorem completeOk_tainted (s : State) : (completeOk s).tainted = false := rfl
@[simp] theorem completeOk_draws (s : State) : (completeOk s).draws = s.draws := rfl
@[simp] theorem completeOk_inbox (s : State) : (completeOk s).inbox = s.inbox := rfl
@[simp] theorem completeOk_readData (s : State) : (completeOk s).readData = s.readData := rfl

@[simp] theorem releaseReset_params (s : State) : (releaseReset s).params = s.params := rfl
@[simp] theorem releaseReset_irqEn (s : State) : (releaseReset s).irqEn = s.irqEn := rfl
@[simp] theorem releaseReset_phase (s : State) : (releaseReset s).phase = s.phase := rfl
@[simp] theorem releaseReset_done (s : State) : (releaseReset s).done = s.done := rfl
@[simp] theorem releaseReset_err (s : State) : (releaseReset s).err = s.err := rfl
@[simp] theorem releaseReset_dropped (s : State) : (releaseReset s).dropped = s.dropped := rfl
@[simp] theorem releaseReset_errCode (s : State) : (releaseReset s).errCode = s.errCode := rfl
@[simp] theorem releaseReset_cmd (s : State) : (releaseReset s).cmd = s.cmd := rfl
@[simp] theorem releaseReset_regs (s : State) : (releaseReset s).regs = s.regs := rfl
@[simp] theorem releaseReset_dstLen (s : State) : (releaseReset s).dstLen = s.dstLen := rfl
@[simp] theorem releaseReset_result (s : State) : (releaseReset s).result = s.result := rfl
@[simp] theorem releaseReset_prngState (s : State) : (releaseReset s).prngState = s.prngState := rfl
@[simp] theorem releaseReset_mem (s : State) : (releaseReset s).mem = s.mem := rfl
@[simp] theorem releaseReset_inReset (s : State) : (releaseReset s).inReset = false := rfl
@[simp] theorem releaseReset_tainted (s : State) : (releaseReset s).tainted = s.tainted := rfl
@[simp] theorem releaseReset_draws (s : State) : (releaseReset s).draws = s.draws := rfl
@[simp] theorem releaseReset_inbox (s : State) : (releaseReset s).inbox = s.inbox := rfl
@[simp] theorem releaseReset_readData (s : State) : (releaseReset s).readData = s.readData := rfl

@[simp] theorem State.storeByte_params (s : State) (a : Nat) (v : Byte) : (s.storeByte a v).params = s.params := by
  unfold State.storeByte; split <;> rfl
@[simp] theorem State.storeByte_irqEn (s : State) (a : Nat) (v : Byte) : (s.storeByte a v).irqEn = s.irqEn := by
  unfold State.storeByte; split <;> rfl
@[simp] theorem State.storeByte_phase (s : State) (a : Nat) (v : Byte) : (s.storeByte a v).phase = s.phase := by
  unfold State.storeByte; split <;> rfl
@[simp] theorem State.storeByte_done (s : State) (a : Nat) (v : Byte) : (s.storeByte a v).done = s.done := by
  unfold State.storeByte; split <;> rfl
@[simp] theorem State.storeByte_err (s : State) (a : Nat) (v : Byte) : (s.storeByte a v).err = s.err := by
  unfold State.storeByte; split <;> rfl
@[simp] theorem State.storeByte_dropped (s : State) (a : Nat) (v : Byte) : (s.storeByte a v).dropped = s.dropped := by
  unfold State.storeByte; split <;> rfl
@[simp] theorem State.storeByte_errCode (s : State) (a : Nat) (v : Byte) : (s.storeByte a v).errCode = s.errCode := by
  unfold State.storeByte; split <;> rfl
@[simp] theorem State.storeByte_cmd (s : State) (a : Nat) (v : Byte) : (s.storeByte a v).cmd = s.cmd := by
  unfold State.storeByte; split <;> rfl
@[simp] theorem State.storeByte_regs (s : State) (a : Nat) (v : Byte) : (s.storeByte a v).regs = s.regs := by
  unfold State.storeByte; split <;> rfl
@[simp] theorem State.storeByte_dstLen (s : State) (a : Nat) (v : Byte) : (s.storeByte a v).dstLen = s.dstLen := by
  unfold State.storeByte; split <;> rfl
@[simp] theorem State.storeByte_result (s : State) (a : Nat) (v : Byte) : (s.storeByte a v).result = s.result := by
  unfold State.storeByte; split <;> rfl
@[simp] theorem State.storeByte_prngState (s : State) (a : Nat) (v : Byte) : (s.storeByte a v).prngState = s.prngState := by
  unfold State.storeByte; split <;> rfl
@[simp] theorem State.storeByte_inReset (s : State) (a : Nat) (v : Byte) : (s.storeByte a v).inReset = s.inReset := by
  unfold State.storeByte; split <;> rfl
@[simp] theorem State.storeByte_tainted (s : State) (a : Nat) (v : Byte) : (s.storeByte a v).tainted = s.tainted := by
  unfold State.storeByte; split <;> rfl
@[simp] theorem State.storeByte_inbox (s : State) (a : Nat) (v : Byte) : (s.storeByte a v).inbox = s.inbox := by
  unfold State.storeByte; split <;> rfl
@[simp] theorem State.storeByte_readData (s : State) (a : Nat) (v : Byte) : (s.storeByte a v).readData = s.readData := by
  unfold State.storeByte; split <;> rfl

@[simp] theorem State.storeColour_params (s : State) (a : Nat) (r g b : Byte) : (s.storeColour a r g b).params = s.params := by
  simp [State.storeColour]
@[simp] theorem State.storeColour_irqEn (s : State) (a : Nat) (r g b : Byte) : (s.storeColour a r g b).irqEn = s.irqEn := by
  simp [State.storeColour]
@[simp] theorem State.storeColour_phase (s : State) (a : Nat) (r g b : Byte) : (s.storeColour a r g b).phase = s.phase := by
  simp [State.storeColour]
@[simp] theorem State.storeColour_done (s : State) (a : Nat) (r g b : Byte) : (s.storeColour a r g b).done = s.done := by
  simp [State.storeColour]
@[simp] theorem State.storeColour_err (s : State) (a : Nat) (r g b : Byte) : (s.storeColour a r g b).err = s.err := by
  simp [State.storeColour]
@[simp] theorem State.storeColour_dropped (s : State) (a : Nat) (r g b : Byte) : (s.storeColour a r g b).dropped = s.dropped := by
  simp [State.storeColour]
@[simp] theorem State.storeColour_errCode (s : State) (a : Nat) (r g b : Byte) : (s.storeColour a r g b).errCode = s.errCode := by
  simp [State.storeColour]
@[simp] theorem State.storeColour_cmd (s : State) (a : Nat) (r g b : Byte) : (s.storeColour a r g b).cmd = s.cmd := by
  simp [State.storeColour]
@[simp] theorem State.storeColour_regs (s : State) (a : Nat) (r g b : Byte) : (s.storeColour a r g b).regs = s.regs := by
  simp [State.storeColour]
@[simp] theorem State.storeColour_dstLen (s : State) (a : Nat) (r g b : Byte) : (s.storeColour a r g b).dstLen = s.dstLen := by
  simp [State.storeColour]
@[simp] theorem State.storeColour_result (s : State) (a : Nat) (r g b : Byte) : (s.storeColour a r g b).result = s.result := by
  simp [State.storeColour]
@[simp] theorem State.storeColour_prngState (s : State) (a : Nat) (r g b : Byte) : (s.storeColour a r g b).prngState = s.prngState := by
  simp [State.storeColour]
@[simp] theorem State.storeColour_inReset (s : State) (a : Nat) (r g b : Byte) : (s.storeColour a r g b).inReset = s.inReset := by
  simp [State.storeColour]
@[simp] theorem State.storeColour_tainted (s : State) (a : Nat) (r g b : Byte) : (s.storeColour a r g b).tainted = s.tainted := by
  simp [State.storeColour]
@[simp] theorem State.storeColour_inbox (s : State) (a : Nat) (r g b : Byte) : (s.storeColour a r g b).inbox = s.inbox := by
  simp [State.storeColour]
@[simp] theorem State.storeColour_readData (s : State) (a : Nat) (r g b : Byte) : (s.storeColour a r g b).readData = s.readData := by
  simp [State.storeColour]

@[simp] theorem State.storePixel_params (s : State) (a : Nat) (c0 c1 c2 c3 : Byte) : (s.storePixel a c0 c1 c2 c3).params = s.params := by
  simp [State.storePixel]
@[simp] theorem State.storePixel_irqEn (s : State) (a : Nat) (c0 c1 c2 c3 : Byte) : (s.storePixel a c0 c1 c2 c3).irqEn = s.irqEn := by
  simp [State.storePixel]
@[simp] theorem State.storePixel_phase (s : State) (a : Nat) (c0 c1 c2 c3 : Byte) : (s.storePixel a c0 c1 c2 c3).phase = s.phase := by
  simp [State.storePixel]
@[simp] theorem State.storePixel_done (s : State) (a : Nat) (c0 c1 c2 c3 : Byte) : (s.storePixel a c0 c1 c2 c3).done = s.done := by
  simp [State.storePixel]
@[simp] theorem State.storePixel_err (s : State) (a : Nat) (c0 c1 c2 c3 : Byte) : (s.storePixel a c0 c1 c2 c3).err = s.err := by
  simp [State.storePixel]
@[simp] theorem State.storePixel_dropped (s : State) (a : Nat) (c0 c1 c2 c3 : Byte) : (s.storePixel a c0 c1 c2 c3).dropped = s.dropped := by
  simp [State.storePixel]
@[simp] theorem State.storePixel_errCode (s : State) (a : Nat) (c0 c1 c2 c3 : Byte) : (s.storePixel a c0 c1 c2 c3).errCode = s.errCode := by
  simp [State.storePixel]
@[simp] theorem State.storePixel_cmd (s : State) (a : Nat) (c0 c1 c2 c3 : Byte) : (s.storePixel a c0 c1 c2 c3).cmd = s.cmd := by
  simp [State.storePixel]
@[simp] theorem State.storePixel_regs (s : State) (a : Nat) (c0 c1 c2 c3 : Byte) : (s.storePixel a c0 c1 c2 c3).regs = s.regs := by
  simp [State.storePixel]
@[simp] theorem State.storePixel_dstLen (s : State) (a : Nat) (c0 c1 c2 c3 : Byte) : (s.storePixel a c0 c1 c2 c3).dstLen = s.dstLen := by
  simp [State.storePixel]
@[simp] theorem State.storePixel_result (s : State) (a : Nat) (c0 c1 c2 c3 : Byte) : (s.storePixel a c0 c1 c2 c3).result = s.result := by
  simp [State.storePixel]
@[simp] theorem State.storePixel_prngState (s : State) (a : Nat) (c0 c1 c2 c3 : Byte) : (s.storePixel a c0 c1 c2 c3).prngState = s.prngState := by
  simp [State.storePixel]
@[simp] theorem State.storePixel_inReset (s : State) (a : Nat) (c0 c1 c2 c3 : Byte) : (s.storePixel a c0 c1 c2 c3).inReset = s.inReset := by
  simp [State.storePixel]
@[simp] theorem State.storePixel_tainted (s : State) (a : Nat) (c0 c1 c2 c3 : Byte) : (s.storePixel a c0 c1 c2 c3).tainted = s.tainted := by
  simp [State.storePixel]
@[simp] theorem State.storePixel_inbox (s : State) (a : Nat) (c0 c1 c2 c3 : Byte) : (s.storePixel a c0 c1 c2 c3).inbox = s.inbox := by
  simp [State.storePixel]
@[simp] theorem State.storePixel_readData (s : State) (a : Nat) (c0 c1 c2 c3 : Byte) : (s.storePixel a c0 c1 c2 c3).readData = s.readData := by
  simp [State.storePixel]

@[simp] theorem State.setDstLen_params (s : State) (n : Nat) : (s.setDstLen n).params = s.params := by
  unfold State.setDstLen; split <;> rfl
@[simp] theorem State.setDstLen_irqEn (s : State) (n : Nat) : (s.setDstLen n).irqEn = s.irqEn := by
  unfold State.setDstLen; split <;> rfl
@[simp] theorem State.setDstLen_phase (s : State) (n : Nat) : (s.setDstLen n).phase = s.phase := by
  unfold State.setDstLen; split <;> rfl
@[simp] theorem State.setDstLen_done (s : State) (n : Nat) : (s.setDstLen n).done = s.done := by
  unfold State.setDstLen; split <;> rfl
@[simp] theorem State.setDstLen_err (s : State) (n : Nat) : (s.setDstLen n).err = s.err := by
  unfold State.setDstLen; split <;> rfl
@[simp] theorem State.setDstLen_dropped (s : State) (n : Nat) : (s.setDstLen n).dropped = s.dropped := by
  unfold State.setDstLen; split <;> rfl
@[simp] theorem State.setDstLen_errCode (s : State) (n : Nat) : (s.setDstLen n).errCode = s.errCode := by
  unfold State.setDstLen; split <;> rfl
@[simp] theorem State.setDstLen_cmd (s : State) (n : Nat) : (s.setDstLen n).cmd = s.cmd := by
  unfold State.setDstLen; split <;> rfl
@[simp] theorem State.setDstLen_regs (s : State) (n : Nat) : (s.setDstLen n).regs = s.regs := by
  unfold State.setDstLen; split <;> rfl
@[simp] theorem State.setDstLen_result (s : State) (n : Nat) : (s.setDstLen n).result = s.result := by
  unfold State.setDstLen; split <;> rfl
@[simp] theorem State.setDstLen_prngState (s : State) (n : Nat) : (s.setDstLen n).prngState = s.prngState := by
  unfold State.setDstLen; split <;> rfl
@[simp] theorem State.setDstLen_mem (s : State) (n : Nat) : (s.setDstLen n).mem = s.mem := by
  unfold State.setDstLen; split <;> rfl
@[simp] theorem State.setDstLen_inReset (s : State) (n : Nat) : (s.setDstLen n).inReset = s.inReset := by
  unfold State.setDstLen; split <;> rfl
@[simp] theorem State.setDstLen_tainted (s : State) (n : Nat) : (s.setDstLen n).tainted = s.tainted := by
  unfold State.setDstLen; split <;> rfl
@[simp] theorem State.setDstLen_inbox (s : State) (n : Nat) : (s.setDstLen n).inbox = s.inbox := by
  unfold State.setDstLen; split <;> rfl
@[simp] theorem State.setDstLen_readData (s : State) (n : Nat) : (s.setDstLen n).readData = s.readData := by
  unfold State.setDstLen; split <;> rfl

@[simp] theorem State.forgetBytes_params (s : State) (a n : Nat) : (s.forgetBytes a n).params = s.params := by
  induction n generalizing s a with
  | zero => rfl
  | succ n ih => rw [State.forgetBytes, ih, State.forgetByte_params]
@[simp] theorem State.forgetBytes_irqEn (s : State) (a n : Nat) : (s.forgetBytes a n).irqEn = s.irqEn := by
  induction n generalizing s a with
  | zero => rfl
  | succ n ih => rw [State.forgetBytes, ih, State.forgetByte_irqEn]
@[simp] theorem State.forgetBytes_phase (s : State) (a n : Nat) : (s.forgetBytes a n).phase = s.phase := by
  induction n generalizing s a with
  | zero => rfl
  | succ n ih => rw [State.forgetBytes, ih, State.forgetByte_phase]
@[simp] theorem State.forgetBytes_done (s : State) (a n : Nat) : (s.forgetBytes a n).done = s.done := by
  induction n generalizing s a with
  | zero => rfl
  | succ n ih => rw [State.forgetBytes, ih, State.forgetByte_done]
@[simp] theorem State.forgetBytes_err (s : State) (a n : Nat) : (s.forgetBytes a n).err = s.err := by
  induction n generalizing s a with
  | zero => rfl
  | succ n ih => rw [State.forgetBytes, ih, State.forgetByte_err]
@[simp] theorem State.forgetBytes_dropped (s : State) (a n : Nat) : (s.forgetBytes a n).dropped = s.dropped := by
  induction n generalizing s a with
  | zero => rfl
  | succ n ih => rw [State.forgetBytes, ih, State.forgetByte_dropped]
@[simp] theorem State.forgetBytes_errCode (s : State) (a n : Nat) : (s.forgetBytes a n).errCode = s.errCode := by
  induction n generalizing s a with
  | zero => rfl
  | succ n ih => rw [State.forgetBytes, ih, State.forgetByte_errCode]
@[simp] theorem State.forgetBytes_cmd (s : State) (a n : Nat) : (s.forgetBytes a n).cmd = s.cmd := by
  induction n generalizing s a with
  | zero => rfl
  | succ n ih => rw [State.forgetBytes, ih, State.forgetByte_cmd]
@[simp] theorem State.forgetBytes_regs (s : State) (a n : Nat) : (s.forgetBytes a n).regs = s.regs := by
  induction n generalizing s a with
  | zero => rfl
  | succ n ih => rw [State.forgetBytes, ih, State.forgetByte_regs]
@[simp] theorem State.forgetBytes_dstLen (s : State) (a n : Nat) : (s.forgetBytes a n).dstLen = s.dstLen := by
  induction n generalizing s a with
  | zero => rfl
  | succ n ih => rw [State.forgetBytes, ih, State.forgetByte_dstLen]
@[simp] theorem State.forgetBytes_result (s : State) (a n : Nat) : (s.forgetBytes a n).result = s.result := by
  induction n generalizing s a with
  | zero => rfl
  | succ n ih => rw [State.forgetBytes, ih, State.forgetByte_result]
@[simp] theorem State.forgetBytes_prngState (s : State) (a n : Nat) : (s.forgetBytes a n).prngState = s.prngState := by
  induction n generalizing s a with
  | zero => rfl
  | succ n ih => rw [State.forgetBytes, ih, State.forgetByte_prngState]
@[simp] theorem State.forgetBytes_inReset (s : State) (a n : Nat) : (s.forgetBytes a n).inReset = s.inReset := by
  induction n generalizing s a with
  | zero => rfl
  | succ n ih => rw [State.forgetBytes, ih, State.forgetByte_inReset]
@[simp] theorem State.forgetBytes_tainted (s : State) (a n : Nat) : (s.forgetBytes a n).tainted = s.tainted := by
  induction n generalizing s a with
  | zero => rfl
  | succ n ih => rw [State.forgetBytes, ih, State.forgetByte_tainted]
@[simp] theorem State.forgetBytes_inbox (s : State) (a n : Nat) : (s.forgetBytes a n).inbox = s.inbox := by
  induction n generalizing s a with
  | zero => rfl
  | succ n ih => rw [State.forgetBytes, ih, State.forgetByte_inbox]
@[simp] theorem State.forgetBytes_readData (s : State) (a n : Nat) : (s.forgetBytes a n).readData = s.readData := by
  induction n generalizing s a with
  | zero => rfl
  | succ n ih => rw [State.forgetBytes, ih, State.forgetByte_readData]

/-- A core's store changes memory and takes draws; nothing else. -/
theorem State.storeByte_eq (s : State) (a : Nat) (v : Byte) :
    s.storeByte a v = { s with mem := (s.storeByte a v).mem, draws := (s.storeByte a v).draws } := by
  unfold State.storeByte; split <;> rfl

/-- Outside a tainted command a store is the byte itself. -/
theorem State.storeByte_untainted {s : State} (h : s.tainted = false) (a : Nat) (v : Byte) :
    s.storeByte a v = s.setByte a v := by
  simp [State.storeByte, h]

theorem State.storeByte_mem (s : State) (a : Nat) (v : Byte) :
    (s.storeByte a v).mem = s.mem.set a (if s.tainted then Config.freeByte s.draws a else v) := by
  unfold State.storeByte
  split <;> simp

theorem State.forgetBytes_succ (s : State) (a n : Nat) :
    s.forgetBytes a (n + 1) = (s.forgetByte a).forgetBytes (a + 1) n := rfl

end Sys2Proof.Machine
end

