-- ==== Sys2Proof/Laws/Checks.lean ====
section
/-! SUPPORT. When a command's checks pass (60_exceptions.md R251 to R261), and what the regions they admit satisfy
(20_memory.md R66, R68). -/

namespace Sys2Proof.Machine

theorem failIf_eq_none {c : Bool} {e : CmdError} : failIf c e = none ↔ c = false := by
  cases c <;> simp [failIf]

theorem failIf_true (e : CmdError) : failIf true e = some e := rfl
theorem failIf_false (e : CmdError) : failIf false e = none := rfl

theorem firstError_cons_none {rest : List (Option CmdError)} : firstError (none :: rest) = firstError rest := rfl

theorem firstError_eq_none {l : List (Option CmdError)} : firstError l = none ↔ ∀ c ∈ l, c = none := by
  induction l with
  | nil => simp [firstError]
  | cons c rest ih => cases c <;> simp [firstError, ih]

/-- S is aligned in length and lies inside the pixel memory: LEN_ALIGN and SRC_RANGE pass (R254, R255). -/
def SourceOk (s : State) : Prop :=
  s.regs.srcLen.toNat % 4 = 0 ∧ s.regs.srcBase.toNat + s.regs.srcLen.toNat ≤ s.params.memBytes

/-- D lies inside the pixel memory and shares no byte with S: DST_RANGE and OVERLAP pass (R260, R261). -/
def DestinationOk (s : State) (d : Region) : Prop :=
  d.base + d.len ≤ s.params.memBytes ∧
  (s.regs.srcLen.toNat = 0 ∨ d.len = 0 ∨ d.base + d.len ≤ s.regs.srcBase.toNat ∨
    s.regs.srcBase.toNat + s.regs.srcLen.toNat ≤ d.base)

theorem checkLenAlign_none {s : State} : checkLenAlign s = none ↔ s.regs.srcLen.toNat % 4 = 0 := by
  simp [checkLenAlign, failIf_eq_none]

theorem checkSrcRange_none {s : State} :
    checkSrcRange s = none ↔ s.regs.srcBase.toNat + s.regs.srcLen.toNat ≤ s.params.memBytes := by
  simp [checkSrcRange, failIf_eq_none]

theorem checkContrastRange_none {s : State} :
    checkContrastRange s = none ↔ -255 ≤ s.regs.amount.toInt ∧ s.regs.amount.toInt ≤ 255 := by
  simp [checkContrastRange, failIf_eq_none]

theorem checkStrength_none {s : State} :
    checkStrength s = none ↔ (Binary32.ofWord s.regs.strength).nonFinite = false := by
  simp [checkStrength, failIf_eq_none]

theorem checkDimsBounds_none {s : State} :
    checkDimsBounds s = none ↔ s.regs.width.toNat * s.regs.height.toNat * 4 ≤ s.regs.srcLen.toNat := by
  rw [checkDimsBounds, failIf_eq_none, decide_eq_false_iff_not]
  exact Nat.not_lt

theorem checkCropOverrun_none {s : State} :
    checkCropOverrun s = none ↔ s.regs.startX.toNat + s.regs.newWidth.toNat ≤ s.regs.width.toNat := by
  simp [checkCropOverrun, failIf_eq_none]

theorem checkDstRange_none {s : State} {d : Region} :
    checkDstRange s d = none ↔ d.base + d.len ≤ s.params.memBytes := by
  simp [checkDstRange, failIf_eq_none]

theorem checkOverlap_none {s : State} {d : Region} :
    checkOverlap s d = none ↔ (s.regs.srcLen.toNat = 0 ∨ d.len = 0 ∨ d.base + d.len ≤ s.regs.srcBase.toNat ∨
      s.regs.srcBase.toNat + s.regs.srcLen.toNat ≤ d.base) := by
  rw [checkOverlap, failIf_eq_none, ← Bool.not_eq_true]
  simp only [Bool.and_eq_true, decide_eq_true_eq, zext]
  constructor
  · intro h
    by_contra hc
    exact h ⟨⟨⟨by omega, by omega⟩, by omega⟩, by omega⟩
  · rintro h ⟨⟨⟨h1, h2⟩, h3⟩, h4⟩
    omega

/-- The checks of the seven plain filters (R251). -/
theorem commandError_source_none {i : Instr} {s : State} (h : commandChecks i s = [checkLenAlign s, checkSrcRange s]) :
    commandError i s = none ↔ SourceOk s := by
  simp [commandError, h, firstError_eq_none, checkLenAlign_none, checkSrcRange_none, SourceOk]

theorem commandError_contrast_none {s : State} : commandError .contrast s = none ↔
    SourceOk s ∧ -255 ≤ s.regs.amount.toInt ∧ s.regs.amount.toInt ≤ 255 := by
  simp [commandError, commandChecks, firstError_eq_none, checkLenAlign_none, checkSrcRange_none,
    checkContrastRange_none, SourceOk, and_assoc]

theorem commandError_vignette_none {s : State} : commandError .vignette s = none ↔
    SourceOk s ∧ (Binary32.ofWord s.regs.strength).nonFinite = false ∧
      s.regs.width.toNat * s.regs.height.toNat * 4 ≤ s.regs.srcLen.toNat := by
  simp [commandError, commandChecks, firstError_eq_none, checkLenAlign_none, checkSrcRange_none,
    checkStrength_none, checkDimsBounds_none, SourceOk, and_assoc]

theorem commandError_resizeNn_none {s : State} : commandError .resizeNn s = none ↔
    SourceOk s ∧ DestinationOk s (newRegion s) := by
  simp [commandError, commandChecks, firstError_eq_none, checkLenAlign_none, checkSrcRange_none,
    checkDstRange_none, checkOverlap_none, SourceOk, DestinationOk, and_assoc]

theorem commandError_crop_none {s : State} : commandError .crop s = none ↔
    SourceOk s ∧ s.regs.width.toNat * s.regs.height.toNat * 4 ≤ s.regs.srcLen.toNat ∧
      s.regs.startX.toNat + s.regs.newWidth.toNat ≤ s.regs.width.toNat ∧ DestinationOk s (newRegion s) := by
  simp [commandError, commandChecks, firstError_eq_none, checkLenAlign_none, checkSrcRange_none,
    checkDimsBounds_none, checkCropOverrun_none, checkDstRange_none, checkOverlap_none, SourceOk, DestinationOk,
    and_assoc]

/-- The checks of the two flips (R251). -/
theorem commandError_flip_none {i : Instr} {s : State}
    (h : commandChecks i s = [checkLenAlign s, checkSrcRange s, checkDimsBounds s, checkDstRange s (flipRegion s),
      checkOverlap s (flipRegion s)]) :
    commandError i s = none ↔ SourceOk s ∧ s.regs.width.toNat * s.regs.height.toNat * 4 ≤ s.regs.srcLen.toNat ∧
      DestinationOk s (flipRegion s) := by
  simp [commandError, h, firstError_eq_none, checkLenAlign_none, checkSrcRange_none,
    checkDimsBounds_none, checkDstRange_none, checkOverlap_none, SourceOk, DestinationOk, and_assoc]

end Sys2Proof.Machine
end

