-- ==== Sys2Proof/Laws/Rounding.lean ====
section
/-! SUPPORT. Rounding to a number of significant bits (00_scope.md R11): it is monotone, it leaves a number of that many
bits alone, and the same for the square root. -/

namespace Sys2Proof

/-- A number of at most `p` significant bits. -/
def HasBits (p m : Nat) : Prop := ∃ t k, t ≤ 2 ^ p ∧ m = t * 2 ^ k

theorem HasBits.two_pow {p : Nat} (k : Nat) : HasBits p (2 ^ k) := ⟨1, k, Nat.one_le_two_pow, by simp⟩

theorem HasBits.zero {p : Nat} : HasBits p 0 := ⟨0, 0, Nat.zero_le _, by simp⟩

/-- Rounding a ratio to a whole number is monotone. -/
theorem nearestEven_mono {n d n' d' : Nat} (hd : 0 < d) (hd' : 0 < d') (h : n * d' ≤ n' * d) :
    nearestEven n d ≤ nearestEven n' d' := by
  have ht : n / d ≤ n' / d' := by
    rw [Nat.le_div_iff_mul_le hd']
    have h1 : n / d * d ≤ n := Nat.div_mul_le_self n d
    have h2 : n / d * d' * d ≤ n' * d := calc
      n / d * d' * d = n / d * d * d' := by ring
      _ ≤ n * d' := Nat.mul_le_mul_right _ h1
      _ ≤ n' * d := h
    exact Nat.le_of_mul_le_mul_right h2 hd
  have hle : nearestEven n d ≤ n / d + 1 := by unfold nearestEven; split <;> omega
  have hge : n' / d' ≤ nearestEven n' d' := by unfold nearestEven; split <;> omega
  rcases Nat.lt_or_eq_of_le ht with hlt | heq
  · omega
  · have hn := Nat.div_add_mod n d
    have hn' := Nat.div_add_mod n' d'
    have hr : (n % d) * d' ≤ (n' % d') * d := by
      rw [← hn, ← hn', ← heq] at h
      nlinarith
    unfold nearestEven
    rw [← heq]
    split_ifs with h1 h2
    · exact le_rfl
    · exfalso
      apply h2
      rcases h1 with h1 | ⟨h1, hodd⟩
      · left
        have : d * d' < 2 * (n' % d') * d := by nlinarith
        nlinarith
      · have : d * d' ≤ 2 * (n' % d') * d := by nlinarith
        have hle' : d' ≤ 2 * (n' % d') := by nlinarith
        rcases Nat.lt_or_eq_of_le hle' with h3 | h3
        · exact .inl h3
        · exact .inr ⟨h3.symm, hodd⟩
    · omega
    · exact le_rfl

/-- No whole number is nearer to a ratio than the rounded one, and of two as near the even one is chosen. -/
theorem nearestEven_nearest (n D : Nat) (hD : 0 < D) (t : Nat) :
    |((nearestEven n D * D : Nat) : Int) - n| ≤ |((t * D : Nat) : Int) - n| ∧
    (t ≠ nearestEven n D → |((nearestEven n D * D : Nat) : Int) - n| = |((t * D : Nat) : Int) - n| →
      nearestEven n D % 2 = 0) := by
  have hn := Nat.div_add_mod n D
  have hr := Nat.mod_lt n hD
  have hx : t ≤ n / D ∨ n / D + 1 ≤ t := by omega
  have hX : (t = n / D ∧ t * D = n / D * D) ∨ (t < n / D ∧ t * D + D ≤ n / D * D) ∨ (t = n / D + 1 ∧ t * D = n / D * D + D) ∨
      (n / D + 1 < t ∧ n / D * D + D + D ≤ t * D) := by
    rcases Nat.lt_trichotomy t (n / D) with h | h | h
    · refine .inr (.inl ⟨h, ?_⟩)
      rw [← Nat.succ_mul]; exact Nat.mul_le_mul_right _ h
    · exact .inl ⟨h, by rw [h]⟩
    · rcases Nat.lt_or_ge (n / D + 1) t with h' | h'
      · refine .inr (.inr (.inr ⟨h', ?_⟩))
        have := Nat.mul_le_mul_right D (show n / D + 2 ≤ t from h')
        rw [Nat.add_mul] at this
        omega
      · have : t = n / D + 1 := by omega
        refine .inr (.inr (.inl ⟨this, ?_⟩))
        rw [this, Nat.succ_mul]
  rw [Nat.mul_comm D] at hn
  have hT : (nearestEven n D = n / D ∧ nearestEven n D * D = n / D * D ∧ ¬ (D < 2 * (n % D) ∨ (2 * (n % D) = D ∧ n / D % 2 = 1))) ∨
      (nearestEven n D = n / D + 1 ∧ nearestEven n D * D = n / D * D + D ∧ (D < 2 * (n % D) ∨ (2 * (n % D) = D ∧ n / D % 2 = 1))) := by
    unfold nearestEven
    split
    · next h => exact .inr ⟨rfl, Nat.succ_mul _ _, h⟩
    · next h => exact .inl ⟨rfl, rfl, h⟩
  generalize nearestEven n D * D = R at *
  generalize nearestEven n D = T at *
  generalize t * D = X at *
  generalize n / D * D = A at *
  generalize n / D = q at *
  generalize n % D = e at *
  simp only [abs_eq_max_neg]
  constructor
  · omega
  · intro h1 h2
    omega

/-- A whole quotient is not changed by rounding. -/
theorem nearestEven_mul (t d : Nat) (hd : 0 < d) : nearestEven (t * d) d = t := by
  unfold nearestEven
  rw [Nat.mul_mod_left, Nat.mul_div_cancel _ hd]
  split_ifs with h <;> omega

theorem lt_two_pow_excess {p q : Nat} : q < 2 ^ (p + excessBits p q) := by
  have h1 : q < 2 ^ (Nat.log2 q + 1) := Nat.lt_log2_self
  refine lt_of_lt_of_le h1 (Nat.pow_le_pow_right (by omega) ?_)
  unfold excessBits; omega

theorem two_pow_le_of_excess {p q : Nat} (hp : 0 < p) (h : 0 < excessBits p q) : 2 ^ (p - 1 + excessBits p q) ≤ q := by
  have hq : q ≠ 0 := by
    rintro rfl
    simp [excessBits] at h
    omega
  have h1 : 2 ^ Nat.log2 q ≤ q := Nat.log2_self_le hq
  refine le_trans (Nat.pow_le_pow_right (by omega) ?_) h1
  unfold excessBits at *; omega

theorem excessBits_mono {p q q' : Nat} (h : q ≤ q') : excessBits p q ≤ excessBits p q' := by
  unfold excessBits
  have : Nat.log2 q ≤ Nat.log2 q' := by
    by_cases hq : q = 0
    · subst hq; simp
    · exact (Nat.le_log2 (by omega)).mpr ((Nat.log2_self_le hq).trans h)
  omega

theorem roundRatio_le_pow {p n d : Nat} (hd : 0 < d) : roundRatio p n d ≤ 2 ^ (p + excessBits p (n / d)) := by
  unfold roundRatio
  rw [pow_add]
  refine Nat.mul_le_mul_right _ ?_
  have hk : 0 < 2 ^ excessBits p (n / d) := Nat.two_pow_pos _
  have hlt : n < 2 ^ p * (d * 2 ^ excessBits p (n / d)) := by
    have := (Nat.div_lt_iff_lt_mul hd).mp (lt_two_pow_excess (p := p) (q := n / d))
    rw [pow_add] at this
    nlinarith
  have := nearestEven_mono (n := n) (d := d * 2 ^ excessBits p (n / d)) (n' := 2 ^ p * (d * 2 ^ excessBits p (n / d)))
    (d' := d * 2 ^ excessBits p (n / d)) (by positivity) (by positivity) (Nat.mul_le_mul_right _ hlt.le)
  rwa [nearestEven_mul _ _ (by positivity)] at this

theorem pow_le_roundRatio {p n d : Nat} (hp : 0 < p) (hd : 0 < d) (hk : 0 < excessBits p (n / d)) :
    2 ^ (p - 1 + excessBits p (n / d)) ≤ roundRatio p n d := by
  unfold roundRatio
  rw [pow_add]
  refine Nat.mul_le_mul_right _ ?_
  have hle : 2 ^ (p - 1) * (d * 2 ^ excessBits p (n / d)) ≤ n := by
    have := (Nat.le_div_iff_mul_le hd).mp (two_pow_le_of_excess hp hk)
    rw [pow_add] at this
    nlinarith
  have := nearestEven_mono (n := 2 ^ (p - 1) * (d * 2 ^ excessBits p (n / d))) (d := d * 2 ^ excessBits p (n / d)) (n' := n)
    (d' := d * 2 ^ excessBits p (n / d)) (by positivity) (by positivity) (Nat.mul_le_mul_right _ hle)
  rwa [nearestEven_mul _ _ (by positivity)] at this

/-- Rounding a ratio is monotone. -/
theorem roundRatio_mono {p n d n' d' : Nat} (hp : 0 < p) (hd : 0 < d) (hd' : 0 < d') (h : n * d' ≤ n' * d) :
    roundRatio p n d ≤ roundRatio p n' d' := by
  have hq : n / d ≤ n' / d' := by
    rw [Nat.le_div_iff_mul_le hd']
    have h2 : n / d * d' * d ≤ n' * d := calc
      n / d * d' * d = n / d * d * d' := by ring
      _ ≤ n * d' := Nat.mul_le_mul_right _ (Nat.div_mul_le_self n d)
      _ ≤ n' * d := h
    exact Nat.le_of_mul_le_mul_right h2 hd
  rcases Nat.lt_or_eq_of_le (excessBits_mono (p := p) hq) with hlt | heq
  · refine (roundRatio_le_pow hd).trans (le_trans ?_ (pow_le_roundRatio hp hd' (by omega)))
    exact Nat.pow_le_pow_right (by omega) (by omega)
  · unfold roundRatio
    rw [← heq]
    refine Nat.mul_le_mul_right _ (nearestEven_mono (by positivity) (by positivity) ?_)
    nlinarith [Nat.two_pow_pos (excessBits p (n / d))]

/-- A number of `p` significant bits is not changed by rounding. -/
theorem roundRatio_exact {p m d : Nat} (hp : 0 < p) (hd : 0 < d) (hm : HasBits p m) : roundRatio p (m * d) d = m := by
  have hdvd : 2 ^ excessBits p m ∣ m := by
    obtain ⟨t, k, ht, rfl⟩ := hm
    by_cases h0 : t = 0
    · subst h0; simp
    rcases Nat.lt_or_eq_of_le ht with hlt | heq
    · refine Dvd.dvd.mul_left (Nat.pow_dvd_pow _ ?_) _
      have : t * 2 ^ k < 2 ^ (p + k) := by
        rw [pow_add]; exact Nat.mul_lt_mul_of_pos_right hlt (Nat.two_pow_pos _)
      have hpos : t * 2 ^ k ≠ 0 := by positivity
      have := (Nat.log2_lt hpos).mpr this
      unfold excessBits; omega
    · subst heq
      rw [← pow_add]
      refine Nat.pow_dvd_pow _ ?_
      unfold excessBits
      rw [Nat.log2_two_pow]; omega
  unfold roundRatio
  rw [Nat.mul_div_cancel _ hd]
  obtain ⟨c, hc⟩ := hdvd
  have : m * d = c * (d * 2 ^ excessBits p m) := by
    conv_lhs => rw [hc]
    ring
  rw [this, nearestEven_mul _ _ (by positivity), mul_comm c, ← hc]

/-- A ratio below a number of `p` bits is rounded to no more than it. -/
theorem roundRatio_le {p n d b : Nat} (hp : 0 < p) (hd : 0 < d) (hb : HasBits p b) (h : n ≤ b * d) :
    roundRatio p n d ≤ b := by
  have := roundRatio_mono (p := p) hp hd hd (Nat.mul_le_mul_right d h)
  rwa [roundRatio_exact hp hd hb] at this

/-- A ratio above a number of `p` bits is rounded to no less than it. -/
theorem le_roundRatio {p n d b : Nat} (hp : 0 < p) (hd : 0 < d) (hb : HasBits p b) (h : b * d ≤ n) :
    b ≤ roundRatio p n d := by
  have := roundRatio_mono (p := p) hp hd hd (Nat.mul_le_mul_right d h)
  rwa [roundRatio_exact hp hd hb] at this

/-- The result of rounding has `p` significant bits. -/
theorem hasBits_roundRatio {p n d : Nat} (hd : 0 < d) : HasBits p (roundRatio p n d) := by
  refine ⟨nearestEven n (d * 2 ^ excessBits p (n / d)), excessBits p (n / d), ?_, rfl⟩
  have h := roundRatio_le_pow (p := p) (n := n) hd
  unfold roundRatio at h
  rw [pow_add] at h
  exact Nat.le_of_mul_le_mul_right h (Nat.two_pow_pos _)

/-- The whole part of a square root. -/
theorem wholeRoot_spec (bits n : Nat) (h : n < 4 ^ bits) :
    wholeRoot bits n * wholeRoot bits n ≤ n ∧ n < (wholeRoot bits n + 1) * (wholeRoot bits n + 1) := by
  induction bits generalizing n with
  | zero => simp at h; subst h; simp [wholeRoot]
  | succ bits ih =>
    have h4 : n / 4 < 4 ^ bits := by
      rw [Nat.div_lt_iff_lt_mul (by omega)]
      rwa [pow_succ] at h
    obtain ⟨h1, h2⟩ := ih (n / 4) h4
    have h3 : n < 4 * (n / 4) + 4 := by omega
    unfold wholeRoot
    set r := wholeRoot bits (n / 4)
    have h5 : n / 4 + 1 ≤ (r + 1) * (r + 1) := h2
    split
    · next hc => exact ⟨hc, by nlinarith⟩
    · next hc =>
      refine ⟨?_, by omega⟩
      have : 4 * (n / 4) ≤ n := by omega
      nlinarith

theorem rootArg_lt {p n : Nat} : n / 4 ^ rootExcess p n < 4 ^ p := by
  rw [Nat.div_lt_iff_lt_mul (by positivity), ← pow_add]
  have h1 : n < 2 ^ (Nat.log2 n + 1) := Nat.lt_log2_self
  refine lt_of_lt_of_le h1 ?_
  rw [show (4 : Nat) = 2 ^ 2 from rfl, ← pow_mul]
  refine Nat.pow_le_pow_right (by omega) ?_
  unfold rootExcess; omega

theorem root_lt {p n : Nat} : wholeRoot p (n / 4 ^ rootExcess p n) < 2 ^ p := by
  obtain ⟨h1, -⟩ := wholeRoot_spec p _ (rootArg_lt (p := p) (n := n))
  have h2 := lt_of_le_of_lt h1 rootArg_lt
  rw [show (4 : Nat) ^ p = 2 ^ p * 2 ^ p from mul_pow 2 2 _] at h2
  exact Nat.mul_self_lt_mul_self_iff.mp h2

theorem rootExcess_mono {p n n' : Nat} (h : n ≤ n') : rootExcess p n ≤ rootExcess p n' := by
  unfold rootExcess
  have : Nat.log2 n ≤ Nat.log2 n' := by
    by_cases hq : n = 0
    · subst hq; simp
    · exact (Nat.le_log2 (by omega)).mpr ((Nat.log2_self_le hq).trans h)
  omega

theorem roundRoot_le_pow {p n : Nat} : roundRoot p n ≤ 2 ^ (p + rootExcess p n) := by
  unfold roundRoot
  rw [pow_add]
  refine Nat.mul_le_mul_right _ ?_
  have := root_lt (p := p) (n := n)
  split <;> omega

theorem pow_le_root {p n : Nat} (hp : 0 < p) (hk : 0 < rootExcess p n) :
    2 ^ (p - 1) ≤ wholeRoot p (n / 4 ^ rootExcess p n) := by
  have hn : n ≠ 0 := by
    rintro rfl
    simp [rootExcess] at hk
    omega
  have h1 : 4 ^ (p - 1) ≤ n / 4 ^ rootExcess p n := by
    rw [Nat.le_div_iff_mul_le (by positivity), ← pow_add]
    refine le_trans ?_ (Nat.log2_self_le hn)
    rw [show (4 : Nat) = 2 ^ 2 from rfl, ← pow_mul]
    refine Nat.pow_le_pow_right (by omega) ?_
    unfold rootExcess at *; omega
  obtain ⟨-, h2⟩ := wholeRoot_spec p _ (rootArg_lt (p := p) (n := n))
  rw [show (4 : Nat) ^ (p - 1) = 2 ^ (p - 1) * 2 ^ (p - 1) from mul_pow 2 2 _] at h1
  have := Nat.mul_self_lt_mul_self_iff.mp (lt_of_le_of_lt h1 h2)
  omega

/-- Rounding a square root is monotone. -/
theorem roundRoot_mono {p n n' : Nat} (hp : 0 < p) (h : n ≤ n') : roundRoot p n ≤ roundRoot p n' := by
  rcases Nat.lt_or_eq_of_le (rootExcess_mono (p := p) h) with hlt | heq
  · refine roundRoot_le_pow.trans ?_
    have h1 := pow_le_root (p := p) (n := n') hp (by omega)
    calc 2 ^ (p + rootExcess p n) ≤ 2 ^ (p - 1 + rootExcess p n') := Nat.pow_le_pow_right (by omega) (by omega)
      _ = 2 ^ (p - 1) * 2 ^ rootExcess p n' := pow_add _ _ _
      _ ≤ roundRoot p n' := by
        unfold roundRoot
        refine Nat.mul_le_mul_right _ ?_
        split <;> omega
  · unfold roundRoot
    simp only
    rw [← heq]
    refine Nat.mul_le_mul_right _ ?_
    have hdiv : n / 4 ^ rootExcess p n ≤ n' / 4 ^ rootExcess p n := Nat.div_le_div_right h
    obtain ⟨a1, -⟩ := wholeRoot_spec p _ (rootArg_lt (p := p) (n := n))
    obtain ⟨-, b2⟩ := wholeRoot_spec p _ (heq ▸ rootArg_lt (p := p) (n := n'))
    have htt : wholeRoot p (n / 4 ^ rootExcess p n) ≤ wholeRoot p (n' / 4 ^ rootExcess p n) := by
      have := Nat.mul_self_lt_mul_self_iff.mp (lt_of_le_of_lt (a1.trans hdiv) b2)
      omega
    rcases Nat.lt_or_eq_of_le htt with h1 | h1
    · split <;> split <;> omega
    · rw [← h1]
      split_ifs with c1 c2
      · exact le_rfl
      · exfalso
        apply c2
        rcases c1 with c1 | ⟨c1, c3⟩
        · left; omega
        · rcases Nat.lt_or_eq_of_le h with h2 | h2
          · left; omega
          · right; subst h2; exact ⟨c1, c3⟩
      · omega
      · exact le_rfl

/-- A crude bound of a rounded square root. -/
theorem roundRoot_le_of_lt {p n j : Nat} (h : n < 4 ^ j) (hj : p ≤ j) (hn : 0 < n) : roundRoot p n ≤ 2 ^ j := by
  refine roundRoot_le_pow.trans (Nat.pow_le_pow_right (by omega) ?_)
  have h1 : Nat.log2 n < 2 * j := by
    refine (Nat.log2_lt (by omega)).mpr ?_
    rwa [show (4 : Nat) = 2 ^ 2 from rfl, ← pow_mul] at h
  unfold rootExcess; omega

/-- The root of a positive number is rounded to a positive number. -/
theorem roundRoot_pos {p n : Nat} (hp : 0 < p) (h : 0 < n) : 0 < roundRoot p n := by
  unfold roundRoot
  refine Nat.mul_pos ?_ (Nat.two_pow_pos _)
  have ht : 0 < wholeRoot p (n / 4 ^ rootExcess p n) := by
    by_contra h0
    have h0 : wholeRoot p (n / 4 ^ rootExcess p n) = 0 := by omega
    obtain ⟨-, h2⟩ := wholeRoot_spec p _ (rootArg_lt (p := p) (n := n))
    rw [h0] at h2
    rcases Nat.eq_zero_or_pos (rootExcess p n) with hk | hk
    · rw [hk] at h2; simp at h2; omega
    · have := pow_le_root (p := p) (n := n) hp hk
      have := Nat.two_pow_pos (p - 1)
      omega
  split <;> omega

end Sys2Proof
end

