-- ==== Sys2Proof/Laws/Float.lean ====
section
/-! SUPPORT. No filter passes a NaN to `tc` (41_color_filters.md R169): every pixel function answers for every pixel.
The intermediate values are bounded by powers of two, and in VIGNETTE the distance to the centre is at most the distance
to a corner because every rounding is monotone. -/

namespace Sys2Proof

theorem Fmt.precision_pos (f : Fmt) : 0 < f.precision := by cases f <;> decide
theorem Fmt.one_pos (f : Fmt) : 0 < f.one := Nat.two_pow_pos _

/-- Every power of two up to 2^64 is a finite value. -/
theorem Fmt.two_pow_one_le_max (f : Fmt) {j : Nat} (hj : j ≤ 64) : 2 ^ j * f.one ≤ f.maxMag := by
  refine (Nat.mul_le_mul_right _ (Nat.pow_le_pow_right (by omega) hj)).trans ?_
  cases f
  · decide +kernel
  · decide +kernel

theorem HasBits.scaled (f : Fmt) (j : Nat) : HasBits f.precision (2 ^ j * f.one) := by
  rw [Fmt.one, ← pow_add]; exact .two_pow _

/-- A finite value of magnitude at most `b` units. -/
def Fp.FinLe (x : Fp) (b : Nat) : Prop := ∃ s m, x = .fin s m ∧ m ≤ b

theorem Fp.FinLe.mono {x : Fp} {b c : Nat} (h : x.FinLe b) (hbc : b ≤ c) : x.FinLe c :=
  let ⟨s, m, hx, hm⟩ := h; ⟨s, m, hx, hm.trans hbc⟩

theorem Fp.round_fin {f : Fmt} {s : Bool} {n d b : Nat} (hd : 0 < d) (hb : HasBits f.precision b)
    (hmax : b ≤ f.maxMag) (h : n ≤ b * d) :
    Fp.round f s n d = .fin s (roundRatio f.precision n d) ∧ roundRatio f.precision n d ≤ b := by
  have := roundRatio_le f.precision_pos hd hb h
  exact ⟨by rw [Fp.round, Fp.ofMag, if_pos (this.trans hmax)], this⟩

theorem Fp.round_finLe {f : Fmt} {s : Bool} {n d b : Nat} (hd : 0 < d) (hb : HasBits f.precision b)
    (hmax : b ≤ f.maxMag) (h : n ≤ b * d) : (Fp.round f s n d).FinLe b :=
  let ⟨h1, h2⟩ := Fp.round_fin (s := s) hd hb hmax h; ⟨_, _, h1, h2⟩

/-- Below 2^j in magnitude. -/
def Fp.Below (f : Fmt) (j : Nat) (x : Fp) : Prop := x.FinLe (2 ^ j * f.one)

theorem Fp.Below.mono {f : Fmt} {j k : Nat} {x : Fp} (h : Fp.Below f j x) (hjk : j ≤ k) : Fp.Below f k x :=
  Fp.FinLe.mono h (Nat.mul_le_mul_right _ (Nat.pow_le_pow_right (by omega) hjk))

theorem Fp.conv_below {f : Fmt} {n : Int} {j : Nat} (hj : j ≤ 64) (h : n.natAbs ≤ 2 ^ j) :
    Fp.Below f j (Fp.conv f n) :=
  Fp.round_finLe (by omega) (.scaled f j) (f.two_pow_one_le_max hj) (by
    rw [Nat.mul_one]; exact Nat.mul_le_mul_right _ h)

theorem Fp.lit_below {f : Fmt} {n d j : Nat} (hd : 0 < d) (hj : j ≤ 64) (h : n ≤ 2 ^ j * d) :
    Fp.Below f j (Fp.lit f n d) :=
  Fp.round_finLe hd (.scaled f j) (f.two_pow_one_le_max hj) (by
    calc n * f.one ≤ 2 ^ j * d * f.one := Nat.mul_le_mul_right _ h
      _ = 2 ^ j * f.one * d := by ring)

theorem signed_natAbs (s : Bool) (m : Nat) : (signed s m).natAbs = m := by cases s <;> simp [signed]

theorem Fp.add_finLe {f : Fmt} {x y : Fp} {a b c : Nat} (hx : x.FinLe a) (hy : y.FinLe b)
    (hc : HasBits f.precision c) (hmax : c ≤ f.maxMag) (h : a + b ≤ c) : (Fp.add f x y).FinLe c := by
  obtain ⟨s, m, rfl, hm⟩ := hx
  obtain ⟨t, n, rfl, hn⟩ := hy
  simp only [Fp.add]
  split
  · exact ⟨_, _, rfl, Nat.zero_le _⟩
  · refine Fp.round_finLe (by omega) hc hmax ?_
    have := Int.natAbs_add_le (signed s m) (signed t n)
    rw [signed_natAbs, signed_natAbs] at this
    omega

theorem Fp.neg_finLe {x : Fp} {a : Nat} (h : x.FinLe a) : x.neg.FinLe a := by
  obtain ⟨s, m, rfl, hm⟩ := h
  exact ⟨!s, m, rfl, hm⟩

theorem Fp.mul_finLe {f : Fmt} {x y : Fp} {a b c : Nat} (hx : x.FinLe a) (hy : y.FinLe b)
    (hc : HasBits f.precision c) (hmax : c ≤ f.maxMag) (h : a * b ≤ c * f.one) : (Fp.mul f x y).FinLe c := by
  obtain ⟨s, m, rfl, hm⟩ := hx
  obtain ⟨t, n, rfl, hn⟩ := hy
  exact Fp.round_finLe f.one_pos hc hmax ((Nat.mul_le_mul hm hn).trans h)

theorem Fp.add_below {f : Fmt} {x y : Fp} {i j k : Nat} (hx : Fp.Below f i x) (hy : Fp.Below f j y)
    (hi : i < k) (hj : j < k) (hk : k ≤ 64) : Fp.Below f k (Fp.add f x y) :=
  Fp.add_finLe (hx.mono (Nat.le_pred_of_lt hi)) (hy.mono (Nat.le_pred_of_lt hj)) (.scaled f k)
    (f.two_pow_one_le_max hk) (by
      obtain ⟨l, rfl⟩ : ∃ l, k = l + 1 := ⟨k - 1, by omega⟩
      simp only [Nat.pred_eq_sub_one, Nat.add_sub_cancel, pow_succ]
      exact le_of_eq (by ring))

theorem Fp.sub_below {f : Fmt} {x y : Fp} {i j k : Nat} (hx : Fp.Below f i x) (hy : Fp.Below f j y)
    (hi : i < k) (hj : j < k) (hk : k ≤ 64) : Fp.Below f k (Fp.sub f x y) :=
  Fp.add_below hx (Fp.neg_finLe hy) hi hj hk

theorem Fp.mul_below {f : Fmt} {x y : Fp} {i j : Nat} (hx : Fp.Below f i x) (hy : Fp.Below f j y)
    (hk : i + j ≤ 64) : Fp.Below f (i + j) (Fp.mul f x y) :=
  Fp.mul_finLe hx hy (.scaled f _) (f.two_pow_one_le_max hk) (le_of_eq (by rw [pow_add]; ring))

/-- `tc` answers for every value but a NaN (R12). -/
theorem tc_isSome {f : Fmt} {x : Fp} (h : x ≠ .nan) : (tc f x).isSome := by
  cases x <;> simp_all [tc]

theorem Fp.FinLe.ne_nan {x : Fp} {b : Nat} (h : x.FinLe b) : x ≠ .nan := by
  obtain ⟨s, m, rfl, -⟩ := h; simp

theorem Fp.round_ne_nan (f : Fmt) (s : Bool) (n d : Nat) : Fp.round f s n d ≠ .nan := by
  unfold Fp.round Fp.ofMag; split <;> simp

/-- The sum of two finite values is no NaN. -/
theorem Fp.add_ne_nan {f : Fmt} {x y : Fp} {a b : Nat} (hx : x.FinLe a) (hy : y.FinLe b) : Fp.add f x y ≠ .nan := by
  obtain ⟨s, m, rfl, -⟩ := hx
  obtain ⟨t, n, rfl, -⟩ := hy
  simp only [Fp.add]
  split
  · simp
  · exact Fp.round_ne_nan _ _ _ _

/-- The product of two finite values is no NaN. -/
theorem Fp.mul_ne_nan {f : Fmt} {x y : Fp} {a b : Nat} (hx : x.FinLe a) (hy : y.FinLe b) : Fp.mul f x y ≠ .nan := by
  obtain ⟨s, m, rfl, -⟩ := hx
  obtain ⟨t, n, rfl, -⟩ := hy
  exact Fp.round_ne_nan _ _ _ _

namespace Machine

theorem channel_below (f : Fmt) (c : Byte) : Fp.Below f 8 (channel f c) :=
  Fp.conv_below (by omega) (by have := c.isLt; omega)

theorem luminance_below (f : Fmt) (r g b : Byte) : Fp.Below f 10 (luminance f r g b) :=
  Fp.add_below (i := 9) (j := 8)
    (Fp.add_below (i := 8) (j := 8)
      (Fp.mul_below (i := 0) (Fp.lit_below (by omega) (by omega) (by omega)) (channel_below f r) (by omega))
      (Fp.mul_below (i := 0) (Fp.lit_below (by omega) (by omega) (by omega)) (channel_below f g) (by omega))
      (by omega) (by omega) (by omega))
    (Fp.mul_below (i := 0) (Fp.lit_below (by omega) (by omega) (by omega)) (channel_below f b) (by omega))
    (by omega) (by omega) (by omega)

theorem grayscalePixel_isSome (f : Fmt) (r g b : Byte) : (grayscalePixel f r g b).isSome := by
  obtain ⟨v, hv⟩ := Option.isSome_iff_exists.mp (tc_isSome (f := f) (luminance_below f r g b).ne_nan)
  simp [grayscalePixel, hv]

theorem tcPixel_isSome {f : Fmt} {r g b : Fp} (hr : r ≠ .nan) (hg : g ≠ .nan) (hb : b ≠ .nan) :
    (tcPixel f r g b).isSome := by
  obtain ⟨x, hx⟩ := Option.isSome_iff_exists.mp (tc_isSome (f := f) hr)
  obtain ⟨y, hy⟩ := Option.isSome_iff_exists.mp (tc_isSome (f := f) hg)
  obtain ⟨z, hz⟩ := Option.isSome_iff_exists.mp (tc_isSome (f := f) hb)
  simp [tcPixel, hx, hy, hz]

theorem eachChannel_isSome {f : Byte → Option Byte} (hf : ∀ c, (f c).isSome) (r g b : Byte) :
    (eachChannel f r g b).isSome := by
  obtain ⟨x, hx⟩ := Option.isSome_iff_exists.mp (hf r)
  obtain ⟨y, hy⟩ := Option.isSome_iff_exists.mp (hf g)
  obtain ⟨z, hz⟩ := Option.isSome_iff_exists.mp (hf b)
  simp [eachChannel, hx, hy, hz]

theorem sepiaRow_below {f : Fmt} {kr kg kb : Nat} (r g b : Byte) (hr : kr ≤ 1000) (hg : kg ≤ 1000) (hb : kb ≤ 1000) :
    Fp.Below f 10 (sepiaRow f kr kg kb r g b) :=
  Fp.add_below (i := 9) (j := 8)
    (Fp.add_below (i := 8) (j := 8)
      (Fp.mul_below (j := 0) (channel_below f r) (Fp.lit_below (by omega) (by omega) (by omega)) (by omega))
      (Fp.mul_below (j := 0) (channel_below f g) (Fp.lit_below (by omega) (by omega) (by omega)) (by omega))
      (by omega) (by omega) (by omega))
    (Fp.mul_below (j := 0) (channel_below f b) (Fp.lit_below (by omega) (by omega) (by omega)) (by omega))
    (by omega) (by omega) (by omega)

theorem sepiaPixel_isSome (f : Fmt) (r g b : Byte) : (sepiaPixel f r g b).isSome :=
  tcPixel_isSome (sepiaRow_below r g b (by omega) (by omega) (by omega)).ne_nan
    (sepiaRow_below r g b (by omega) (by omega) (by omega)).ne_nan
    (sepiaRow_below r g b (by omega) (by omega) (by omega)).ne_nan

theorem vintagePixel_isSome (f : Fmt) (r g b : Byte) : (vintagePixel f r g b).isSome := by
  have one : ∀ (c : Byte) (n m : Nat), n ≤ 10 → m ≤ 256 →
      Fp.add f (Fp.mul f (channel f c) (Fp.lit f n 10)) (Fp.lit f m 1) ≠ .nan := fun c n m hn hm =>
    (Fp.add_below (k := 9) (i := 8) (j := 8)
      (Fp.mul_below (j := 0) (channel_below f c) (Fp.lit_below (by omega) (by omega) (by omega)) (by omega))
      (Fp.lit_below (by omega) (by omega) (by omega)) (by omega) (by omega) (by omega)).ne_nan
  exact tcPixel_isSome (one r 9 40 (by omega) (by omega)) (one g 7 10 (by omega) (by omega))
    (one b 9 40 (by omega) (by omega))

theorem cyberpunkPixel_isSome (f : Fmt) (r g b : Byte) : (cyberpunkPixel f r g b).isSome := by
  have one : ∀ (c : Byte) (n m : Nat), n ≤ 20 → m ≤ 256 →
      Fp.sub f (Fp.mul f (channel f c) (Fp.lit f n 10)) (Fp.lit f m 1) ≠ .nan := fun c n m hn hm =>
    (Fp.sub_below (k := 10) (i := 9) (j := 8)
      (Fp.mul_below (j := 1) (channel_below f c) (Fp.lit_below (by omega) (by omega) (by omega)) (by omega))
      (Fp.lit_below (by omega) (by omega) (by omega)) (by omega) (by omega) (by omega)).ne_nan
  exact tcPixel_isSome (one r 13 30 (by omega) (by omega))
    (Fp.mul_below (j := 0) (channel_below f g) (Fp.lit_below (by omega) (by omega) (by omega)) (by omega)).ne_nan
    (one b 14 10 (by omega) (by omega))

theorem desaturate_below {f : Fmt} {lum : Fp} (hl : Fp.Below f 10 lum) (c : Byte) :
    Fp.Below f 11 (desaturate f lum c) :=
  Fp.add_below (i := 8) (j := 10)
    (Fp.mul_below (i := 0) (Fp.lit_below (by omega) (by omega) (by omega)) (channel_below f c) (by omega))
    (Fp.mul_below (i := 0) (Fp.lit_below (by omega) (by omega) (by omega)) hl (by omega))
    (by omega) (by omega) (by omega)

theorem lofiPixel_isSome (f : Fmt) (n : NoiseTerm) (r g b : Byte) : (lofiPixel f n r g b).isSome := by
  have hn : (Fp.fin n.neg n.mag).FinLe n.mag := ⟨_, _, rfl, le_rfl⟩
  have hl := luminance_below f r g b
  have tint : ∀ (c : Byte) (m : Nat), m ≤ 256 →
      Fp.add f (Fp.add f (desaturate f (luminance f r g b) c) (Fp.lit f m 1)) (.fin n.neg n.mag) ≠ .nan := fun c m hm =>
    Fp.add_ne_nan (Fp.add_below (k := 12) (i := 11) (j := 8) (desaturate_below hl c)
      (Fp.lit_below (by omega) (by omega) (by omega)) (by omega) (by omega) (by omega)) hn
  exact tcPixel_isSome (tint r 30 (by omega)) (tint g 15 (by omega)) (Fp.add_ne_nan (desaturate_below hl b) hn)

/-- The contrast factor is finite, and at most 2^18, for every amount in range (R159, R169). -/
theorem contrastFactor_below {f : Fmt} {a : Int} (h1 : -255 ≤ a) (h2 : a ≤ 255) :
    Fp.Below f 18 (contrastFactor f a) := by
  obtain ⟨s, m, hN, hm⟩ := Fp.conv_below (f := f) (n := 259 * (a + 255)) (j := 18) (by omega) (by omega)
  have hdiv : f.one ≤ roundRatio f.precision ((255 * (259 - a)).natAbs * f.one) 1 := by
    refine le_roundRatio f.precision_pos (by omega) (by simpa using HasBits.scaled f 0) ?_
    have : 1 ≤ (255 * (259 - a)).natAbs := by omega
    nlinarith [f.one_pos]
  obtain ⟨hD, -⟩ := Fp.round_fin (f := f) (s := decide (255 * (259 - a) < 0)) (n := (255 * (259 - a)).natAbs * f.one)
    (d := 1) (b := 2 ^ 18 * f.one) (by omega) (.scaled f 18) (f.two_pow_one_le_max (by omega))
    (by rw [Nat.mul_one]; exact Nat.mul_le_mul_right _ (by omega))
  have hb : roundRatio f.precision ((255 * (259 - a)).natAbs * f.one) 1 ≠ 0 := by
    have := f.one_pos; omega
  unfold contrastFactor
  rw [hN, show Fp.conv f (255 * (259 - a)) = _ from hD]
  simp only [Fp.div, if_neg hb]
  refine Fp.round_finLe (by omega) (.scaled f 18) (f.two_pow_one_le_max (by omega)) ?_
  exact Nat.mul_le_mul hm hdiv

theorem contrastChannel_isSome {f : Fmt} {a : Int} (h1 : -255 ≤ a) (h2 : a ≤ 255) (c : Byte) :
    (contrastChannel f (contrastFactor f a) c).isSome :=
  tc_isSome (Fp.add_below (k := 27) (i := 26) (j := 7)
    (Fp.mul_below (j := 8) (contrastFactor_below h1 h2)
      (Fp.conv_below (by omega) (by have := c.isLt; omega)) (by omega))
    (Fp.lit_below (by omega) (by omega) (by omega)) (by omega) (by omega) (by omega)).ne_nan

theorem invertChannel_isSome (c : Byte) : (invertChannel c).isSome := rfl
theorem brightnessChannel_isSome (a : Int) (c : Byte) : (brightnessChannel a c).isSome := rfl

/-- The centre's coordinate for a side of n pixels: exactly half of conv(n), a multiple of the unit (R161). -/
theorem centre_eq {f : Fmt} {n : Nat} (hn : n < 2 ^ 32) :
    ∃ c, centre f n = .fin false c ∧ Fp.conv f n = .fin false (2 * c) ∧ c ≤ 2 ^ 31 * f.one ∧
      (0 < n → f.one ≤ 2 * c) ∧ HasBits f.precision c ∧ 2 * c = roundRatio f.precision (n * f.one) 1 := by
  obtain ⟨hconv, hle⟩ := Fp.round_fin (f := f) (s := decide ((n : Int) < 0)) (n := n * f.one) (d := 1)
    (b := 2 ^ 32 * f.one) (by omega) (.scaled f 32) (f.two_pow_one_le_max (by omega))
    (by rw [Nat.mul_one]; exact Nat.mul_le_mul_right _ (by omega))
  have hs : decide ((n : Int) < 0) = false := by simp
  rw [hs] at hconv
  have htwo : Fp.conv f 2 = .fin false (2 * f.one) := by cases f <;> decide +kernel
  -- conv(n) is even: it is n itself below 2^24, and a multiple of a power of two of units beyond
  have heven : 2 ∣ roundRatio f.precision (n * f.one) 1 := by
    unfold roundRatio
    by_cases hk : 0 < excessBits f.precision (n * f.one / 1)
    · exact Dvd.dvd.mul_left (dvd_pow_self 2 (by omega)) _
    · have h0 : excessBits f.precision (n * f.one / 1) = 0 := by omega
      rw [h0, pow_zero, Nat.mul_one, Nat.mul_one]
      have : nearestEven (n * f.one) 1 = n * f.one := by
        have := nearestEven_mul (n * f.one) 1 (by omega)
        rwa [Nat.mul_one] at this
      rw [this]
      refine Dvd.dvd.mul_left ?_ _
      cases f
      · exact dvd_pow_self 2 (by decide)
      · exact dvd_pow_self 2 (by decide)
  obtain ⟨c, hc⟩ := heven
  have hbits : HasBits f.precision c := by
    have hq : HasBits f.precision (roundRatio f.precision (n * f.one) 1) := hasBits_roundRatio (by omega)
    obtain ⟨t, k, ht, hk⟩ := hq
    rw [hc] at hk
    cases k with
    | zero =>
      refine ⟨c, 0, ?_, by simp⟩
      rw [pow_zero, Nat.mul_one] at hk
      omega
    | succ k =>
      refine ⟨t, k, ht, ?_⟩
      rw [pow_succ] at hk
      have : 2 * c = 2 * (t * 2 ^ k) := by rw [hk]; ring
      omega
  have hcle : c ≤ 2 ^ 31 * f.one := by
    have : 2 * c ≤ 2 ^ 32 * f.one := hc ▸ hle
    have h2 : (2 : Nat) ^ 32 * f.one = 2 * (2 ^ 31 * f.one) := by ring
    omega
  refine ⟨c, ?_, ?_, hcle, fun hn0 => ?_, hbits, hc.symm⟩
  · have hcv : Fp.conv f n = .fin false (2 * c) := by rw [← hc]; exact hconv
    unfold centre
    rw [hcv, htwo]
    have h2 : 2 * f.one ≠ 0 := by have := f.one_pos; omega
    simp only [Fp.div, if_neg h2, bne_self_eq_false]
    rw [Fp.round, show 2 * c * f.one = c * (2 * f.one) by ring,
      roundRatio_exact f.precision_pos (by have := f.one_pos; omega) hbits, Fp.ofMag,
      if_pos (hcle.trans (f.two_pow_one_le_max (by omega)))]
  · rw [← hc]; exact hconv
  · rw [← hc]
    refine le_roundRatio f.precision_pos (by omega) (by simpa using HasBits.scaled f 0) ?_
    nlinarith [f.one_pos]

/-- The offset of a pixel from the centre is at most the centre's coordinate (R169). -/
theorem offset_finLe {f : Fmt} {n x c : Nat} (hx : x < n) (hn : n < 2 ^ 32) (hc : centre f n = .fin false c) :
    (Fp.sub f (Fp.conv f x) (centre f n)).FinLe c := by
  obtain ⟨c', h1, h2, h3, -, hbits, hcr⟩ := centre_eq (f := f) hn
  have : c' = c := by rw [hc] at h1; cases h1; rfl
  subst this
  obtain ⟨e, he1, he2, -, -, -, her⟩ := centre_eq (f := f) (n := x) (by omega)
  have hle : 2 * e ≤ 2 * c' := by
    rw [hcr, her]
    refine roundRatio_mono f.precision_pos (by omega) (by omega) ?_
    rw [Nat.mul_one, Nat.mul_one]
    exact Nat.mul_le_mul_right _ hx.le
  rw [he2, hc]
  simp only [Fp.sub, Fp.neg, Fp.add]
  split
  · exact ⟨_, _, rfl, Nat.zero_le _⟩
  · refine Fp.round_finLe (by omega) hbits (h3.trans (f.two_pow_one_le_max (by omega))) ?_
    simp [signed]
    omega

theorem mulSelf_eq {f : Fmt} {x : Fp} {m : Nat} {s : Bool} (hx : x = .fin s m) (hm : m ≤ 2 ^ 31 * f.one) :
    Fp.mul f x x = .fin false (roundRatio f.precision (m * m) f.one) ∧
      roundRatio f.precision (m * m) f.one ≤ 2 ^ 62 * f.one := by
  subst hx
  have := Fp.round_fin (f := f) (s := s != s) (n := m * m) (d := f.one) (b := 2 ^ 62 * f.one) f.one_pos (.scaled f 62)
    (f.two_pow_one_le_max (by omega)) (by
      calc m * m ≤ 2 ^ 31 * f.one * (2 ^ 31 * f.one) := Nat.mul_le_mul hm hm
        _ = 2 ^ 62 * f.one * f.one := by ring)
  simpa [Fp.mul] using this

/-- The hypotenuse as a magnitude. -/
theorem hypotenuse_eq {f : Fmt} {x y : Fp} {s t : Bool} {a b : Nat} (hx : x = .fin s a) (hy : y = .fin t b)
    (ha : a ≤ 2 ^ 31 * f.one) (hb : b ≤ 2 ^ 31 * f.one) :
    ∃ q, q = roundRatio f.precision
        (roundRatio f.precision (a * a) f.one + roundRatio f.precision (b * b) f.one) 1 ∧
      hypotenuse f x y = .fin false (if q = 0 then 0 else roundRoot f.precision (q * f.one)) ∧
      roundRoot f.precision (q * f.one) ≤ f.maxMag := by
  obtain ⟨hxx, hxl⟩ := mulSelf_eq hx ha
  obtain ⟨hyy, hyl⟩ := mulSelf_eq hy hb
  refine ⟨_, rfl, ?_⟩
  set A := roundRatio f.precision (a * a) f.one
  set B := roundRatio f.precision (b * b) f.one
  have hsum : A + B ≤ 2 ^ 63 * f.one * 1 := by
    have : (2 : Nat) ^ 63 * f.one * 1 = 2 ^ 62 * f.one + 2 ^ 62 * f.one := by ring
    omega
  obtain ⟨hq, hql⟩ := Fp.round_fin (f := f) (s := false) (n := A + B) (d := 1) (b := 2 ^ 63 * f.one) (by omega)
    (.scaled f 63) (f.two_pow_one_le_max (by omega)) hsum
  have hadd : Fp.add f (.fin false A) (.fin false B) = .fin false (roundRatio f.precision (A + B) 1) := by
    simp only [Fp.add, signed, Bool.false_eq_true, if_false]
    by_cases h0 : (A : Int) + (B : Int) = 0
    · have hA : A = 0 := by omega
      have hB : B = 0 := by omega
      rw [if_pos h0, hA, hB]
      have : roundRatio f.precision (0 + 0) 1 = 0 := by
        have := roundRatio_exact (d := 1) f.precision_pos (by omega) (HasBits.zero (p := f.precision))
        simpa using this
      rw [this]; rfl
    · rw [if_neg h0, ← hq]
      have hneg : decide ((A : Int) + (B : Int) < 0) = false := by simp; omega
      have habs : ((A : Int) + (B : Int)).natAbs = A + B := by omega
      rw [hneg, habs]
  have hroot : roundRoot f.precision (roundRatio f.precision (A + B) 1 * f.one) ≤ f.maxMag := by
    by_cases hz : roundRatio f.precision (A + B) 1 = 0
    · rw [hz, Nat.zero_mul]
      cases f <;> decide +kernel
    · have hlt : roundRatio f.precision (A + B) 1 * f.one < 4 ^ (32 + f.unitExp) := by
        have h1 : roundRatio f.precision (A + B) 1 * f.one ≤ 2 ^ 63 * f.one * f.one := Nat.mul_le_mul_right _ hql
        refine lt_of_le_of_lt h1 ?_
        rw [Fmt.one, ← pow_add, ← pow_add, show (4 : Nat) = 2 ^ 2 from rfl, ← pow_mul]
        exact Nat.pow_lt_pow_right (by omega) (by omega)
      refine (roundRoot_le_of_lt hlt (by cases f <;> decide) (by have := f.one_pos; positivity)).trans ?_
      rw [pow_add]
      exact f.two_pow_one_le_max (j := 32) (by omega)
  refine ⟨?_, hroot⟩
  unfold hypotenuse
  rw [hxx, hyy, hadd]
  simp only [Fp.sqrt]
  by_cases hz : roundRatio f.precision (A + B) 1 = 0
  · simp [hz]
  · simp [hz, Fp.ofMag, hroot]

/-- The magnitude of a finite strength is at most the greatest binary32 value (R41, R170). -/
theorem strength_bound {w : Word} (h : (Binary32.ofWord w).nonFinite = false) :
    (Binary32.ofWord w).units ≤ (2 ^ 24 - 1) * 2 ^ 253 ∧ HasBits 24 (Binary32.ofWord w).units := by
  have hf : (Binary32.ofWord w).frac < 2 ^ 23 := (w.extractLsb' 0 23).isLt
  have he : (Binary32.ofWord w).exp < 256 := (w.extractLsb' 23 8).isLt
  have hne : (Binary32.ofWord w).exp ≠ 255 := by simpa [Binary32.nonFinite] using h
  unfold Binary32.units
  split
  · refine ⟨?_, ⟨(Binary32.ofWord w).frac, 0, by omega, by simp⟩⟩
    have h1 : (1 : Nat) ≤ 2 ^ 253 := Nat.one_le_two_pow
    have h2 : (Binary32.ofWord w).frac ≤ (2 ^ 24 - 1) * 1 := by omega
    exact h2.trans (Nat.mul_le_mul_left _ h1)
  · refine ⟨?_, ⟨_, _, by omega, rfl⟩⟩
    refine Nat.mul_le_mul (by omega) (Nat.pow_le_pow_right (by omega) (by omega))

theorem HasBits.wider {p q m : Nat} (h : HasBits p m) (hpq : p ≤ q) : HasBits q m :=
  let ⟨t, k, ht, hm⟩ := h; ⟨t, k, ht.trans (Nat.pow_le_pow_right (by omega) hpq), hm⟩

theorem HasBits.shift {p m : Nat} (h : HasBits p m) (j : Nat) : HasBits p (m * 2 ^ j) :=
  let ⟨t, k, ht, hm⟩ := h; ⟨t, k + j, ht, by rw [hm, pow_add, mul_assoc]⟩

/-- The vignette factor of a pixel of the image is finite for every finite strength (R169). -/
theorem vignetteFactor_finite {f : Fmt} {w h x y : Nat} {st : Word} (hx : x < w) (hy : y < h) (hw : w < 2 ^ 32)
    (hh : h < 2 ^ 32) (hs : (Binary32.ofWord st).nonFinite = false) :
    ∃ b, (vignetteFactor f w h ((Binary32.ofWord st).toFp f) x y).FinLe b := by
  obtain ⟨cx, hcx, -, hcxl, hcx0, -, -⟩ := centre_eq (f := f) hw
  obtain ⟨cy, hcy, -, hcyl, -, -, -⟩ := centre_eq (f := f) hh
  obtain ⟨sx, dx, hdx, hdxl⟩ := offset_finLe hx hw hcx
  obtain ⟨sy, dy, hdy, hdyl⟩ := offset_finLe hy hh hcy
  obtain ⟨qm, hqm, hmax, hmaxl⟩ := hypotenuse_eq hcx hcy hcxl hcyl
  obtain ⟨qd, hqd, hdist, -⟩ := hypotenuse_eq hdx hdy (hdxl.trans hcxl) (hdyl.trans hcyl)
  have hq : qd ≤ qm := by
    rw [hqd, hqm]
    refine roundRatio_mono f.precision_pos (by omega) (by omega) ?_
    rw [Nat.mul_one, Nat.mul_one]
    exact Nat.add_le_add
      (roundRatio_mono f.precision_pos f.one_pos f.one_pos (Nat.mul_le_mul_right _ (Nat.mul_le_mul hdxl hdxl)))
      (roundRatio_mono f.precision_pos f.one_pos f.one_pos (Nat.mul_le_mul_right _ (Nat.mul_le_mul hdyl hdyl)))
  have hqm0 : 0 < qm := by
    have h2 : f.one ≤ 2 * cx := hcx0 (by omega)
    have h3 : 4 ≤ f.one := by cases f <;> decide +kernel
    have h1 : 1 ≤ roundRatio f.precision (cx * cx) f.one := by
      refine le_roundRatio f.precision_pos f.one_pos ⟨1, 0, Nat.one_le_two_pow, by simp⟩ ?_
      nlinarith
    rw [hqm]
    refine lt_of_lt_of_le h1 ?_
    refine le_trans ?_ (le_roundRatio (d := 1) f.precision_pos (by omega) (hasBits_roundRatio f.one_pos)
      (b := roundRatio f.precision (cx * cx) f.one) (by omega))
    exact le_rfl
  have hone : f.one ≤ f.maxMag := by simpa using f.two_pow_one_le_max (j := 0) (by omega)
  have hbone : HasBits f.precision f.one := by simpa using HasBits.scaled f 0
  -- d ⊘ maxd is at most 1
  have hroot0 : 0 < roundRoot f.precision (qm * f.one) := roundRoot_pos f.precision_pos (by have := f.one_pos; positivity)
  have hratio : (Fp.div f (distance f w h x y) (maxDistance f w h)).FinLe f.one := by
    unfold distance maxDistance
    rw [hdist, hmax]
    have hqne : qm ≠ 0 := by omega
    simp only [hqne, if_false]
    simp only [Fp.div, if_neg (show roundRoot f.precision (qm * f.one) ≠ 0 by omega)]
    refine Fp.round_finLe hroot0 hbone hone ?_
    rw [Nat.mul_comm f.one]
    refine Nat.mul_le_mul_right _ ?_
    split
    · omega
    · exact roundRoot_mono f.precision_pos (Nat.mul_le_mul_right _ hq)
  -- times the strength: at most the strength
  obtain ⟨hsb, hsbits⟩ := strength_bound hs
  set S := (Binary32.ofWord st).units * 2 ^ (f.unitExp - 149) with hS
  have hSbits : HasBits f.precision S := HasBits.shift (HasBits.wider hsbits (by cases f <;> decide)) _
  have hSle : S ≤ (2 ^ 24 - 1) * 2 ^ 253 * 2 ^ (f.unitExp - 149) := Nat.mul_le_mul_right _ hsb
  have hSmax : S ≤ f.maxMag := hSle.trans (by cases f <;> decide +kernel)
  have hstr : ((Binary32.ofWord st).toFp f).FinLe S := ⟨_, _, rfl, le_rfl⟩
  have hprod := Fp.mul_finLe (f := f) hratio hstr hSbits hSmax (by rw [Nat.mul_comm])
  have hlit : (Fp.lit f 1 1).FinLe f.one :=
    Fp.round_finLe (by omega) hbone hone (by omega)
  -- 1 ⊖ that: at most the rounding of 1 + the greatest binary32 value, which is finite
  refine ⟨f.maxMag, ?_⟩
  obtain ⟨s1, m1, h1, hm1⟩ := hlit
  obtain ⟨s2, m2, h2, hm2⟩ := hprod
  unfold vignetteFactor
  rw [h1, h2]
  simp only [Fp.sub, Fp.neg, Fp.add]
  split
  · exact ⟨_, _, rfl, Nat.zero_le _⟩
  · have hz : (signed s1 m1 + signed (!s2) m2).natAbs ≤ f.one + (2 ^ 24 - 1) * 2 ^ 253 * 2 ^ (f.unitExp - 149) := by
      have := Int.natAbs_add_le (signed s1 m1) (signed (!s2) m2)
      rw [signed_natAbs, signed_natAbs] at this
      omega
    have hr := roundRatio_mono (p := f.precision) (d := 1) (d' := 1) f.precision_pos (by omega) (by omega)
      (Nat.mul_le_mul_right 1 hz)
    have hfin : roundRatio f.precision (f.one + (2 ^ 24 - 1) * 2 ^ 253 * 2 ^ (f.unitExp - 149)) 1 ≤ f.maxMag := by
      cases f <;> decide +kernel
    rw [Fp.round, Fp.ofMag, if_pos (hr.trans hfin)]
    exact ⟨_, _, rfl, hr.trans hfin⟩

theorem vignettePixel_isSome {f : Fmt} {w h x y : Nat} {st : Word} (hx : x < w) (hy : y < h) (hw : w < 2 ^ 32)
    (hh : h < 2 ^ 32) (hs : (Binary32.ofWord st).nonFinite = false) (r g b : Byte) :
    (vignettePixel f w h ((Binary32.ofWord st).toFp f) x y r g b).isSome := by
  obtain ⟨bd, hb⟩ := vignetteFactor_finite (f := f) hx hy hw hh hs
  exact eachChannel_isSome (fun c => tc_isSome (Fp.mul_ne_nan (channel_below f c) hb)) r g b

end Machine

end Sys2Proof
end

