-- ==== Sys2Proof/Laws/Memory.lean ====
section
/-! SUPPORT. Laws of pixel memory: a read after a write, and that every memory operation keeps the canonical form. -/

namespace Sys2Proof.Machine

theorem Memory.get?_set_self (m : Memory) (a : Nat) (v : Byte) : (m.set a v).get? a = some v := by
  induction m with
  | nil => simp [Memory.set, Memory.get?]
  | cons c rest ih =>
    obtain ⟨b, w⟩ := c
    unfold Memory.set
    split
    · simp [Memory.get?]
    · split
      · simp [Memory.get?]
      · next h1 h2 => simpa [Memory.get?, h2] using ih

theorem Memory.get?_set_ne (m : Memory) {a b : Nat} (v : Byte) (h : b ≠ a) : (m.set a v).get? b = m.get? b := by
  induction m with
  | nil => simp [Memory.set, Memory.get?, h]
  | cons c rest ih =>
    obtain ⟨d, w⟩ := c
    unfold Memory.set
    split
    · simp [Memory.get?, h]
    · split
      · next h1 h2 => subst h2; simp [Memory.get?, h]
      · simp only [Memory.get?, ih]

theorem Memory.get?_set (m : Memory) (a b : Nat) (v : Byte) :
    (m.set a v).get? b = if b = a then some v else m.get? b := by
  split
  · next h => subst h; exact m.get?_set_self b v
  · next h => exact m.get?_set_ne v h

theorem Memory.byteAt_set (m : Memory) (a b : Nat) (v : Byte) :
    (m.set a v).byteAt b = if b = a then v else m.byteAt b := by
  unfold Memory.byteAt
  rw [Memory.get?_set]
  split <;> rfl

theorem Memory.mem_set {m : Memory} {a : Nat} {v : Byte} {c : Host.Cell} (h : c ∈ m.set a v) :
    c = (a, v) ∨ c ∈ m := by
  induction m with
  | nil => exact .inl (by simpa [Memory.set] using h)
  | cons d rest ih =>
    obtain ⟨b, w⟩ := d
    unfold Memory.set at h
    split at h
    · simpa using h
    · split at h
      · next h1 h2 =>
        rcases List.mem_cons.mp h with h | h
        · exact .inl h
        · exact .inr (List.mem_cons_of_mem _ h)
      · rcases List.mem_cons.mp h with h | h
        · exact .inr (by simp [h])
        · exact (ih h).imp_right (List.mem_cons_of_mem _)

/-- A listed byte always has a specified value, so it never equals what an unlisted address reads as. -/
theorem Memory.listed_ne_unlisted (v : Byte) : some v ≠ Memory.unlisted := by
  simp [Memory.unlisted]

theorem Memory.wf_iff (m : Memory) : Memory.wf m ↔ m.Pairwise (fun c d => c.1 < d.1) := by
  simp [Memory.wf, Memory.unlisted]

theorem Memory.wf_nil : Memory.wf [] := by simp [Memory.wf]

/-- Writing a byte keeps the canonical form. -/
theorem Memory.wf_set {m : Memory} (a : Nat) (v : Byte) (h : Memory.wf m) : Memory.wf (m.set a v) := by
  rw [Memory.wf_iff] at *
  induction m with
  | nil => simp [Memory.set]
  | cons d rest ih =>
    obtain ⟨b, w⟩ := d
    obtain ⟨hb, hr⟩ := List.pairwise_cons.mp h
    unfold Memory.set
    split
    · next hab =>
      refine List.pairwise_cons.mpr ⟨fun c hc => ?_, h⟩
      rcases List.mem_cons.mp hc with rfl | hc
      · exact hab
      · exact lt_trans hab (hb c hc)
    · split
      · next h1 h2 => subst h2; exact List.pairwise_cons.mpr ⟨hb, hr⟩
      · next h1 h2 =>
        refine List.pairwise_cons.mpr ⟨fun c hc => ?_, ih hr⟩
        rcases Memory.mem_set hc with rfl | hc
        · show b < a
          omega
        · exact hb c hc

/-- Writing a byte below a bound keeps every listed address below it. -/
theorem Memory.inside_set {m : Memory} {a bound : Nat} (v : Byte) (ha : a < bound) (h : ∀ c ∈ m, c.1 < bound) :
    ∀ c ∈ m.set a v, c.1 < bound := by
  intro c hc
  rcases Memory.mem_set hc with rfl | hc
  · exact ha
  · exact h c hc

end Sys2Proof.Machine
end

