-- ==== Sys2Proof/Laws/Loops.lean ====
section
/-! SUPPORT. What the loops over pixels do: `pixelLoop` of the colour filters and `copyPixels` of the geometric
transforms, byte by byte when the host left the footprint alone, and as a frame in every state. -/

namespace Sys2Proof.Machine

/-- A state with its memory replaced. -/
def State.withMem (s : State) (m : Memory) : State := { s with mem := m }

@[simp] theorem State.withMem_mem (s : State) (m : Memory) : (s.withMem m).mem = m := rfl
@[simp] theorem State.withMem_self (s : State) : s.withMem s.mem = s := rfl
@[simp] theorem State.withMem_tainted (s : State) (m : Memory) : (s.withMem m).tainted = s.tainted := rfl
@[simp] theorem State.withMem_withMem (s : State) (m n : Memory) : (s.withMem m).withMem n = s.withMem n := rfl
@[simp] theorem State.withMem_byteAt (s : State) (m : Memory) (a : Nat) : (s.withMem m).byteAt a = m.byteAt a := rfl
theorem State.setByte_eq_withMem (s : State) (a : Nat) (v : Byte) : s.setByte a v = s.withMem (s.mem.set a v) := rfl
theorem State.byteAt_eq (s : State) (a : Nat) : s.byteAt a = s.mem.byteAt a := rfl

/-- The memory after `MemWrite(a, 3, (r, g, b))`. -/
def Memory.setColour (m : Memory) (a : Nat) (r g b : Byte) : Memory :=
  ((m.set a r).set (a + 1) g).set (a + 2) b

/-- The memory after `MemWrite(d, 4, (c0, c1, c2, c3))`. -/
def Memory.setPixel (m : Memory) (d : Nat) (c0 c1 c2 c3 : Byte) : Memory :=
  (((m.set d c0).set (d + 1) c1).set (d + 2) c2).set (d + 3) c3

theorem Memory.byteAt_setColour (m : Memory) (a x : Nat) (r g b : Byte) :
    (m.setColour a r g b).byteAt x =
      if x = a then r else if x = a + 1 then g else if x = a + 2 then b else m.byteAt x := by
  simp only [Memory.setColour, Memory.byteAt_set]
  split_ifs <;> first | rfl | omega

theorem Memory.byteAt_setPixel (m : Memory) (d x : Nat) (c0 c1 c2 c3 : Byte) :
    (m.setPixel d c0 c1 c2 c3).byteAt x =
      if x = d then c0 else if x = d + 1 then c1 else if x = d + 2 then c2 else if x = d + 3 then c3
      else m.byteAt x := by
  simp only [Memory.setPixel, Memory.byteAt_set]
  split_ifs <;> first | rfl | omega

theorem State.storeColour_untainted {s : State} (h : s.tainted = false) (a : Nat) (r g b : Byte) :
    s.storeColour a r g b = s.withMem (s.mem.setColour a r g b) := by
  unfold State.storeColour
  rw [State.storeByte_untainted h, State.storeByte_untainted (by simpa using h),
    State.storeByte_untainted (by simpa using h)]
  rfl

theorem State.storePixel_untainted {s : State} (h : s.tainted = false) (d : Nat) (c0 c1 c2 c3 : Byte) :
    s.storePixel d c0 c1 c2 c3 = s.withMem (s.mem.setPixel d c0 c1 c2 c3) := by
  unfold State.storePixel
  rw [State.storeByte_untainted h, State.storeByte_untainted (by simpa using h),
    State.storeByte_untainted (by simpa using h), State.storeByte_untainted (by simpa using h)]
  rfl

/-- What a store can change, in every state: bytes of memory inside a region, and the count of draws. -/
structure StoresOnly (s t : State) (inside : Nat → Prop) : Prop where
  rest : t = { s with mem := t.mem, draws := t.draws }
  frame : ∀ a, ¬ inside a → t.byteAt a = s.byteAt a
  wf : Memory.wf s.mem → Memory.wf t.mem
  bound : ∀ n, (∀ a, inside a → a < n) → (∀ c ∈ s.mem, c.1 < n) → ∀ c ∈ t.mem, c.1 < n
  draws : s.tainted = false → t.draws = s.draws

theorem StoresOnly.refl (s : State) (inside : Nat → Prop) : StoresOnly s s inside :=
  ⟨rfl, fun _ _ => rfl, id, fun _ _ h => h, fun _ => rfl⟩

theorem StoresOnly.tainted {s t : State} {inside : Nat → Prop} (h : StoresOnly s t inside) : t.tainted = s.tainted := by
  rw [h.rest]

theorem StoresOnly.trans {s t u : State} {inside : Nat → Prop} (h : StoresOnly s t inside)
    (k : StoresOnly t u inside) : StoresOnly s u inside := by
  refine ⟨?_, fun a ha => (k.frame a ha).trans (h.frame a ha), fun w => k.wf (h.wf w),
    fun n hn hs => k.bound n hn (h.bound n hn hs), fun w => (k.draws (h.tainted.trans w)).trans (h.draws w)⟩
  have hr := h.rest
  have kr := k.rest
  rw [hr] at kr
  exact kr

theorem StoresOnly.mono {s t : State} {inside wider : Nat → Prop} (h : StoresOnly s t inside)
    (hw : ∀ a, inside a → wider a) : StoresOnly s t wider :=
  ⟨h.rest, fun a ha => h.frame a (fun hi => ha (hw a hi)), h.wf,
    fun n hn => h.bound n (fun a ha => hn a (hw a ha)), h.draws⟩

theorem storeByte_storesOnly (s : State) (a : Nat) (v : Byte) : StoresOnly s (s.storeByte a v) (· = a) := by
  refine ⟨s.storeByte_eq a v, fun x hx => ?_, fun w => ?_, fun n hn hs => ?_, fun w => ?_⟩
  · rw [State.byteAt_eq, State.byteAt_eq, State.storeByte_mem, Memory.byteAt_set, if_neg hx]
  · rw [State.storeByte_mem]; exact Memory.wf_set _ _ w
  · rw [State.storeByte_mem]; exact Memory.inside_set _ (hn a rfl) hs
  · rw [State.storeByte_untainted w]; rfl

theorem storeColour_storesOnly (s : State) (a : Nat) (r g b : Byte) :
    StoresOnly s (s.storeColour a r g b) (fun x => a ≤ x ∧ x < a + 3) :=
  (((storeByte_storesOnly s a r).mono (by intro x h; omega)).trans
    ((storeByte_storesOnly _ (a + 1) g).mono (by intro x h; omega))).trans
    ((storeByte_storesOnly _ (a + 2) b).mono (by intro x h; omega))

theorem storePixel_storesOnly (s : State) (d : Nat) (c0 c1 c2 c3 : Byte) :
    StoresOnly s (s.storePixel d c0 c1 c2 c3) (fun x => d ≤ x ∧ x < d + 4) :=
  ((((storeByte_storesOnly s d c0).mono (by intro x h; omega)).trans
    ((storeByte_storesOnly _ (d + 1) c1).mono (by intro x h; omega))).trans
    ((storeByte_storesOnly _ (d + 2) c2).mono (by intro x h; omega))).trans
    ((storeByte_storesOnly _ (d + 3) c3).mono (by intro x h; omega))

/-- The colour bytes of the pixels `first .. first + n - 1` of a buffer: the bytes a filter's loop may write. -/
def colourBytes (base first n : Nat) (a : Nat) : Prop :=
  ∃ k, first ≤ k ∧ k < first + n ∧ base + 4 * k ≤ a ∧ a < base + 4 * k + 3

/-- A loop whose every turn only stores inside a region only stores inside it. -/
theorem pixelLoop_storesOnly {body : Nat → State → Option State} {inside : Nat → Prop} (n first : Nat) {s t : State}
    (hbody : ∀ k, first ≤ k → k < first + n → ∀ u v, body k u = some v → StoresOnly u v inside)
    (h : pixelLoop body n first s = some t) : StoresOnly s t inside := by
  induction n generalizing first s with
  | zero => simp only [pixelLoop, Option.some.injEq] at h; subst h; exact .refl s _
  | succ n ih =>
    simp only [pixelLoop] at h
    split at h
    · next u hu =>
      exact (hbody first le_rfl (by omega) s u hu).trans
        (ih (first + 1) (fun k h1 h2 => hbody k (by omega) (by omega)) h)
    · cases h

/-- A loop whose every turn answers answers. -/
theorem pixelLoop_isSome {body : Nat → State → Option State} (n first : Nat) (s : State)
    (hbody : ∀ k, first ≤ k → k < first + n → ∀ u, (body k u).isSome) : (pixelLoop body n first s).isSome := by
  induction n generalizing first s with
  | zero => rfl
  | succ n ih =>
    obtain ⟨u, hu⟩ := Option.isSome_iff_exists.mp (hbody first le_rfl (by omega) s)
    simp only [pixelLoop, hu]
    exact ih (first + 1) u (fun k h1 h2 => hbody k (by omega) (by omega))

/-- One turn of a recolouring loop stores the pixel's three colour bytes. -/
theorem recolour_storesOnly {f : Byte → Byte → Byte → Option (Byte × Byte × Byte)} {a : Nat} {s t : State}
    (h : recolour f a s = some t) : StoresOnly s t (fun x => a ≤ x ∧ x < a + 3) := by
  unfold recolour at h
  split at h
  · next r g b hf => cases h; exact storeColour_storesOnly s a r g b
  · cases h

theorem recolour_isSome {f : Byte → Byte → Byte → Option (Byte × Byte × Byte)}
    (hf : ∀ r g b, (f r g b).isSome) (a : Nat) (s : State) : (recolour f a s).isSome := by
  obtain ⟨⟨r, g, b⟩, h⟩ := Option.isSome_iff_exists.mp (hf (s.byteAt a) (s.byteAt (a + 1)) (s.byteAt (a + 2)))
  simp [recolour, h]

/-- A recolouring loop, byte by byte. `S k m` is the state before pixel k with memory m: for every filter but LOFI it
is the accepted state with that memory; for LOFI the generator has moved on too. -/
theorem pixelLoop_recolour {body : Nat → State → Option State} {S : Nat → Memory → State}
    {f : Nat → Byte → Byte → Byte → Option (Byte × Byte × Byte)} {base : Nat}
    (hbody : ∀ k m, body k (S k m) = recolour (f k) (base + 4 * k) (S (k + 1) m))
    (hmem : ∀ k m, (S k m).mem = m) (hset : ∀ k m m', (S k m).withMem m' = S k m')
    (htaint : ∀ k m, (S k m).tainted = false)
    (n first : Nat) (m : Memory)
    (hf : ∀ k, first ≤ k → k < first + n →
      (f k (m.byteAt (base + 4 * k)) (m.byteAt (base + 4 * k + 1)) (m.byteAt (base + 4 * k + 2))).isSome) :
    ∃ m', pixelLoop body n first (S first m) = some (S (first + n) m') ∧
      (∀ k, first ≤ k → k < first + n →
        f k (m.byteAt (base + 4 * k)) (m.byteAt (base + 4 * k + 1)) (m.byteAt (base + 4 * k + 2))
          = some (m'.byteAt (base + 4 * k), m'.byteAt (base + 4 * k + 1), m'.byteAt (base + 4 * k + 2))) ∧
      (∀ a, ¬ colourBytes base first n a → m'.byteAt a = m.byteAt a) := by
  induction n generalizing first m with
  | zero => exact ⟨m, rfl, fun k h1 h2 => by omega, fun a _ => rfl⟩
  | succ n ih =>
    obtain ⟨⟨r, g, b⟩, h0⟩ := Option.isSome_iff_exists.mp (hf first le_rfl (by omega))
    have hturn : body first (S first m) = some (S (first + 1) (m.setColour (base + 4 * first) r g b)) := by
      rw [hbody]
      have hb : ∀ a, (S (first + 1) m).byteAt a = m.byteAt a := fun a => by rw [State.byteAt_eq, hmem]
      simp only [recolour, hb, h0]
      rw [State.storeColour_untainted (htaint _ _), hmem, hset]
    have hsame : ∀ k, first + 1 ≤ k → ∀ j, j < 4 →
        (m.setColour (base + 4 * first) r g b).byteAt (base + 4 * k + j) = m.byteAt (base + 4 * k + j) := by
      intro k hk j hj
      rw [Memory.byteAt_setColour, if_neg (by omega), if_neg (by omega), if_neg (by omega)]
    have hsame0 : ∀ k, first + 1 ≤ k →
        (m.setColour (base + 4 * first) r g b).byteAt (base + 4 * k) = m.byteAt (base + 4 * k) :=
      fun k hk => hsame k hk 0 (by omega)
    obtain ⟨m', hloop, hpix, hframe⟩ := ih (first + 1) (m.setColour (base + 4 * first) r g b) (by
      intro k h1 h2
      rw [hsame0 k h1, hsame k h1 1 (by omega), hsame k h1 2 (by omega)]
      exact hf k (by omega) (by omega))
    refine ⟨m', ?_, ?_, ?_⟩
    · simp only [pixelLoop, hturn]
      rw [hloop]
      congr 2
      omega
    · intro k h1 h2
      by_cases hk : k = first
      · subst hk
        have h3 : ∀ j, j < 3 → m'.byteAt (base + 4 * k + j) =
            (m.setColour (base + 4 * k) r g b).byteAt (base + 4 * k + j) := by
          intro j hj
          refine hframe _ ?_
          rintro ⟨l, hl1, hl2, hl3, hl4⟩
          omega
        rw [h0, show m'.byteAt (base + 4 * k) = _ from h3 0 (by omega), h3 1 (by omega), h3 2 (by omega)]
        simp [Memory.byteAt_setColour]
      · have := hpix k (by omega) (by omega)
        rwa [hsame0 k (by omega), hsame k (by omega) 1 (by omega), hsame k (by omega) 2 (by omega)] at this
    · intro a ha
      rw [hframe a (fun ⟨k, h1, h2, h3⟩ => ha ⟨k, by omega, by omega, h3⟩), Memory.byteAt_setColour,
        if_neg (fun h => ha ⟨first, by omega, by omega, by omega, by omega⟩),
        if_neg (fun h => ha ⟨first, by omega, by omega, by omega, by omega⟩),
        if_neg (fun h => ha ⟨first, by omega, by omega, by omega, by omega⟩)]

/-- The copying loop only stores inside D. -/
theorem copyPixels_storesOnly (src : Nat → Option Nat) (dst n first : Nat) (s : State) :
    StoresOnly s (copyPixels src dst n first s) (fun a => dst + 4 * first ≤ a ∧ a < dst + 4 * (first + n)) := by
  induction n generalizing first s with
  | zero => exact .refl s _
  | succ n ih =>
    unfold copyPixels
    refine StoresOnly.trans ?_ ((ih (first + 1) _).mono (by intro a h; omega))
    unfold State.copyPixel
    split <;> exact (storePixel_storesOnly s _ _ _ _ _).mono (by intro a h; omega)

/-- The pixel a copying loop puts at a destination: the bytes at the source address, or zeros (R200). -/
def copiedByte (m : Memory) (src : Option Nat) (j : Nat) : Byte :=
  match src with
  | some p => m.byteAt (p + j)
  | none => 0

/-- The copying loop, byte by byte, when no source pixel lies in D. -/
theorem copyPixels_untainted {src : Nat → Option Nat} {dst : Nat} (n first : Nat) {s : State}
    (ht : s.tainted = false)
    (hsrc : ∀ k, first ≤ k → k < first + n → ∀ p, src k = some p →
      p + 4 ≤ dst + 4 * first ∨ dst + 4 * (first + n) ≤ p) :
    ∃ m', copyPixels src dst n first s = s.withMem m' ∧
      (∀ k, first ≤ k → k < first + n → ∀ j, j < 4 → m'.byteAt (dst + 4 * k + j) = copiedByte s.mem (src k) j) ∧
      (∀ a, ¬ (dst + 4 * first ≤ a ∧ a < dst + 4 * (first + n)) → m'.byteAt a = s.mem.byteAt a) := by
  induction n generalizing first s with
  | zero => exact ⟨s.mem, rfl, fun k h1 h2 => by omega, fun a _ => rfl⟩
  | succ n ih =>
    obtain ⟨m₁, hm₁, hpix₁, hout₁⟩ : ∃ m₁ : Memory,
        s.copyPixel (dst + 4 * first) (src first) = s.withMem m₁ ∧
        (∀ j, j < 4 → m₁.byteAt (dst + 4 * first + j) = copiedByte s.mem (src first) j) ∧
        (∀ a, ¬ (dst + 4 * first ≤ a ∧ a < dst + 4 * first + 4) → m₁.byteAt a = s.mem.byteAt a) := by
      cases hsf : src first with
      | none =>
        refine ⟨_, State.storePixel_untainted ht _ _ _ _ _, fun j hj => ?_, fun a ha => ?_⟩
        · rw [Memory.byteAt_setPixel]
          simp only [copiedByte]
          split_ifs <;> first | rfl | omega
        · rw [Memory.byteAt_setPixel, if_neg (by omega), if_neg (by omega), if_neg (by omega), if_neg (by omega)]
      | some p =>
        refine ⟨_, State.storePixel_untainted ht _ _ _ _ _, fun j hj => ?_, fun a ha => ?_⟩
        · rw [Memory.byteAt_setPixel]
          simp only [copiedByte, State.byteAt_eq]
          have : j = 0 ∨ j = 1 ∨ j = 2 ∨ j = 3 := by omega
          rcases this with rfl | rfl | rfl | rfl <;> simp
        · rw [Memory.byteAt_setPixel, if_neg (by omega), if_neg (by omega), if_neg (by omega), if_neg (by omega)]
    obtain ⟨m', hloop, hpix, hout⟩ := ih (first + 1) (s := s.withMem m₁) ht (by
      intro k h1 h2 p hp
      have := hsrc k (by omega) (by omega) p hp
      omega)
    refine ⟨m', ?_, ?_, ?_⟩
    · simp only [copyPixels, hm₁]
      rw [hloop]
      rfl
    · intro k h1 h2 j hj
      by_cases hk : k = first
      · subst hk
        rw [hout _ (by omega), State.withMem_mem, hpix₁ j hj]
      · rw [hpix k (by omega) (by omega) j hj, State.withMem_mem]
        cases hsk : src k with
        | none => rfl
        | some p =>
          have := hsrc k (by omega) (by omega) p hsk
          exact hout₁ _ (by omega)
    · intro a ha
      rw [hout a (by omega), State.withMem_mem, hout₁ a (by omega)]

end Sys2Proof.Machine
end

