-- ==== Sys2Proof/Laws/Exec.lean ====
section
/-! SUPPORT. What each shared shape of a command answers, said once: the filters (`runFilter`, `recolourSource`, LOFI's
loop) and the geometric transforms (`runTransform`). -/

namespace Sys2Proof.Machine

theorem finish_some (s : State) : finish (some s) = .next (completeOk s) := rfl

theorem runFilter_of_error {i : Instr} {n : Nat} {body : Nat → State → Option State} {s : State} {e : CmdError}
    (h : commandError i s = some e) : runFilter i n body s = .next (raiseError e s) := by
  simp [runFilter, h]

theorem runFilter_of_ok {i : Instr} {n : Nat} {body : Nat → State → Option State} {s : State}
    (h : commandError i s = none) : runFilter i n body s = finish (pixelLoop body n 0 s) := by
  simp [runFilter, h]

theorem runTransform_of_error {i : Instr} {d : Region} {src : Nat → Option Nat} {s : State} {e : CmdError}
    (h : commandError i s = some e) : runTransform i d src s = .next (raiseError e s) := by
  simp [runTransform, h]

theorem runTransform_of_ok {i : Instr} {d : Region} {src : Nat → Option Nat} {s : State} (h : commandError i s = none) :
    runTransform i d src s = .next (completeOk ((copyPixels src d.base (d.len / 4) 0 s).setDstLen d.len)) := by
  simp [runTransform, h]

theorem finish_eq_next {o : Option State} {t : State} (h : finish o = .next t) : ∃ u, o = some u ∧ t = completeOk u := by
  cases o with
  | none => simp [finish] at h
  | some u => simp only [finish, Host.Outcome.next.injEq] at h; exact ⟨u, rfl, h.symm⟩

/-- A filter whose pixel function answers for every pixel completes, in every state. -/
theorem runFilter_completes {i : Instr} {n : Nat} {f : Nat → Byte → Byte → Byte → Option (Byte × Byte × Byte)}
    {base : Nat} {s : State} (h : commandError i s = none)
    (hf : ∀ k, k < n → ∀ r g b, (f k r g b).isSome) :
    ∃ u, runFilter i n (fun k t => recolour (f k) (base + 4 * k) t) s = .next (completeOk u) ∧
      StoresOnly s u (colourBytes base 0 n) := by
  obtain ⟨u, hu⟩ := Option.isSome_iff_exists.mp
    (pixelLoop_isSome (body := fun k t => recolour (f k) (base + 4 * k) t) n 0 s
      (fun k _ h2 v => recolour_isSome (hf k (by omega)) _ v))
  refine ⟨u, by rw [runFilter_of_ok h, hu, finish_some], pixelLoop_storesOnly n 0 ?_ hu⟩
  intro k h1 h2 v w hw
  exact (recolour_storesOnly hw).mono (fun a ha => ⟨k, h1, h2, ha.1, ha.2⟩)

/-- A filter byte by byte, when the host left the footprint alone. -/
theorem runFilter_untainted {i : Instr} {n : Nat} {f : Nat → Byte → Byte → Byte → Option (Byte × Byte × Byte)}
    {base : Nat} {s : State} (h : commandError i s = none) (ht : s.tainted = false)
    (hf : ∀ k, k < n → ∀ r g b, (f k r g b).isSome) :
    ∃ m, runFilter i n (fun k t => recolour (f k) (base + 4 * k) t) s = .next (completeOk (s.withMem m)) ∧
      (∀ k, k < n → f k (s.byteAt (base + 4 * k)) (s.byteAt (base + 4 * k + 1)) (s.byteAt (base + 4 * k + 2))
        = some (m.byteAt (base + 4 * k), m.byteAt (base + 4 * k + 1), m.byteAt (base + 4 * k + 2))) ∧
      (∀ a, ¬ colourBytes base 0 n a → m.byteAt a = s.byteAt a) := by
  obtain ⟨m, hloop, hpix, hout⟩ := pixelLoop_recolour (body := fun k t => recolour (f k) (base + 4 * k) t)
    (S := fun _ m => s.withMem m) (f := f) (base := base) (fun _ _ => rfl) (fun _ _ => rfl) (fun _ _ _ => rfl)
    (fun _ _ => ht) n 0 s.mem (fun k _ h2 => hf k (by omega) _ _ _)
  rw [State.withMem_self] at hloop
  exact ⟨m, by rw [runFilter_of_ok h, hloop, finish_some], fun k hk => hpix k (by omega) (by omega), hout⟩

/-- The generator after n transitions (R124). -/
def advanceBy (n : Nat) (s : Word) : Word := advance^[n] s

theorem advanceBy_succ (n : Nat) (s : Word) : advanceBy (n + 1) s = advance (advanceBy n s) :=
  Function.iterate_succ_apply' advance n s

/-- LOFI's state before pixel k with memory m (R165). -/
def lofiState (s : State) (k : Nat) (m : Memory) : State := { s with mem := m, prngState := advanceBy k seed }

/-- LOFI byte by byte, when the host left the footprint alone: pixel k takes the (k + 1)-st draw (R165). -/
theorem execLofi_untainted {s : State} (h : commandError .lofi s = none) (ht : s.tainted = false) :
    ∃ m, execLofi s = .next (completeOk (lofiState s (srcPixels s) m)) ∧
      (∀ k, k < srcPixels s →
        lofiPixel s.params.fmt (s.params.lofiNoise.get (drawIndex (advanceBy (k + 1) seed)))
            (s.byteAt (zext s.regs.srcBase + 4 * k)) (s.byteAt (zext s.regs.srcBase + 4 * k + 1))
            (s.byteAt (zext s.regs.srcBase + 4 * k + 2))
          = some (m.byteAt (zext s.regs.srcBase + 4 * k), m.byteAt (zext s.regs.srcBase + 4 * k + 1),
              m.byteAt (zext s.regs.srcBase + 4 * k + 2))) ∧
      (∀ a, ¬ colourBytes (zext s.regs.srcBase) 0 (srcPixels s) a → m.byteAt a = s.byteAt a) := by
  have hdraw : ∀ k m, (lofiState s k m).drawNoise = lofiState s (k + 1) m := by
    intro k m
    simp only [lofiState, State.drawNoise, advanceBy_succ]
  obtain ⟨m, hloop, hpix, hout⟩ := pixelLoop_recolour (body := fun k t => lofiStep (pixelAddr s k) t)
    (S := lofiState s)
    (f := fun k => lofiPixel s.params.fmt (s.params.lofiNoise.get (drawIndex (advanceBy (k + 1) seed))))
    (base := zext s.regs.srcBase)
    (fun k m => by simp only [lofiStep, hdraw]; rfl) (fun _ _ => rfl) (fun _ _ _ => rfl)
    (fun _ _ => ht) (srcPixels s) 0 s.mem (fun k _ _ => lofiPixel_isSome _ _ _ _ _)
  have h0 : lofiState s 0 s.mem = { s with prngState := seed } := rfl
  rw [h0] at hloop
  refine ⟨m, ?_, fun k hk => hpix k (by omega) (by omega), hout⟩
  simp only [execLofi, h]
  rw [hloop, finish_some, Nat.zero_add]

/-- LOFI in every state: it completes, having stored colour bytes of S and moved the generator. -/
theorem execLofi_completes {s : State} (h : commandError .lofi s = none) :
    ∃ u, execLofi s = .next (completeOk u) ∧
      u = { s with mem := u.mem, draws := u.draws, prngState := advanceBy (srcPixels s) seed } ∧
      (∀ a, ¬ colourBytes (zext s.regs.srcBase) 0 (srcPixels s) a → u.byteAt a = s.byteAt a) ∧
      (Memory.wf s.mem → Memory.wf u.mem) ∧
      (∀ n, (∀ a, colourBytes (zext s.regs.srcBase) 0 (srcPixels s) a → a < n) → (∀ c ∈ s.mem, c.1 < n) →
        ∀ c ∈ u.mem, c.1 < n) ∧ (s.tainted = false → u.draws = s.draws) := by
  -- after k turns the state is the accepted one with another memory, other draws and a generator moved k times
  have key : ∀ n first (v : State), first + n ≤ srcPixels s →
      ∃ u, pixelLoop (fun k t => lofiStep (pixelAddr s k) t) n first v = some u ∧
        u = { v with mem := u.mem, draws := u.draws, prngState := advanceBy n v.prngState } ∧
        (∀ a, ¬ colourBytes (zext s.regs.srcBase) 0 (srcPixels s) a → u.byteAt a = v.byteAt a) ∧
        (Memory.wf v.mem → Memory.wf u.mem) ∧
        (∀ b, (∀ a, colourBytes (zext s.regs.srcBase) 0 (srcPixels s) a → a < b) → (∀ c ∈ v.mem, c.1 < b) →
          ∀ c ∈ u.mem, c.1 < b) ∧ (v.tainted = false → u.draws = v.draws) := by
    intro n
    induction n with
    | zero => exact fun first v _ => ⟨v, rfl, rfl, fun _ _ => rfl, id, fun _ _ h => h, fun _ => rfl⟩
    | succ n ih =>
      intro first v hn
      obtain ⟨w, hw⟩ := Option.isSome_iff_exists.mp
        (recolour_isSome (f := lofiPixel v.params.fmt (v.params.lofiNoise.get (drawIndex v.drawNoise.prngState)))
          (fun r g b => lofiPixel_isSome _ _ r g b) (pixelAddr s first) v.drawNoise)
      have hst := recolour_storesOnly hw
      have hin : ∀ a, pixelAddr s first ≤ a ∧ a < pixelAddr s first + 3 →
          colourBytes (zext s.regs.srcBase) 0 (srcPixels s) a :=
        fun a ha => ⟨first, by omega, by omega, ha.1, ha.2⟩
      obtain ⟨u, hu, hrest, hfr, hwf, hbd, hdr⟩ := ih (first + 1) w (by omega)
      refine ⟨u, ?_, ?_, fun a ha => ?_, fun h => hwf (hst.wf h), fun b hb hv => hbd b hb
        (hst.bound b (fun a ha => hb a (hin a ha)) hv), fun h => ?_⟩
      · have : lofiStep (pixelAddr s first) v = some w := hw
        simp only [pixelLoop, this]
        exact hu
      · have hwr := hst.rest
        have hprng : w.prngState = advance v.prngState := by rw [hwr]; rfl
        rw [hrest, hprng]
        rw [show advanceBy n (advance v.prngState) = advanceBy (n + 1) v.prngState from
          (Function.iterate_succ_apply advance n v.prngState).symm]
        rw [hwr]
        rfl
      · rw [hfr a ha]
        exact hst.frame a (fun hi => ha (hin a hi))
      · rw [hdr (hst.tainted.trans h)]
        exact hst.draws h
  obtain ⟨u, hu, hrest, hfr, hwf, hbd, hdr⟩ := key (srcPixels s) 0 { s with prngState := seed } (by omega)
  refine ⟨u, ?_, hrest, hfr, hwf, hbd, hdr⟩
  simp only [execLofi, h]
  rw [hu, finish_some]

/-- A transform in every state: it completes, having stored bytes of D and DST_LEN. -/
theorem runTransform_completes {i : Instr} {d : Region} {src : Nat → Option Nat} {s : State}
    (h : commandError i s = none) (hd : d.len % 4 = 0) :
    ∃ u, runTransform i d src s = .next (completeOk (u.setDstLen d.len)) ∧
      StoresOnly s u (fun a => d.base ≤ a ∧ a < d.base + d.len) := by
  refine ⟨_, runTransform_of_ok h, (copyPixels_storesOnly src d.base (d.len / 4) 0 s).mono ?_⟩
  intro a ha
  omega

/-- A transform byte by byte, when the host left the footprint alone and no source pixel lies in D (R200). -/
theorem runTransform_untainted {i : Instr} {d : Region} {src : Nat → Option Nat} {s : State}
    (h : commandError i s = none) (ht : s.tainted = false) (hd : d.len % 4 = 0)
    (hsrc : ∀ k, k < d.len / 4 → ∀ p, src k = some p → p + 4 ≤ d.base ∨ d.base + d.len ≤ p) :
    ∃ m, runTransform i d src s = .next (completeOk ((s.withMem m).setDstLen d.len)) ∧
      (∀ k, k < d.len / 4 → ∀ j, j < 4 → m.byteAt (d.base + 4 * k + j) = copiedByte s.mem (src k) j) ∧
      (∀ a, ¬ (d.base ≤ a ∧ a < d.base + d.len) → m.byteAt a = s.byteAt a) := by
  obtain ⟨m, hloop, hpix, hout⟩ := copyPixels_untainted (src := src) (dst := d.base) (d.len / 4) 0 ht (by
    intro k h1 h2 p hp
    have := hsrc k (by omega) p hp
    omega)
  refine ⟨m, by rw [runTransform_of_ok h, hloop], fun k hk j hj => hpix k (by omega) (by omega) j hj,
    fun a ha => hout a (by omega)⟩

end Sys2Proof.Machine
end

