-- ==== Sys2Proof/Laws/Free.lean ====
section
/-! SUPPORT. What becomes of bytes with no specified value: the stores of a command into whose footprint the host wrote
(20_memory.md R71 clause 4) and the bytes an abandoned command could have written (70_reset_and_hazards.md R291). -/

namespace Sys2Proof.Machine

/-- Every byte inside ends as a free draw taken on the way; no other byte moves. -/
structure FreeStores (s t : State) (inside : Nat → Prop) : Prop where
  mono : s.draws ≤ t.draws
  free : ∀ a, inside a → ∃ n, s.draws ≤ n ∧ n < t.draws ∧ t.byteAt a = Config.freeByte n a
  frame : ∀ a, ¬ inside a → t.byteAt a = s.byteAt a

theorem FreeStores.refl (s : State) : FreeStores s s (fun _ => False) :=
  ⟨le_rfl, fun _ h => h.elim, fun _ _ => rfl⟩

theorem FreeStores.trans {s t u : State} {I J : Nat → Prop} (h : FreeStores s t I) (k : FreeStores t u J) :
    FreeStores s u (fun a => I a ∨ J a) := by
  refine ⟨h.mono.trans k.mono, fun a ha => ?_, fun a ha => ?_⟩
  · by_cases hj : J a
    · obtain ⟨n, h1, h2, h3⟩ := k.free a hj
      exact ⟨n, h.mono.trans h1, h2, h3⟩
    · obtain ⟨n, h1, h2, h3⟩ := h.free a (ha.resolve_right hj)
      exact ⟨n, h1, lt_of_lt_of_le h2 k.mono, (k.frame a hj).trans h3⟩
  · rw [not_or] at ha
    exact (k.frame a ha.2).trans (h.frame a ha.1)

theorem FreeStores.congr {s t : State} {I J : Nat → Prop} (h : FreeStores s t I) (e : ∀ a, J a ↔ I a) : FreeStores s t J :=
  ⟨h.mono, fun a ha => h.free a ((e a).mp ha), fun a ha => h.frame a (fun hi => ha ((e a).mpr hi))⟩

/-- One byte forgotten. -/
theorem forgetByte_free (s : State) (a : Nat) : FreeStores s (s.forgetByte a) (· = a) := by
  refine ⟨Nat.le_succ _, ?_, fun b hb => ?_⟩
  · rintro b rfl
    refine ⟨s.draws, le_rfl, Nat.lt_succ_self _, ?_⟩
    show (s.mem.set b _).byteAt b = _
    rw [Memory.byteAt_set, if_pos rfl]
  · show (s.mem.set a _).byteAt b = _
    rw [Memory.byteAt_set, if_neg hb]; rfl

theorem forgetBytes_free (n a : Nat) (s : State) : FreeStores s (s.forgetBytes a n) (fun b => a ≤ b ∧ b < a + n) := by
  induction n generalizing a s with
  | zero => exact (FreeStores.refl s).congr (by intro b; constructor <;> intro h <;> [omega; exact h.elim])
  | succ n ih =>
    exact ((forgetByte_free s a).trans (ih (a + 1) (s.forgetByte a))).congr (by intro b; omega)

theorem storeByte_free {s : State} (h : s.tainted = true) (a : Nat) (v : Byte) :
    FreeStores s (s.storeByte a v) (· = a) ∧ (s.storeByte a v).tainted = true := by
  unfold State.storeByte
  rw [if_pos h]
  exact ⟨forgetByte_free s a, h⟩

theorem storeColour_free {s : State} (h : s.tainted = true) (a : Nat) (r g b : Byte) :
    FreeStores s (s.storeColour a r g b) (fun x => a ≤ x ∧ x < a + 3) ∧ (s.storeColour a r g b).tainted = true := by
  obtain ⟨h1, t1⟩ := storeByte_free h a r
  obtain ⟨h2, t2⟩ := storeByte_free t1 (a + 1) g
  obtain ⟨h3, t3⟩ := storeByte_free t2 (a + 2) b
  exact ⟨((h1.trans h2).trans h3).congr (by intro x; omega), t3⟩

theorem storePixel_free {s : State} (h : s.tainted = true) (a : Nat) (c0 c1 c2 c3 : Byte) :
    FreeStores s (s.storePixel a c0 c1 c2 c3) (fun x => a ≤ x ∧ x < a + 4) ∧ (s.storePixel a c0 c1 c2 c3).tainted = true := by
  obtain ⟨h1, t1⟩ := storeByte_free h a c0
  obtain ⟨h2, t2⟩ := storeByte_free t1 (a + 1) c1
  obtain ⟨h3, t3⟩ := storeByte_free t2 (a + 2) c2
  obtain ⟨h4, t4⟩ := storeByte_free t3 (a + 3) c3
  exact ⟨(((h1.trans h2).trans h3).trans h4).congr (by intro x; omega), t4⟩

/-- The copying loop of a tainted transform. -/
theorem copyPixels_free (src : Nat → Option Nat) (dst n first : Nat) {s : State} (h : s.tainted = true) :
    FreeStores s (copyPixels src dst n first s) (fun a => dst + 4 * first ≤ a ∧ a < dst + 4 * (first + n)) := by
  induction n generalizing first s with
  | zero => exact (FreeStores.refl s).congr (by intro b; constructor <;> intro h <;> [omega; exact h.elim])
  | succ n ih =>
    have hc : FreeStores s (s.copyPixel (dst + 4 * first) (src first)) (fun x => dst + 4 * first ≤ x ∧ x < dst + 4 * first + 4) ∧
        (s.copyPixel (dst + 4 * first) (src first)).tainted = true := by
      unfold State.copyPixel
      split <;> exact storePixel_free h _ _ _ _ _
    exact (hc.1.trans (ih (first + 1) hc.2)).congr (by intro b; omega)

theorem recolour_free {f : Byte → Byte → Byte → Option (Byte × Byte × Byte)} {a : Nat} {s t : State}
    (ht : s.tainted = true) (h : recolour f a s = some t) :
    FreeStores s t (fun x => a ≤ x ∧ x < a + 3) ∧ t.tainted = true := by
  unfold recolour at h
  split at h
  · cases h; exact storeColour_free ht a _ _ _
  · cases h

/-- The pixel loop of a tainted filter. -/
theorem pixelLoop_free {body : Nat → State → Option State} {base : Nat} (n first : Nat) {s t : State}
    (hbody : ∀ k u v, u.tainted = true → body k u = some v →
      FreeStores u v (fun x => base + 4 * k ≤ x ∧ x < base + 4 * k + 3) ∧ v.tainted = true)
    (ht : s.tainted = true) (h : pixelLoop body n first s = some t) :
    FreeStores s t (colourBytes base first n) := by
  induction n generalizing first s with
  | zero =>
    simp only [pixelLoop, Option.some.injEq] at h; subst h
    refine (FreeStores.refl s).congr ?_
    intro a; constructor
    · rintro ⟨k, h1, h2, -⟩; omega
    · exact fun h => h.elim
  | succ n ih =>
    simp only [pixelLoop] at h
    split at h
    · next u hu =>
      obtain ⟨h1, h2⟩ := hbody first s u ht hu
      refine (h1.trans (ih (first + 1) h2 h)).congr ?_
      intro a; constructor
      · rintro ⟨k, k1, k2, k3, k4⟩
        rcases Nat.lt_or_eq_of_le k1 with hlt | rfl
        · exact .inr ⟨k, hlt, by omega, k3, k4⟩
        · exact .inl ⟨k3, k4⟩
      · rintro (⟨k3, k4⟩ | ⟨k, k1, k2, k3, k4⟩)
        · exact ⟨first, le_rfl, by omega, k3, k4⟩
        · exact ⟨k, by omega, by omega, k3, k4⟩
    · cases h

/-- Forgetting bytes moves memory and the count of draws only. -/
theorem forgetBytes_rest (n a : Nat) (s : State) :
    s.forgetBytes a n = { s with mem := (s.forgetBytes a n).mem, draws := (s.forgetBytes a n).draws } := by
  induction n generalizing a s with
  | zero => rfl
  | succ n ih => exact ih (a + 1) (s.forgetByte a)

/-- Reset abandons a command by forgetting bytes only (R291). -/
theorem abandonCommand_rest (s : State) : ∃ m d, abandonCommand s = { s with mem := m, draws := d } := by
  unfold abandonCommand
  split
  · exact ⟨_, _, rfl⟩
  · split
    · exact ⟨_, _, rfl⟩
    · split
      · exact ⟨_, _, rfl⟩
      · exact ⟨_, _, forgetBytes_rest _ _ _⟩

theorem forgetBytes_wf (n a : Nat) (s : State) (h : Memory.wf s.mem) : Memory.wf (s.forgetBytes a n).mem := by
  induction n generalizing a s with
  | zero => exact h
  | succ n ih => exact ih (a + 1) (s.forgetByte a) (Memory.wf_set _ _ h)

theorem forgetBytes_bound (n a b : Nat) (s : State) (hb : a + n ≤ b) (h : ∀ c ∈ s.mem, c.1 < b) :
    ∀ c ∈ (s.forgetBytes a n).mem, c.1 < b := by
  induction n generalizing a s with
  | zero => exact h
  | succ n ih => exact ih (a + 1) (s.forgetByte a) (by omega) (Memory.inside_set _ (by omega) h)

/-- What the running command could write lies inside the pixel memory (R66). -/
theorem region_inside {i : Instr} {s : State} {r : Region} (h : writableRegion i s = some r) :
    r.base + r.len ≤ s.params.memBytes := by
  unfold writableRegion at h
  split at h
  · cases h
  · next hc =>
    have src : SourceOk s → r = srcRegion s → r.base + r.len ≤ s.params.memBytes := by
      rintro ⟨-, h2⟩ h3; rw [h3]; exact h2
    cases i <;> simp only [targetRegion, Option.some.injEq, reduceCtorEq] at h
    · exact src ((commandError_source_none rfl).mp hc) h.symm
    · exact src ((commandError_source_none rfl).mp hc) h.symm
    · exact src ((commandError_source_none rfl).mp hc) h.symm
    · exact src ((commandError_source_none rfl).mp hc) h.symm
    · exact src (commandError_contrast_none.mp hc).1 h.symm
    · obtain ⟨⟨-, h1⟩, -, h2⟩ := commandError_vignette_none.mp hc
      subst h
      simp only [imageRegion, imagePixels, zext] at *
      omega
    · exact src ((commandError_source_none rfl).mp hc) h.symm
    · exact src ((commandError_source_none rfl).mp hc) h.symm
    · exact src ((commandError_source_none rfl).mp hc) h.symm
    · subst h; exact (commandError_resizeNn_none.mp hc).2.1
    · subst h; exact (commandError_crop_none.mp hc).2.2.2.1
    · subst h; exact ((commandError_flip_none rfl).mp hc).2.2.1
    · subst h; exact ((commandError_flip_none rfl).mp hc).2.2.1

end Sys2Proof.Machine
end

