-- ==== Sys2Proof/Laws/PerInstr.lean ====
section
/-! SUPPORT. What is said of each command as syntax: its command word (30_encoding.md R90, R94, R96). -/

namespace Sys2Proof.Laws.Encoding

/-- The command word of a command is well formed: its reserved bits are zero, and its low byte is the opcode its own
rule gives, which the opcode map gives back to the command. -/
def Statement (i : Instr) : Prop :=
  CommandWord.wellFormed (encode i) = true ∧ (encode i).extractLsb' 8 24 = 0 ∧ (encode i).setWidth 8 = i.opcode ∧
    opcodeMap.lookup i.opcode = some i

theorem clamp : Statement .clamp := by unfold Statement; decide
theorem prngDraw : Statement .prngDraw := by unfold Statement; decide
theorem grayscale : Statement .grayscale := by unfold Statement; decide
theorem invert : Statement .invert := by unfold Statement; decide
theorem brightness : Statement .brightness := by unfold Statement; decide
theorem sepia : Statement .sepia := by unfold Statement; decide
theorem contrast : Statement .contrast := by unfold Statement; decide
theorem vignette : Statement .vignette := by unfold Statement; decide
theorem lofi : Statement .lofi := by unfold Statement; decide
theorem vintage : Statement .vintage := by unfold Statement; decide
theorem cyberpunk : Statement .cyberpunk := by unfold Statement; decide
theorem resizeNn : Statement .resizeNn := by unfold Statement; decide
theorem resizeBilinear : Statement .resizeBilinear := by unfold Statement; decide
theorem crop : Statement .crop := by unfold Statement; decide
theorem flipH : Statement .flipH := by unfold Statement; decide
theorem flipV : Statement .flipV := by unfold Statement; decide

end Sys2Proof.Laws.Encoding
end

