-- ==== Sys2Proof/Laws/Step.lean ====
section
/-! SUPPORT. What a command, a host transaction and a step can do, each said once. -/

namespace Sys2Proof

/-- The lanes of a word carry the word (10_state.md R20). -/
theorem wordOfLanes_lanesOfWord (w : Word) : wordOfLanes (lanesOfWord w) = some w := by
  simp only [lanesOfWord, wordOfLanes, Option.some.injEq]
  apply BitVec.eq_of_getLsbD_eq
  intro i hi
  simp only [BitVec.getLsbD_append, BitVec.getLsbD_extractLsb']
  rcases Nat.lt_or_ge i 8 with h0 | h0
  · simp [h0]
  rcases Nat.lt_or_ge i 16 with h1 | h1
  · simp [show ¬ i < 8 by omega, show i - 8 < 8 by omega, show 8 + (i - 8) = i by omega]
  rcases Nat.lt_or_ge i 24 with h2 | h2
  · simp [show ¬ i < 8 by omega, show ¬ i - 8 < 8 by omega, show i - 8 - 8 < 8 by omega,
      show 16 + (i - 8 - 8) = i by omega]
  · simp [show ¬ i < 8 by omega, show ¬ i - 8 < 8 by omega, show ¬ i - 8 - 8 < 8 by omega,
      show i - 8 - 8 - 8 < 8 by omega, show 24 + (i - 8 - 8 - 8) = i by omega]

@[simp] theorem lanesOfWord_length (w : Word) : (lanesOfWord w).length = 4 := rfl

namespace Machine

/-- The offsets of the interface are the word-aligned ones of the window (R20). -/
theorem windowOffset_regBase {p : Params} {off : Nat} (h1 : off < 256) (h2 : off % 4 = 0) :
    windowOffset p (p.regBase + off) 4 = some off := by
  unfold windowOffset
  rw [Nat.add_sub_cancel_left, if_pos ⟨by omega, h1, h2, rfl⟩]

theorem windowOffset_eq_none {p : Params} {off n : Nat} (h : 256 ≤ off ∨ off % 4 ≠ 0 ∨ n ≠ 4) :
    windowOffset p (p.regBase + off) n = none := by
  unfold windowOffset
  rw [Nat.add_sub_cancel_left, if_neg (by omega)]

theorem hostRegRead_at {s : State} {off : Nat} (h1 : off < 256) (h2 : off % 4 = 0) :
    hostRegRead (s.params.regBase + off) 4 s = .next (readOffset off s) := by
  simp [hostRegRead, windowOffset_regBase h1 h2]

theorem hostRegWrite_at {s : State} {off : Nat} (w : Word) (h1 : off < 256) (h2 : off % 4 = 0) :
    hostRegWrite (s.params.regBase + off) (lanesOfWord w) s = .next (writeOffset off w s) := by
  simp [hostRegWrite, windowOffset_regBase h1 h2, wordOfLanes_lanesOfWord]

/-- A word is no command only for one of the two reasons of R93. -/
theorem decode_error_cases {w : Word} {e : DecodeError} (h : decode w = .error e) :
    w.extractLsb' 8 24 ≠ 0 ∨ opcodeMap.lookup (w.setWidth 8) = none := by
  unfold decode at h
  split at h
  · split at h
    · cases h
    · next hl => exact .inr hl
  · next hr => exact .inl hr

theorem step_nil {s : State} (h : s.inbox = []) : step s = coreTurn s := by simp [step, h]

theorem step_cons {s : State} {e : Event} {rest : List Event} (h : s.inbox = e :: rest) :
    step s = runEvent e { s with inbox := rest } := by simp [step, h]

/-- When it is the core's turn, a step is the core's turn. -/
theorem step_coreToMove {s : State} (h : s.coreToMove = true) : step s = coreTurn s.turnTaken := by
  unfold State.coreToMove at h
  split at h
  · next hi =>
    rw [step_nil hi]
    congr 1
    unfold State.turnTaken
    rw [hi]
    cases s
    simp_all
  · next rest hi => rw [step_cons hi]; simp [runEvent, State.turnTaken, hi]
  · cases h

/-- What a step can be: the core's turn, a host transaction, the two together, or a change of the reset input. -/
theorem step_cases {s t : State} (h : step s = .next t) :
    (s.inbox = [] ∧ coreTurn s = .next t) ∨
    (∃ e rest, s.inbox = e :: rest ∧ runEvent e { s with inbox := rest } = .next t) := by
  cases hi : s.inbox with
  | nil => exact .inl ⟨rfl, by rwa [step_nil hi] at h⟩
  | cons e rest => exact .inr ⟨e, rest, rfl, by rwa [step_cons hi] at h⟩

/-- The core's turn: nothing while idle, the latched command or an `ILLEGAL_CMD` completion while busy. -/
theorem coreTurn_cases {s t : State} (h : coreTurn s = .next t) :
    (s.phase = .idle ∧ t = s) ∨
    (s.phase = .busy ∧ ∃ i, decode s.cmd = .ok i ∧ exec i s = .next t) ∨
    (s.phase = .busy ∧ ∃ e, decode s.cmd = .error e ∧ t = raiseError .illegalCmd s) := by
  unfold coreTurn at h
  split at h
  · next hp =>
    unfold runLatched at h
    split at h
    · next i hi => exact .inr (.inl ⟨hp, i, hi, h⟩)
    · next e he => cases h; exact .inr (.inr ⟨hp, e, he, rfl⟩)
  · next hp => cases h; exact .inl ⟨hp, rfl⟩

/-- Together with a completion: the transaction, then the core's turn. -/
theorem hostThenCore_cases {x : Txn} {s t : State} (h : hostThenCore x s = .next t) :
    (s.phase = .idle ∧ hostTxn x s = .next t) ∨
    (s.phase = .busy ∧ ∃ u, hostTxn x s = .next u ∧ coreTurn u = .next t) := by
  unfold hostThenCore at h
  split at h
  · next hp => exact .inl ⟨hp, h⟩
  · next hp =>
    split at h
    · next u hu => exact .inr ⟨hp, u, hu, h⟩
    · cases h
    · cases h

/-- What a host transaction can do: the four kinds, each with what it needs. -/
theorem hostTxn_cases {x : Txn} {s t : State} (h : hostTxn x s = .next t) :
    (∃ a n off, x = .regRead a n ∧ windowOffset s.params a n = some off ∧ t = readOffset off s) ∨
    (∃ a lanes off v, x = .regWrite a lanes ∧ windowOffset s.params a lanes.length = some off ∧
      wordOfLanes lanes = some v ∧ t = writeOffset off v s) ∨
    (∃ a, x = .memRead a ∧ a < s.params.memBytes ∧ inFootprint s a = true ∧
      t = { s with readData := some (.mem (Config.freeByte s.draws a)), draws := s.draws + 1 }) ∨
    (∃ a, x = .memRead a ∧ a < s.params.memBytes ∧ inFootprint s a = false ∧
      t = { s with readData := some (.mem (s.byteAt a)) }) ∨
    (∃ a b, x = .memWrite a b ∧ a < s.params.memBytes ∧
      t = { s.setByte a b with tainted := s.tainted || inFootprint s a }) := by
  cases x with
  | regRead a n =>
    left
    simp only [hostTxn, hostRegRead] at h
    split at h
    · next off ho => cases h; exact ⟨a, n, off, rfl, ho, rfl⟩
    · cases h
  | regWrite a lanes =>
    right; left
    simp only [hostTxn, hostRegWrite] at h
    split at h
    · next off v ho hv => cases h; exact ⟨a, lanes, off, v, rfl, ho, hv, rfl⟩
    · cases h
  | memRead a =>
    simp only [hostTxn, hostMemRead] at h
    split at h
    · next ha =>
      split at h
      · next hf => cases h; exact .inr (.inr (.inl ⟨a, rfl, ha, hf, rfl⟩))
      · next hf => cases h; exact .inr (.inr (.inr (.inl ⟨a, rfl, ha, by simpa using hf, rfl⟩)))
    · cases h
  | memWrite a b =>
    simp only [hostTxn, hostMemWrite] at h
    split at h
    · next ha => cases h; exact .inr (.inr (.inr (.inr ⟨a, b, rfl, ha, rfl⟩)))
    · cases h

/-- The register map and the registers' own offsets agree (R20, R21 to R44). -/
theorem Reg.offset_of_ofOffset {off : Nat} {r : Reg} (h : Reg.ofOffset off = some r) : off = r.offset := by
  unfold Reg.ofOffset at h
  split at h <;> first | (cases h; rfl) | cases h

theorem Reg.ofOffset_offset (r : Reg) : Reg.ofOffset r.offset = some r := by cases r <;> rfl

theorem State.busy_eq_true {s : State} : s.busy = true ↔ s.phase = .busy := by
  unfold State.busy
  cases s.phase <;> simp

theorem State.busy_eq_false {s : State} : s.busy = false ↔ s.phase = .idle := by
  unfold State.busy
  cases s.phase <;> simp

theorem State.unlessBusy_busy {s : State} (h : s.phase = .busy) (t : State) : s.unlessBusy t = s.dropWrite := by
  unfold State.unlessBusy
  rw [if_pos (State.busy_eq_true.mpr h)]

theorem State.unlessBusy_idle {s : State} (h : s.phase = .idle) (t : State) : s.unlessBusy t = t := by
  unfold State.unlessBusy
  rw [if_neg (by rw [State.busy_eq_false.mpr h]; decide)]

/-- What a register write can do (R21 to R47): nothing, CTRL, STATUS, a drop, an acceptance, or one register. -/
theorem writeOffset_cases (off : Nat) (v : Word) (s : State) :
    writeOffset off v s = s ∨
    (s.inReset = false ∧ off = 0x04 ∧ writeOffset off v s = s.writeCtrl v) ∨
    (s.inReset = false ∧ off = 0x08 ∧ writeOffset off v s = s.writeStatus v) ∨
    (s.inReset = false ∧ s.phase = .busy ∧ writeOffset off v s = s.dropWrite) ∨
    (s.inReset = false ∧ s.phase = .idle ∧ off = 0x0C ∧ writeOffset off v s = s.accept v) ∨
    (s.inReset = false ∧ s.phase = .idle ∧ ∃ r, writeOffset off v s = { s with regs := r }) ∨
    (s.inReset = false ∧ s.phase = .idle ∧ off = 0x48 ∧ writeOffset off v s = { s with prngState := v }) := by
  unfold writeOffset
  by_cases hr : s.inReset = true
  · rw [if_pos hr]; exact .inl rfl
  rw [if_neg hr]
  have hr : s.inReset = false := by simpa using hr
  cases ho : Reg.ofOffset off with
  | none => exact .inl rfl
  | some r =>
    have hoff := Reg.offset_of_ofOffset ho
    have hp : s.phase = .busy ∨ s.phase = .idle := by cases s.phase <;> simp
    rcases hp with hp | hp
    · cases r <;>
        first
          | exact .inl rfl
          | exact .inr (.inl ⟨hr, hoff, rfl⟩)
          | exact .inr (.inr (.inl ⟨hr, hoff, rfl⟩))
          | exact .inr (.inr (.inr (.inl ⟨hr, hp, State.unlessBusy_busy hp _⟩)))
    · cases r <;>
        first
          | exact .inl rfl
          | exact .inr (.inl ⟨hr, hoff, rfl⟩)
          | exact .inr (.inr (.inl ⟨hr, hoff, rfl⟩))
          | exact .inr (.inr (.inr (.inr (.inl ⟨hr, hp, hoff, State.unlessBusy_idle hp _⟩))))
          | exact .inr (.inr (.inr (.inr (.inr (.inl ⟨hr, hp, _, State.unlessBusy_idle hp _⟩)))))
          | exact .inr (.inr (.inr (.inr (.inr (.inr ⟨hr, hp, hoff, State.unlessBusy_idle hp _⟩)))))

/-- The bytes of pixel memory a command may write: colour channels of the pixels a filter processes (R152), every byte
of D for a transform (R200), none for the others. -/
def writtenBy (i : Instr) (s : State) (a : Nat) : Prop :=
  match i with
  | .clamp | .prngDraw | .resizeBilinear => False
  | .grayscale | .invert | .brightness | .sepia | .contrast | .lofi | .vintage | .cyberpunk =>
    colourBytes (zext s.regs.srcBase) 0 (srcPixels s) a
  | .vignette => colourBytes (zext s.regs.srcBase) 0 (imagePixels s) a
  | .resizeNn | .crop => (newRegion s).base ≤ a ∧ a < (newRegion s).base + (newRegion s).len
  | .flipH | .flipV => (flipRegion s).base ≤ a ∧ a < (flipRegion s).base + (flipRegion s).len

/-- What a command whose checks pass leaves before its completion: only memory, draws and the core-written registers
move, and memory only at the bytes the command may write. -/
structure CommandEffect (i : Instr) (s u : State) : Prop where
  rest : u = { s with mem := u.mem, draws := u.draws, dstLen := u.dstLen, result := u.result, prngState := u.prngState }
  frame : ∀ a, ¬ writtenBy i s a → u.byteAt a = s.byteAt a
  wf : Memory.wf s.mem → Memory.wf u.mem
  bound : ∀ n, (∀ a, writtenBy i s a → a < n) → (∀ c ∈ s.mem, c.1 < n) → ∀ c ∈ u.mem, c.1 < n
  result : s.result.toNat < 256 → u.result.toNat < 256

theorem CommandEffect.ofStores {i : Instr} {s u : State} (h : StoresOnly s u (writtenBy i s)) : CommandEffect i s u := by
  refine ⟨?_, h.frame, h.wf, h.bound, fun hr => ?_⟩
  · have := h.rest
    rw [this]
  · rw [h.rest]; exact hr

theorem CommandEffect.setDstLen {i : Instr} {s u : State} {n : Nat} (h : CommandEffect i s u) :
    CommandEffect i s (u.setDstLen n) := by
  have hm : (u.setDstLen n).mem = u.mem := by unfold State.setDstLen; split <;> rfl
  refine ⟨?_, fun a ha => ?_, fun w => hm ▸ h.wf w, fun b hb hs => hm ▸ h.bound b hb hs, fun hr => ?_⟩
  · have := h.rest
    unfold State.setDstLen
    split
    · rw [this]
    · rw [this]
  · rw [State.byteAt_eq, hm]; exact h.frame a ha
  · rw [State.setDstLen_result]; exact h.result hr

theorem clamp8_setWidth_lt (n : Int) : ((clamp8 n).setWidth 32 : Word).toNat < 256 := by
  have := (clamp8 n).isLt
  rw [BitVec.toNat_setWidth]
  omega

/-- A command whose checks pass completes without error, and this is all it can have done (R263, R169). -/
theorem exec_ok {i : Instr} {s : State} (h : commandError i s = none) :
    ∃ u, exec i s = .next (completeOk u) ∧ CommandEffect i s u := by
  have plain : ∀ (j : Instr) (f : Byte → Byte → Byte → Option (Byte × Byte × Byte)),
      (∀ r g b, (f r g b).isSome) → commandError j s = none →
      (∀ a, colourBytes (zext s.regs.srcBase) 0 (srcPixels s) a → writtenBy j s a) →
      ∃ u, recolourSource j f s = .next (completeOk u) ∧ CommandEffect j s u := by
    intro j f hf hj hw
    obtain ⟨u, hu, hst⟩ := runFilter_completes (i := j) (n := srcPixels s) (f := fun _ => f)
      (base := zext s.regs.srcBase) hj (fun _ _ => hf)
    exact ⟨u, hu, .ofStores (hst.mono hw)⟩
  have transform : ∀ (j : Instr) (d : Region) (src : Nat → Option Nat), commandError j s = none → d.len % 4 = 0 →
      (∀ a, d.base ≤ a ∧ a < d.base + d.len → writtenBy j s a) →
      ∃ u, runTransform j d src s = .next (completeOk u) ∧ CommandEffect j s u := by
    intro j d src hj hd hw
    obtain ⟨u, hu, hst⟩ := runTransform_completes (src := src) hj hd
    exact ⟨_, hu, (CommandEffect.ofStores (hst.mono hw)).setDstLen⟩
  cases i with
  | clamp =>
    refine ⟨_, rfl, ⟨rfl, fun _ _ => rfl, id, fun _ _ hs => hs, fun _ => clamp8_setWidth_lt _⟩⟩
  | prngDraw =>
    refine ⟨_, rfl, ⟨rfl, fun _ _ => rfl, id, fun _ _ hs => hs, fun _ => ?_⟩⟩
    have := (drawIndex s.drawNoise.prngState).isLt
    simp only [BitVec.toNat_ofNat]
    omega
  | grayscale => exact plain .grayscale _ (grayscalePixel_isSome _) h (fun _ ha => ha)
  | invert => exact plain .invert _ (eachChannel_isSome invertChannel_isSome) h (fun _ ha => ha)
  | brightness => exact plain .brightness _ (eachChannel_isSome (brightnessChannel_isSome _)) h (fun _ ha => ha)
  | sepia => exact plain .sepia _ (sepiaPixel_isSome _) h (fun _ ha => ha)
  | contrast =>
    obtain ⟨-, h1, h2⟩ := commandError_contrast_none.mp h
    exact plain .contrast _ (eachChannel_isSome (contrastChannel_isSome h1 h2)) h (fun _ ha => ha)
  | vignette =>
    obtain ⟨-, hs, -⟩ := commandError_vignette_none.mp h
    obtain ⟨u, hu, hst⟩ := runFilter_completes (i := .vignette) (n := imagePixels s)
      (f := fun k => vignettePixel s.params.fmt (zext s.regs.width) (zext s.regs.height)
        ((Binary32.ofWord s.regs.strength).toFp s.params.fmt) (k % zext s.regs.width) (k / zext s.regs.width))
      (base := zext s.regs.srcBase) h (by
        intro k hk r g b
        have hw : 0 < zext s.regs.width := by
          rcases Nat.eq_zero_or_pos (zext s.regs.width) with h0 | h0
          · simp [imagePixels, h0] at hk
          · exact h0
        exact vignettePixel_isSome (Nat.mod_lt _ hw) ((Nat.div_lt_iff_lt_mul hw).mpr (by
          rw [Nat.mul_comm]; exact hk)) s.regs.width.isLt s.regs.height.isLt hs r g b)
    exact ⟨u, hu, .ofStores hst⟩
  | lofi =>
    obtain ⟨u, hu, hrest, hfr, hwf, hbd, -⟩ := execLofi_completes h
    refine ⟨u, hu, ⟨?_, hfr, hwf, hbd, fun hr => ?_⟩⟩
    · rw [hrest]
    · rw [hrest]; exact hr
  | vintage => exact plain .vintage _ (vintagePixel_isSome _) h (fun _ ha => ha)
  | cyberpunk => exact plain .cyberpunk _ (cyberpunkPixel_isSome _) h (fun _ ha => ha)
  | resizeNn => exact transform .resizeNn _ _ h (by simp [newRegion]) (fun _ ha => ha)
  | resizeBilinear => simp [commandError, commandChecks, firstError] at h
  | crop => exact transform .crop _ _ h (by simp [newRegion]) (fun _ ha => ha)
  | flipH => exact transform .flipH _ _ h (by simp [flipRegion]) (fun _ ha => ha)
  | flipV => exact transform .flipV _ _ h (by simp [flipRegion]) (fun _ ha => ha)

/-- A command one of whose checks fails completes with that error (R262). -/
theorem exec_of_error {i : Instr} {s : State} {e} (h : commandError i s = some e) :
    exec i s = .next (raiseError e s) := by
  cases i with
  | clamp => simp [commandError, commandChecks, firstError] at h
  | prngDraw => simp [commandError, commandChecks, firstError] at h
  | resizeBilinear => simp [commandError, commandChecks, firstError] at h; subst h; rfl
  | grayscale => exact runFilter_of_error h
  | invert => exact runFilter_of_error h
  | brightness => exact runFilter_of_error h
  | sepia => exact runFilter_of_error h
  | contrast => exact runFilter_of_error h
  | vignette => exact runFilter_of_error h
  | lofi => simp [exec, execLofi, h]
  | vintage => exact runFilter_of_error h
  | cyberpunk => exact runFilter_of_error h
  | resizeNn => exact runTransform_of_error h
  | crop => exact runTransform_of_error h
  | flipH => exact runTransform_of_error h
  | flipV => exact runTransform_of_error h

/-- What the core's turn never moves: DROPPED, the host's registers, CMD, the parameters, the reset input, IRQ_EN. -/
theorem coreTurn_rest {s t : State} (h : coreTurn s = .next t) :
    t.dropped = s.dropped ∧ t.regs = s.regs ∧ t.cmd = s.cmd ∧ t.params = s.params ∧ t.inReset = s.inReset ∧
      t.irqEn = s.irqEn := by
  rcases coreTurn_cases h with ⟨-, rfl⟩ | ⟨-, i, -, hx⟩ | ⟨-, e, -, rfl⟩
  · exact ⟨rfl, rfl, rfl, rfl, rfl, rfl⟩
  · cases hce : commandError i s with
    | some e => rw [exec_of_error hce] at hx; cases hx; exact ⟨rfl, rfl, rfl, rfl, rfl, rfl⟩
    | none =>
      obtain ⟨u, hu, hef⟩ := exec_ok hce
      rw [hx] at hu
      cases hu
      have := hef.rest
      rw [this]; exact ⟨rfl, rfl, rfl, rfl, rfl, rfl⟩
  · exact ⟨rfl, rfl, rfl, rfl, rfl, rfl⟩

/-- The bytes a command may write lie inside the pixel memory once its checks pass (R66). -/
theorem writtenBy_inside {i : Instr} {s : State} (h : commandError i s = none) {a : Nat} (ha : writtenBy i s a) :
    a < s.params.memBytes := by
  have source : SourceOk s → colourBytes (zext s.regs.srcBase) 0 (srcPixels s) a → a < s.params.memBytes := by
    rintro ⟨h1, h2⟩ ⟨k, -, hk, -, hka⟩
    simp only [srcPixels, zext] at *
    omega
  cases i with
  | clamp => exact ha.elim
  | prngDraw => exact ha.elim
  | resizeBilinear => exact ha.elim
  | grayscale => exact source ((commandError_source_none rfl).mp h) ha
  | invert => exact source ((commandError_source_none rfl).mp h) ha
  | brightness => exact source ((commandError_source_none rfl).mp h) ha
  | sepia => exact source ((commandError_source_none rfl).mp h) ha
  | contrast => exact source (commandError_contrast_none.mp h).1 ha
  | lofi => exact source ((commandError_source_none rfl).mp h) ha
  | vintage => exact source ((commandError_source_none rfl).mp h) ha
  | cyberpunk => exact source ((commandError_source_none rfl).mp h) ha
  | vignette =>
    obtain ⟨⟨-, h1⟩, -, h2⟩ := commandError_vignette_none.mp h
    obtain ⟨k, -, hk, -, hka⟩ := ha
    simp only [imagePixels, zext] at *
    omega
  | resizeNn => exact lt_of_lt_of_le ha.2 (commandError_resizeNn_none.mp h).2.1
  | crop => exact lt_of_lt_of_le ha.2 (commandError_crop_none.mp h).2.2.2.1
  | flipH => exact lt_of_lt_of_le ha.2 ((commandError_flip_none rfl).mp h).2.2.1
  | flipV => exact lt_of_lt_of_le ha.2 ((commandError_flip_none rfl).mp h).2.2.1

end Machine

end Sys2Proof
end

