-- ==== Sys2Proof/Tests/Slice0.lean ====
section
/-! SUPPORT. Tests of the model against the spec's own vectors (95_test_vectors.md) and, for every statement with
hypotheses, a concrete state and operands that meet them all. -/

set_option Elab.async false

namespace Sys2Proof.Tests

open Sys2Proof.Machine Sys2Proof.Claims

/-! ## Small states -/

/-- A chip with 0x1000 bytes of pixel memory, its registers at 0x4000 and the reference noise, after reset. -/
def chip (f : Fmt) : State :=
  { State.reset with
    params := { regBase := 0x4000, memBytes := 0x1000, fmt := f, lofiNoise := referenceNoise f } }

/-- A chip whose source buffer is the given bytes, at address 0. -/
def image (f : Fmt) (bytes : List Byte) : State :=
  { chip f with
    mem := bytes.zipIdx.map (fun p => (p.2, p.1)),
    regs := { Regs.reset with srcLen := BitVec.ofNat 32 bytes.length } }

/-- The same with an image size and the destination at 0x100. -/
def sized (w h : Word) (s : State) : State :=
  { s with regs := { s.regs with width := w, height := h, dstBase := 0x100 } }

/-- The same with a new image size. -/
def resized (w h : Word) (s : State) : State :=
  { s with regs := { s.regs with newWidth := w, newHeight := h } }

/-- The same with an amount. -/
def amounted (a : Word) (s : State) : State := { s with regs := { s.regs with amount := a } }

/-- The same with a vignette strength. -/
def strengthened (a : Word) (s : State) : State := { s with regs := { s.regs with strength := a } }

/-- The command is in flight and it is the core's turn. -/
def running (i : Instr) (s : State) : State := s.accept (encode i)

/-- The next state, when there is one. -/
def nextOf : Host.Outcome State Fault Refusal → Option State
  | .next t => some t
  | .fault _ => none
  | .refused _ => none

/-- The n bytes from an address on in the next state. -/
def bytesAfter (o : Host.Outcome State Fault Refusal) (a n : Nat) : List Byte :=
  match nextOf o with
  | some t => (List.range n).map (fun k => t.byteAt (a + k))
  | none => []

/-- A register after a step. -/
def regAfter (o : Host.Outcome State Fault Refusal) (r : Reg) : Option Word := (nextOf o).map (fun t => t.readReg r)

/-- What the host was given by a step. -/
def answerOf (o : Host.Outcome State Fault Refusal) : Option ReadData := (nextOf o).bind (fun t => t.readData)

/-- The state after a step, the old one when there is none. -/
def afterStep (s : State) : State := (nextOf (step s)).getD s

/-- Four pixels of one byte value each. -/
def fourPixels : List Byte := [1, 1, 1, 1, 2, 2, 2, 2, 3, 3, 3, 3, 4, 4, 4, 4]

/-! ## WellFormed: ill-formed words are refused (R90, R96) -/

theorem test_reserved_bits_are_ill_formed :
    CommandWord.wellFormed 0x00000110 = false ∧ CommandWord.wellFormed 0x80000001 = false := by decide

theorem test_unassigned_opcodes_are_ill_formed :
    (([0x00, 0x03, 0x0F, 0x19, 0x1F, 0x25, 0xFF] : List Word).map CommandWord.wellFormed).all (· == false) = true := by
  decide

theorem test_assigned_opcode_is_well_formed :
    CommandWord.wellFormed 0x00000021 = true ∧ Instr.wellFormed .resizeBilinear = true := by decide

/-! ## Decode: words written out from R90 and R94 -/

theorem test_decode_utility_word : decode 0b00000000000000000000000000000010 = .ok .prngDraw := by decide

theorem test_decode_filter_word : decode 0b00000000000000000000000000010110 = .ok .lofi := by decide

theorem test_decode_transform_word : decode 0b00000000000000000000000000100011 = .ok .flipH := by decide

theorem test_decode_lane_order :
    decodeBytes [0x24, 0x00, 0x00, 0x00] = .ok .flipV ∧
      decodeBytes [0x00, 0x00, 0x00, 0x24] = .error .reservedBits := by decide

theorem test_decode_needs_four_lanes :
    decodeBytes [0x24, 0x00] = .error .notOneWord ∧ decodeTableWord 40 0x24 = none := by decide

theorem test_decode_rejects :
    decode 0x00000110 = .error .reservedBits ∧ decode 0x00000025 = .error .unassignedOpcode := by decide

/-! ## Commands (95_test_vectors.md L2) -/

theorem test_clamp_negative :
    regAfter (exec .clamp { chip .binary32 with regs := { Regs.reset with arg := 0xFFFFFFFF } }) .result
      = some 0x00000000 := by decide +kernel

theorem test_clamp_large :
    regAfter (exec .clamp { chip .binary32 with regs := { Regs.reset with arg := 0x00000100 } }) .result
      = some 0x000000FF := by decide +kernel

theorem test_prng_draw_from_seed :
    regAfter (exec .prngDraw (chip .binary32)) .prngState = some 0x05391C44 ∧
      regAfter (exec .prngDraw (chip .binary32)) .result = some 68 := by decide +kernel

theorem test_prng_draw_wraps :
    regAfter (exec .prngDraw { chip .binary32 with prngState := 0xFFFFFFFF }) .prngState = some 0x3C558D52 ∧
      regAfter (exec .prngDraw { chip .binary32 with prngState := 0xFFFFFFFF }) .result = some 98 := by decide +kernel

theorem test_grayscale_binary32 :
    bytesAfter (exec .grayscale (image .binary32 [37, 37, 37, 0, 222, 174, 206, 5])) 0 8
      = [36, 36, 36, 0, 191, 191, 191, 5] := by decide +kernel

theorem test_grayscale_binary64 :
    bytesAfter (exec .grayscale (image .binary64 [1, 1, 1, 0, 222, 174, 206, 5])) 0 8
      = [0, 0, 0, 0, 192, 192, 192, 5] := by decide +kernel

theorem test_invert :
    bytesAfter (exec .invert (image .binary32 [0, 128, 255, 7, 1, 254, 100, 200])) 0 8
      = [255, 127, 0, 7, 254, 1, 155, 200] := by decide +kernel

theorem test_brightness_down :
    bytesAfter (exec .brightness (amounted 0xFFFFFF80 (image .binary32 [255, 128, 0, 5]))) 0 4 = [127, 0, 0, 5] := by
  decide +kernel

theorem test_brightness_saturates :
    bytesAfter (exec .brightness (amounted 0x7FFFFFFF (image .binary32 [0, 1, 2, 3]))) 0 4 = [255, 255, 255, 3] := by
  decide +kernel

theorem test_sepia_binary32 :
    bytesAfter (exec .sepia (image .binary32 [236, 146, 235, 0])) 0 4 = [249, 221, 172, 0] := by decide +kernel

theorem test_sepia_binary64 :
    bytesAfter (exec .sepia (image .binary64 [236, 146, 235, 0])) 0 4 = [249, 222, 172, 0] := by decide +kernel

theorem test_contrast_up :
    bytesAfter (exec .contrast (amounted 100 (image .binary32 [0, 128, 255, 9, 100, 150, 200, 9]))) 0 8
      = [0, 128, 255, 9, 64, 177, 255, 9] := by decide +kernel

theorem test_contrast_range :
    regAfter (exec .contrast (amounted 259 (image .binary64 [1, 2, 3, 4]))) .status = some 0x00000506 := by
  decide +kernel

theorem test_vignette_binary32 :
    bytesAfter (exec .vignette (strengthened 0xFF61B1E6 (sized 2 1 (image .binary32 [200, 0, 50, 0, 200, 0, 50, 0])))) 0 8
      = [255, 0, 255, 0, 255, 0, 255, 0] := by decide +kernel

theorem test_vignette_binary64 :
    bytesAfter (exec .vignette (strengthened 0x3F800000 (sized 2 2
      (image .binary64 [200, 100, 50, 7, 200, 100, 50, 7, 10, 20, 30, 40, 10, 20, 30, 40])))) 0 16
      = [0, 0, 0, 7, 58, 29, 14, 7, 2, 5, 8, 40, 10, 20, 30, 40] := by decide +kernel

theorem test_lofi_binary32 :
    bytesAfter (exec .lofi (image .binary32 [118, 204, 5, 0])) 0 4 = [156, 209, 35, 0] ∧
      regAfter (exec .lofi (image .binary32 [118, 204, 5, 0])) .prngState = some 0x05391C44 := by decide +kernel

theorem test_lofi_draws_per_pixel :
    bytesAfter (exec .lofi (image .binary64 [100, 150, 200, 255, 0, 0, 0, 9])) 0 8
      = [138, 163, 188, 255, 30, 15, 0, 9] := by decide +kernel

theorem test_vintage :
    bytesAfter (exec .vintage (image .binary64 [100, 150, 200, 9, 0, 0, 0, 0])) 0 8
      = [130, 115, 220, 9, 40, 10, 40, 0] := by decide +kernel

theorem test_cyberpunk_binary32 :
    bytesAfter (exec .cyberpunk (image .binary32 [90, 90, 90, 0, 20, 30, 5, 0])) 0 8 = [86, 81, 116, 0, 0, 27, 0, 0] := by
  decide +kernel

theorem test_cyberpunk_binary64 :
    bytesAfter (exec .cyberpunk (image .binary64 [90, 90, 90, 0])) 0 4 = [87, 81, 115, 0] := by decide +kernel

theorem test_resize_nn_columns :
    bytesAfter (exec .resizeNn (resized 5 1 (sized 3 1 (image .binary32 [1, 1, 1, 1, 2, 2, 2, 2, 3, 3, 3, 3])))) 0x100 20
      = [1, 1, 1, 1, 1, 1, 1, 1, 2, 2, 2, 2, 2, 2, 2, 2, 3, 3, 3, 3] := by decide +kernel

/-- Pixels beyond SRC_LEN are zero (L2.12); HEIGHT = 0 with WIDTH = 2 takes offset 0 for every pixel (R205, C13). -/
theorem test_resize_nn_skips_and_degenerate :
    bytesAfter (exec .resizeNn (resized 2 2 (sized 2 2 (image .binary32 [1, 1, 1, 1, 2, 2, 2, 2])))) 0x100 16
      = [1, 1, 1, 1, 2, 2, 2, 2, 0, 0, 0, 0, 0, 0, 0, 0] ∧
    bytesAfter (exec .resizeNn (resized 2 1 (sized 2 0 (image .binary32 [1, 1, 1, 1, 2, 2, 2, 2])))) 0x100 8
      = [1, 1, 1, 1, 1, 1, 1, 1] := by decide +kernel

theorem test_resize_bilinear :
    regAfter (exec .resizeBilinear (chip .binary32)) .status = some 0x00000206 := by decide +kernel

theorem test_crop_row_stop :
    bytesAfter (exec .crop { resized 2 2 (sized 2 2 (image .binary32 fourPixels)) with
      regs := { (resized 2 2 (sized 2 2 (image .binary32 fourPixels))).regs with startY := 1 } }) 0x100 16
      = [3, 3, 3, 3, 4, 4, 4, 4, 0, 0, 0, 0, 0, 0, 0, 0] := by decide +kernel

theorem test_crop_overrun :
    regAfter (exec .crop { resized 2 1 (sized 2 2 (image .binary32 fourPixels)) with
      regs := { (resized 2 1 (sized 2 2 (image .binary32 fourPixels))).regs with startX := 1 } }) .status
      = some 0x00000806 := by decide +kernel

theorem test_flip_h :
    bytesAfter (exec .flipH (sized 2 2 (image .binary32 fourPixels))) 0x100 16
      = [2, 2, 2, 2, 1, 1, 1, 1, 4, 4, 4, 4, 3, 3, 3, 3] ∧
      regAfter (exec .flipH (sized 2 2 (image .binary32 fourPixels))) .dstLen = some 0x10 := by decide +kernel

theorem test_flip_h_overlap :
    regAfter (exec .flipH { sized 2 2 (image .binary32 fourPixels) with
      regs := { (sized 2 2 (image .binary32 fourPixels)).regs with dstBase := 0x00C } }) .status
      = some 0x00000A06 := by decide +kernel

theorem test_flip_v :
    bytesAfter (exec .flipV (sized 2 2 (image .binary32 fourPixels))) 0x100 16
      = [3, 3, 3, 3, 4, 4, 4, 4, 1, 1, 1, 1, 2, 2, 2, 2] := by decide +kernel

/-- 95_test_vectors.md L2.16: the end of S is not taken mod 2^32. -/
theorem test_source_end_does_not_wrap :
    regAfter (exec .grayscale { chip .binary32 with
      params := { (chip .binary32).params with memBytes := 2 ^ 32 },
      regs := { Regs.reset with srcBase := 0xFFFFFFFC, srcLen := 8 } }) .status = some 0x00000406 := by decide +kernel

/-! ## Registers, STATUS and memory (95_test_vectors.md L2.17) -/

theorem test_host_reads_after_reset :
    [0x00, 0x08, 0x48, 0x0C, 0x4C, 0xFC].map (fun off => answerOf (step (reads off (chip .binary32))))
      = ([0x50495801, 0, 0x00003039, 0, 0, 0] : List Word).map (fun w => some (.reg (lanesOfWord w))) := by
  decide +kernel

theorem test_ctrl_keeps_bit_0 :
    regAfter (step (writes 0x04 0xFFFFFFFF (chip .binary32))) .ctrl = some 0x00000001 := by decide +kernel

theorem test_status_clear_keeps_code :
    regAfter (step (writes 0x08 0xFFFFFFF4 (raiseError .contrastRange (chip .binary32)))) .status
      = some 0x00000502 := by decide +kernel

theorem test_write_while_busy_is_dropped :
    regAfter (step (writes 0x20 5 (running .grayscale (image .binary32 [1, 2, 3, 4])))) .status = some 0x00000009 ∧
      regAfter (step (writes 0x20 5 (running .grayscale (image .binary32 [1, 2, 3, 4])))) .width = some 0 := by
  decide +kernel

theorem test_half_word_access_is_refused :
    step (asks (.host (.regWrite 0x4010 [1, 2])) (chip .binary32)) = .refused .notRegisterAccess := by rfl

theorem test_bits32 :
    bits32 { neg := false, num := 3, den := 10 } = 0x3E99999A ∧
      bits32 { neg := true, num := 3 * 10 ^ 38, den := 1 } = 0xFF61B1E6 := by decide +kernel

/-! ## The fetch names of the host -/

theorem test_first_step_runs_placed_word :
    ([0x01, 0x02, 0x10, 0x11, 0x12, 0x13, 0x14, 0x15, 0x16, 0x17, 0x18, 0x20, 0x22, 0x23, 0x24].all
      (fun w => regAfter (step (State.reset.withFetchWord 32 w)) .status == some 0x00000002)) = true := by
  decide +kernel

/-! ## Witnesses: for each statement with hypotheses, a state and operands that meet them -/

/-- GRAYSCALE in flight on one pixel. -/
def busyGray : State := running .grayscale (image .binary32 [1, 2, 3, 4])

/-- A flip in flight, its image 2 by 2. -/
def busyFlip : State := running .flipH (sized 2 2 (image .binary32 fourPixels))

theorem witness_CommandWordsRoundTrip : Instr.wellFormed .clamp = true ∧ decode 0x00000024 = .ok .flipV := by decide

theorem witness_DecodeRefusesExactlyIllegalWords :
    CommandWord.rsvdIsZero 0x00000100 = false ∧ CommandWord.rsvdIsZero 0x00000025 = true ∧
      CommandWord.opcodeIsAssigned 0x25 = false ∧ CommandWord.opcodeIsAssigned 0x00 = false := by decide

theorem witness_StepRunsDecodedCommand :
    busyGray.phase = .busy ∧ busyGray.coreToMove = true ∧ decode busyGray.cmd = .ok .grayscale ∧
      (asks .core busyGray).coreToMove = true ∧ 0x24 < 2 ^ 32 ∧ decode (BitVec.ofNat 32 0x24) = .ok .flipV := by
  decide +kernel

theorem witness_IllegalWordCompletesIllegalCmd :
    ((chip .binary32).accept 0x80000001).phase = .busy ∧ ((chip .binary32).accept 0x80000001).coreToMove = true ∧
      ((chip .binary32).accept 0x80000001).cmd.extractLsb' 8 24 ≠ 0 ∧
      (∀ i, encode i ≠ (0 : BitVec 24) ++ (((chip .binary32).accept 0x00000025).cmd.setWidth 8 : Byte)) := by
  refine ⟨rfl, rfl, by decide, fun i => ?_⟩
  cases i <;> decide

theorem witness_Clamp8PinsToNearestByte : (-1 : Int) < 0 ∧ (255 : Int) < 256 ∧ (0 : Int) ≤ 255 ∧ (255 : Int) ≤ 255 := by
  decide

/-- With two significant bits 5 lies midway between 4 = 2 * 2 and 6 = 3 * 2. -/
theorem witness_RoundingIsToNearestEven :
    0 < 2 ∧ 0 < 1 ∧ representable 2 6 ∧ 6 ≠ roundRatio 2 5 1 ∧
      |((roundRatio 2 5 1 * 1 : Nat) : Int) - (5 : Nat)| = |((6 * 1 : Nat) : Int) - (5 : Nat)| :=
  ⟨by decide, by decide, ⟨3, 1, by decide, by decide⟩, by decide, by decide⟩

theorem witness_SquareRootIsNearest :
    0 < 3 ∧ representable 3 1 ∧ 1 < roundRoot 3 8 ∧ representable 3 4 ∧ roundRoot 3 8 < 4 :=
  ⟨by decide, ⟨1, 0, by decide, by decide⟩, by decide, ⟨4, 0, by decide, by decide⟩, by decide⟩

theorem witness_ConvIsExactForSmallIntegers :
    |(2 ^ 24 : Int)| ≤ 2 ^ 24 ∧ |(-(2 ^ 24) : Int)| ≤ 2 ^ 24 ∧ |(2 ^ 53 : Int)| ≤ 2 ^ 53 := by decide

theorem witness_TruncateThenClamp :
    255 ≤ 255 ∧ 0 < Fmt.one .binary32 ∧ Fmt.one .binary64 - 1 < Fmt.one .binary64 ∧
      255 * Fmt.one .binary32 ≤ 255 * Fmt.one .binary32 := by decide +kernel

/-- For GrayscaleSetsLuminance, InvertComplementsChannels, InvertTwiceRestores, BrightnessAddsSignedAmount,
SepiaAppliesMatrix, LofiTintsWithSeededNoise, VintageFadesAndLifts and CyberpunkShiftsChannels. -/
theorem witness_plain_filters :
    (image .binary64 [1, 2, 3, 4]).tainted = false ∧
      ([.grayscale, .invert, .brightness, .sepia, .lofi, .vintage, .cyberpunk].all
        (fun i => clear i (image .binary64 [1, 2, 3, 4]) && isFilter i)) = true := by decide +kernel

theorem witness_ContrastScalesAboutMidpoint :
    clear .contrast (amounted 0x000000FF (image .binary64 [1, 2, 3, 4])) = true ∧
      clear .contrast (amounted 0xFFFFFF01 (image .binary32 [1, 2, 3, 4])) = true ∧
      (amounted 0x000000FF (image .binary64 [1, 2, 3, 4])).tainted = false := by decide +kernel

theorem witness_VignetteDarkensByDistance :
    clear .vignette (strengthened 0x7F7FFFFF (sized 2 2 (image .binary32 fourPixels))) = true ∧
      clear .vignette (sized 0 0 (image .binary32 fourPixels)) = true ∧
      (sized 2 2 (image .binary32 fourPixels)).tainted = false ∧ 1 < 2 ∧ 3 = 1 * 2 + 1 := by decide +kernel

theorem witness_FilterStoresOnlyColourBytes :
    isFilter .lofi = true ∧ clear .lofi { image .binary32 [1, 2, 3, 4] with tainted := true } = true ∧
      isFilter .vignette = true ∧ clear .vignette (sized 1 1 (image .binary32 [1, 2, 3, 4])) = true := by decide +kernel

theorem witness_ResizeNnTakesNearestPixel :
    clear .resizeNn (resized 4 4 (sized 2 2 (image .binary32 fourPixels))) = true ∧
      (resized 4 4 (sized 2 2 (image .binary32 fourPixels))).tainted = false ∧
      dstBytes .resizeNn (resized 4 4 (sized 2 2 (image .binary32 fourPixels))) < 2 ^ 32 ∧
      clear .resizeNn (resized 2 1 (sized 2 0 (image .binary32 fourPixels))) = true ∧
      clear .resizeNn (resized 2 1 (sized 0 2 (image .binary32 fourPixels))) = true := by decide +kernel

/-- The one length DST_LEN cannot hold. -/
theorem witness_length_two_pow_32 :
    clear .resizeNn { resized 0x10000 0x4000 (chip .binary32) with
      params := { (chip .binary32).params with memBytes := 2 ^ 32 } } = true ∧
      dstBytes .resizeNn (resized 0x10000 0x4000 (chip .binary32)) = 2 ^ 32 := by decide +kernel

theorem witness_CropCopiesWindow :
    clear .crop (resized 2 1 (sized 2 2 (image .binary32 fourPixels))) = true ∧
      (resized 2 1 (sized 2 2 (image .binary32 fourPixels))).tainted = false ∧
      dstBytes .crop (resized 2 1 (sized 2 2 (image .binary32 fourPixels))) < 2 ^ 32 := by decide +kernel

/-- For FlipHMirrorsColumns and FlipVMirrorsRows. -/
theorem witness_flips :
    clear .flipH (sized 2 2 (image .binary32 fourPixels)) = true ∧
      clear .flipV (sized 2 2 (image .binary32 fourPixels)) = true ∧
      (sized 2 2 (image .binary32 fourPixels)).tainted = false := by decide +kernel

theorem witness_TransformStoresOnlyDestination :
    isTransform .flipV = true ∧ clear .flipV { sized 2 2 (image .binary32 fourPixels) with tainted := true } = true ∧
      dstBytes .flipV (sized 2 2 (image .binary32 fourPixels)) < 2 ^ 32 := by decide +kernel

theorem witness_FlipTwiceRestores :
    clear .flipH (sized 2 2 (image .binary32 fourPixels)) = true ∧
      (nextOf (exec .flipH (sized 2 2 (image .binary32 fourPixels)))).map (fun t =>
        clear .flipH { t with regs := { t.regs with srcBase := 0x100, srcLen := t.dstLen, dstBase := 0x200 } })
        = some true := by decide +kernel

theorem witness_FullImageIdentity :
    clear .resizeNn (resized 2 2 (sized 2 2 (image .binary32 fourPixels))) = true ∧
      clear .crop (resized 2 2 (sized 2 2 (image .binary32 fourPixels))) = true ∧
      (resized 2 2 (sized 2 2 (image .binary32 fourPixels))).regs.startX = 0 ∧
      (resized 2 2 (sized 2 2 (image .binary32 fourPixels))).regs.startY = 0 ∧
      (resized 2 2 (sized 2 2 (image .binary32 fourPixels))).regs.srcLen.toNat = 2 * 2 * 4 := by decide +kernel

/-- LEN_ALIGN is the first check; SRC_RANGE the second, at its boundary; then CONTRAST_RANGE at its two. -/
theorem witness_LowestFailingCheckIsReported_filters :
    cause .grayscale { chip .binary32 with regs := { Regs.reset with srcLen := 6 } } .lenAlign = true ∧
      cause .grayscale { chip .binary32 with regs := { Regs.reset with srcLen := 8, srcBase := 0xFF9 } } .lenAlign = false ∧
      cause .grayscale { chip .binary32 with regs := { Regs.reset with srcLen := 8, srcBase := 0xFF9 } } .srcRange = true ∧
      cause .grayscale { chip .binary32 with regs := { Regs.reset with srcLen := 8, srcBase := 0xFF8 } } .srcRange = false ∧
      cause .contrast (amounted 256 (image .binary32 [1, 2, 3, 4])) .contrastRange = true ∧
      cause .contrast (amounted 0xFFFFFF00 (image .binary32 [1, 2, 3, 4])) .contrastRange = true := by decide +kernel

/-- VIGNETTE's checks, CROP's, and the region checks of the transforms, each at the boundary of its range. -/
theorem witness_LowestFailingCheckIsReported_others :
    cause .vignette (strengthened 0x7F800000 (sized 1 1 (image .binary32 [1, 2, 3, 4]))) .strengthNonfinite = true ∧
      cause .vignette (strengthened 0x7F7FFFFF (sized 2 1 (image .binary32 [1, 2, 3, 4]))) .strengthNonfinite = false ∧
      cause .vignette (strengthened 0x7F7FFFFF (sized 2 1 (image .binary32 [1, 2, 3, 4]))) .dimsBounds = true ∧
      cause .crop (resized 3 1 (sized 2 2 (image .binary32 fourPixels))) .cropOverrun = true ∧
      cause .flipH { busyFlip with regs := { busyFlip.regs with dstBase := 0xFF1 } } .dstRange = true ∧
      cause .flipH { busyFlip with regs := { busyFlip.regs with dstBase := 0xFF0 } } .dstRange = false ∧
      cause .flipH { busyFlip with regs := { busyFlip.regs with dstBase := 0x00F } } .overlap = true ∧
      cause .flipH { busyFlip with regs := { busyFlip.regs with dstBase := 0x010 } } .overlap = false ∧
      checks .resizeBilinear = [] ++ .unimplemented :: [] ∧ cause .resizeBilinear (chip .binary32) .unimplemented = true := by
  decide +kernel

theorem witness_EveryCommandCompletes :
    busyGray.phase = .busy ∧ busyGray.coreToMove = true ∧ (asks .core busyGray).coreToMove = true := by decide +kernel

/-- For CmdWriteIsAcceptedWhileIdle, IdleWriteSetsOneRegister, CtrlHoldsIrqEnOnly, StatusWriteOneToClear,
StatusReadShowsFields, IdIsConstant, RegisterReads and BusyCoreDropsWrites. -/
theorem witness_out_of_reset_idle_and_busy :
    (chip .binary32).inReset = false ∧ (chip .binary32).phase = .idle ∧ busyGray.inReset = false ∧
      busyGray.phase = .busy := by decide +kernel

theorem witness_BusyCoreDropsWrites :
    0x0C ∈ droppedOffsets ∧ 0x48 ∈ droppedOffsets ∧ 0x44 ∈ ignoredOffsets ∧ 0x4C % 4 = 0 ∧ 0xFC ≤ 0xFC ∧ 0xFC % 4 = 0 ∧
      (afterStep (writes 0x20 5 busyGray)).phase = .busy ∧
      nextOf (step (writes 0x20 5 busyGray)) = some (afterStep (writes 0x20 5 busyGray)) := by decide +kernel

theorem witness_IdleWriteSetsOneRegister :
    Reg.srcBase.offset ∈ droppedOffsets ∧ Reg.prngState.offset ∈ droppedOffsets ∧ Reg.prngState ≠ .cmd := by decide

theorem witness_ReservedOffsetsAndRefusedAccesses :
    0x4C ≤ 0x4C ∧ 0xFC ≤ 0xFC ∧ 0x4C % 4 = 0 ∧ 0x02 % 4 ≠ 0 ∧ ([1, 2, 3, 4] : List Byte).length = 4 ∧ 2 ≠ 4 ∧
      ([1, 2] : List Byte).length = 2 := by decide

theorem witness_RegisterReads :
    busyGray.phase = .busy ∧ ¬ (busyGray.phase = .busy ∧ (Reg.status = .dstLen ∨ Reg.status = .result ∨ Reg.status = .prngState)) ∧
      ¬ ((chip .binary32).phase = .busy) := by decide +kernel

theorem witness_IrqFollowsDone :
    ({ busyGray with irqEn := true } : State).phase = .busy ∧
      (nextOf (step { busyGray with irqEn := true })).isSome = true ∧
      (raiseError .lenAlign (chip .binary32)).done = true ∧ (1 : Word).getLsbD 0 = true ∧ (0 : Word).getLsbD 0 = false ∧
      (2 : Word).getLsbD 1 = true ∧ (nextOf (step (writes 0x04 1 (chip .binary32)))).isSome = true ∧
      (nextOf (step (writes 0x08 2 (chip .binary32)))).isSome = true ∧
      (nextOf (step (writes 0x0C 1 (chip .binary32)))).isSome = true := by decide +kernel

theorem witness_CompletionWinsOverStatusClear :
    busyGray.inReset = false ∧ busyGray.phase = .busy ∧ 0x3C ∈ droppedOffsets := by decide +kernel

theorem witness_HostMemoryOutsideFootprint :
    0xFFF < (chip .binary32).params.memBytes ∧ inFootprint (chip .binary32) 0xFFF = false ∧
      inFootprint busyGray 4 = false ∧ 4 < busyGray.params.memBytes := by decide +kernel

theorem witness_AddressesBeyondMemoryFault : (chip .binary32).params.memBytes ≤ 0x1000 := by decide +kernel

theorem witness_FootprintOfRunningCommand :
    busyGray.phase = .busy ∧ decode busyGray.cmd = .ok .grayscale ∧ (chip .binary32).phase = .idle ∧
      CommandWord.wellFormed ((chip .binary32).accept 0x25).cmd = false := by decide +kernel

theorem witness_HostAccessInsideFootprint :
    3 < busyGray.params.memBytes ∧ inFootprint busyGray 3 = true ∧ inFootprint busyFlip 0x10F = true ∧
      inFootprint busyFlip 0x00F = true ∧ inFootprint busyFlip 0x110 = false := by decide +kernel

theorem witness_TaintedCommandWritesAnyBytes :
    (afterStep (asks (.host (.memWrite 3 9)) busyGray)).tainted = true ∧
      clear .grayscale (afterStep (asks (.host (.memWrite 3 9)) busyGray)) = true := by decide +kernel

/-- Both clauses of TaintedCommandWritesAnyBytes. -/
theorem witness_tainted_bytes_are_stored : stores .grayscale busyGray 0 ∧ ¬ stores .grayscale busyGray 3 := by
  constructor
  · exact .inl ⟨rfl, 0, 0, by decide, by decide, by decide⟩
  · rintro (⟨-, k, c, hk, hc, h⟩ | ⟨h, -⟩)
    · have : filterPixels .grayscale busyGray = 1 := by decide
      have : busyGray.regs.srcBase.toNat = 0 := by decide
      omega
    · cases h

theorem witness_AssertResetKeepsMemory :
    (chip .binary32).phase = .idle ∧ busyGray.phase = .busy ∧ decode busyGray.cmd = .ok .grayscale ∧
      clear .grayscale busyGray = true := by decide +kernel

/-- The last clause but one of AssertResetKeepsMemory: channel 3 is abandoned too. -/
theorem witness_abandoned_bytes : abandons .grayscale busyGray 3 := by
  exact .inl ⟨rfl, by decide, by decide⟩

theorem witness_AccessesWhileResetAsserted :
    (afterStep (asks .assertReset (chip .binary32))).inReset = true ∧ 0xFC < 256 ∧ 0xFC % 4 = 0 := by decide +kernel

theorem witness_StepKeepsInvariant : (chip .binary32).Inv ∧
    step (chip .binary32) = .next (chip .binary32) := by
  refine ⟨⟨by decide +kernel, by decide, ?_, ?_, ?_, by decide, by decide, ?_, ?_⟩, rfl⟩
  · intro c hc; cases hc
  · intro h; cases h
  · intro h; cases h
  · intro h; cases h
  · intro h; cases h

theorem witness_PhaseChangesOnlyByAcceptCompleteReset :
    (afterStep (writes 0x0C 0x10 (chip .binary32))).phase ≠ (chip .binary32).phase ∧
      (afterStep busyGray).phase ≠ busyGray.phase ∧ (afterStep (asks .assertReset busyGray)).phase ≠ busyGray.phase := by
  decide +kernel

theorem witness_DroppedChangesOnlyByHost :
    busyGray.dropped = false ∧ (afterStep (writes 0x20 5 busyGray)).dropped = true ∧
      (afterStep (writes 0x08 8 (afterStep (writes 0x20 5 busyGray)))).dropped = false := by decide +kernel

theorem witness_ChipParametersAreFixed : (nextOf (step busyGray)).isSome = true := by decide +kernel

theorem witness_RunStatementRunsCommand : (chip .binary64).inReset = false ∧ (chip .binary64).phase = .idle := by
  decide +kernel

end Sys2Proof.Tests
end

section
/-! SUPPORT. The step lemma of the machine's invariant and the chip's parameters (00_scope.md R8; Sys2Proof/Safety.lean):
what relates the states around each event relates the states around a step. -/

namespace Sys2Proof.Machine

/-- A transitive relation that every event keeps, and that does not look at the schedule, is kept by every step. -/
theorem step_rel {R : State → State → Prop} (htrans : ∀ {s t u}, R s t → R t u → R s u)
    (hinbox : ∀ s rest, R s { s with inbox := rest })
    (hhost : ∀ {x s t}, hostTxn x s = .next t → R s t) (hcore : ∀ {s t}, coreTurn s = .next t → R s t)
    (hassert : ∀ s, R s (assertReset s)) (hrelease : ∀ s, R s (releaseReset s))
    {s t : State} (h : step s = .next t) : R s t := by
  rcases step_cases h with ⟨-, hc⟩ | ⟨e, rest, -, he⟩
  · exact hcore hc
  · refine htrans (hinbox s rest) ?_
    cases e with
    | host x => exact hhost he
    | hostAtCompletion x =>
      rcases hostThenCore_cases he with ⟨-, hx⟩ | ⟨-, u, hx, hc⟩
      · exact hhost hx
      · exact htrans (hhost hx) (hcore hc)
    | core => exact hcore he
    | assertReset => cases he; exact hassert _
    | releaseReset => cases he; exact hrelease _

/-! ## What a transaction of the host keeps -/

/-- A register read moves the data on the port and the count of draws only (R20, R48). -/
theorem readOffset_rest (off : Nat) (s : State) :
    readOffset off s = { s with readData := (readOffset off s).readData, draws := (readOffset off s).draws } := by
  unfold readOffset
  split
  · rfl
  · split
    · rfl
    · split <;> rfl

theorem writeOffset_params (off : Nat) (v : Word) (s : State) : (writeOffset off v s).params = s.params := by
  rcases writeOffset_cases off v s with h | ⟨-, -, h⟩ | ⟨-, -, h⟩ | ⟨-, -, h⟩ | ⟨-, -, -, h⟩ | ⟨-, -, r, h⟩ |
    ⟨-, -, -, h⟩ <;> rw [h] <;> rfl

theorem hostTxn_params {x : Txn} {s t : State} (h : hostTxn x s = .next t) : t.params = s.params := by
  rcases hostTxn_cases h with ⟨-, -, off, -, -, rfl⟩ | ⟨-, -, off, v, -, -, -, rfl⟩ | ⟨a, -, -, -, rfl⟩ |
    ⟨a, -, -, -, rfl⟩ | ⟨a, b, -, -, rfl⟩
  · rw [readOffset_rest]
  · exact writeOffset_params off v s
  · rfl
  · rfl
  · rfl

theorem abandonCommand_params (s : State) : (abandonCommand s).params = s.params := by
  obtain ⟨m, d, h⟩ := abandonCommand_rest s
  rw [h]

/-- Only a running command has a footprint (R67). -/
theorem busy_of_inFootprint {s : State} {a : Nat} (h : inFootprint s a = true) : s.phase = .busy := by
  cases hp : s.phase with
  | busy => rfl
  | idle => simp [inFootprint, runningFootprint, hp] at h

/-! ## The invariant under each change of the state -/

/-- A core that is busy is out of reset. -/
theorem State.Inv.inReset_eq_false {s : State} (h : s.Inv) (hb : s.phase = .busy) : s.inReset = false := by
  by_contra hr
  have := (h.resetState (by simpa using hr)).phase
  rw [hb] at this
  cases this

/-- What the reset values speak of stays when memory and the model's own fields move. -/
theorem State.AtResetValues.withMemory {s : State} (h : s.AtResetValues) (m : Memory) (d : Nat) (i : List Event)
    (r : Option ReadData) (b : Bool) :
    State.AtResetValues { s with mem := m, draws := d, inbox := i, readData := r, tainted := b } :=
  ⟨h.phase, h.irqEn, h.done, h.err, h.dropped, h.errCode, h.cmd, h.regs, h.dstLen, h.result, h.prngState⟩

/-- Memory and the model's own fields may move, as long as memory keeps its form and only a running command is tainted. -/
theorem State.Inv.withMemory {s : State} (h : s.Inv) {m : Memory} {b : Bool} (hwf : Memory.wf m)
    (hin : ∀ c ∈ m, c.1 < s.params.memBytes) (hb : b = true → s.phase = .busy) (d : Nat) (i : List Event)
    (r : Option ReadData) :
    State.Inv { s with mem := m, draws := d, inbox := i, readData := r, tainted := b } :=
  ⟨h.params, hwf, hin, h.busyFlags, h.errHasCode, h.codeBound, h.resultByte, hb,
    fun hr => (h.resetState hr).withMemory m d i r b⟩

/-- The schedule, the port's data and the count of draws are free. -/
theorem State.Inv.withPort {s : State} (h : s.Inv) (d : Nat) (i : List Event) (r : Option ReadData) :
    State.Inv { s with draws := d, inbox := i, readData := r } :=
  h.withMemory h.memWf h.memInside h.taintBusy d i r

theorem State.Inv.readOffset {s : State} (h : s.Inv) (off : Nat) : (readOffset off s).Inv := by
  rw [readOffset_rest]
  exact h.withPort _ _ _

/-- A STATUS write only clears flags, and ERR_CODE stays (R24 to R28). -/
theorem State.Inv.writeStatus {s : State} (h : s.Inv) (hr : s.inReset = false) (v : Word) : (s.writeStatus v).Inv where
  params := h.params
  memWf := h.memWf
  memInside := h.memInside
  busyFlags hb := by
    obtain ⟨hdone, herr, hcode⟩ := h.busyFlags hb
    simp [hdone, herr, hcode]
  errHasCode he := h.errHasCode (Bool.and_eq_true_iff.mp he).1
  codeBound := h.codeBound
  resultByte := h.resultByte
  taintBusy := h.taintBusy
  resetState hr' := by simp [hr] at hr'

/-- Acceptance clears STATUS as a command in flight needs it (R92). -/
theorem State.Inv.accept {s : State} (h : s.Inv) (hr : s.inReset = false) (w : Word) : (s.accept w).Inv where
  params := h.params
  memWf := h.memWf
  memInside := h.memInside
  busyFlags _ := ⟨rfl, rfl, rfl⟩
  errHasCode he := by simp at he
  codeBound := by simp
  resultByte := h.resultByte
  taintBusy ht := by simp at ht
  resetState hr' := by simp [hr] at hr'

/-- Out of reset nothing is asked of CTRL, DROPPED, the parameter registers and PRNG_STATE. -/
theorem State.Inv.withHostRegs {s : State} (h : s.Inv) (hr : s.inReset = false) (q d : Bool) (r : Regs) (g : Word) :
    State.Inv { s with irqEn := q, dropped := d, regs := r, prngState := g } :=
  ⟨h.params, h.memWf, h.memInside, h.busyFlags, h.errHasCode, h.codeBound, h.resultByte, h.taintBusy,
    fun hr' => absurd (hr.symm.trans hr') Bool.false_ne_true⟩

theorem State.Inv.writeOffset {s : State} (h : s.Inv) (off : Nat) (v : Word) : (writeOffset off v s).Inv := by
  rcases writeOffset_cases off v s with hw | ⟨hr, -, hw⟩ | ⟨hr, -, hw⟩ | ⟨hr, -, hw⟩ | ⟨hr, -, -, hw⟩ |
    ⟨hr, -, r, hw⟩ | ⟨hr, -, -, hw⟩ <;> rw [hw]
  · exact h
  · exact h.withHostRegs hr _ _ _ _
  · exact h.writeStatus hr v
  · exact h.withHostRegs hr _ _ _ _
  · exact h.accept hr v
  · exact h.withHostRegs hr _ _ _ _
  · exact h.withHostRegs hr _ _ _ _

/-- Every transaction of the host keeps the invariant. -/
theorem State.Inv.hostTxn {x : Txn} {s t : State} (h : s.Inv) (hx : hostTxn x s = .next t) : t.Inv := by
  rcases hostTxn_cases hx with ⟨-, -, off, -, -, rfl⟩ | ⟨-, -, off, v, -, -, -, rfl⟩ | ⟨a, -, -, -, rfl⟩ |
    ⟨a, -, -, -, rfl⟩ | ⟨a, b, -, ha, rfl⟩
  · exact h.readOffset off
  · exact h.writeOffset off v
  · exact h.withPort _ _ _
  · exact h.withPort _ _ _
  · refine h.withMemory (Memory.wf_set a b h.memWf) (Memory.inside_set b ha h.memInside) (fun ht => ?_) _ _ _
    rcases Bool.or_eq_true_iff.mp ht with ht | hf
    · exact h.taintBusy ht
    · exact busy_of_inFootprint hf

/-! ## The invariant after the core's turn and under reset -/

theorem CmdError.code_ne_zero (e : CmdError) : e.code ≠ 0x00 := by cases e <;> decide

/-- The codes end at 0x0A (R250). -/
theorem CmdError.code_le (e : CmdError) : e.code.toNat ≤ 0x0A := by cases e <;> decide

/-- An error completion keeps the invariant (R262). -/
theorem State.Inv.raiseError {s : State} (h : s.Inv) (hb : s.phase = .busy) (e : CmdError) : (raiseError e s).Inv where
  params := h.params
  memWf := h.memWf
  memInside := h.memInside
  busyFlags hp := by cases hp
  errHasCode _ := e.code_ne_zero
  codeBound := e.code_le
  resultByte := h.resultByte
  taintBusy ht := by cases ht
  resetState hr := absurd ((h.inReset_eq_false hb).symm.trans hr) Bool.false_ne_true

/-- A completion without error keeps the invariant: the command's stores lie inside the pixel memory (R66, R263). -/
theorem State.Inv.completeOk {i : Instr} {s u : State} (h : s.Inv) (hb : s.phase = .busy)
    (hok : commandError i s = none) (hu : CommandEffect i s u) : (completeOk u).Inv := by
  have hparams : u.params = s.params := by rw [hu.rest]
  have hreset : u.inReset = false := by rw [hu.rest]; exact h.inReset_eq_false hb
  exact {
    params := hparams ▸ h.params
    memWf := hu.wf h.memWf
    memInside := hparams ▸ hu.bound s.params.memBytes (fun _ ha => writtenBy_inside hok ha) h.memInside
    busyFlags := fun hp => by cases hp
    errHasCode := fun he => by cases he
    codeBound := Nat.zero_le _
    resultByte := hu.result h.resultByte
    taintBusy := fun ht => by cases ht
    resetState := fun hr => absurd (hreset.symm.trans hr) Bool.false_ne_true }

/-- The core's turn keeps the invariant. -/
theorem State.Inv.coreTurn {s t : State} (h : s.Inv) (ht : coreTurn s = .next t) : t.Inv := by
  rcases coreTurn_cases ht with ⟨-, rfl⟩ | ⟨hb, i, -, hx⟩ | ⟨hb, -, -, rfl⟩
  · exact h
  · cases hce : commandError i s with
    | some e =>
      rw [exec_of_error hce] at hx
      cases hx
      exact h.raiseError hb e
    | none =>
      obtain ⟨u, hu, heffect⟩ := exec_ok hce
      rw [hx] at hu
      cases hu
      exact h.completeOk hb hce heffect
  · exact h.raiseError hb .illegalCmd

/-- Abandoning a command forgets bytes inside the pixel memory only (R66, R291). -/
theorem State.Inv.abandonCommand_mem {s : State} (h : s.Inv) :
    Memory.wf (abandonCommand s).mem ∧ ∀ c ∈ (abandonCommand s).mem, c.1 < s.params.memBytes := by
  have kept := And.intro h.memWf h.memInside
  unfold abandonCommand
  split
  · exact kept
  · split
    · exact kept
    · split
      · exact kept
      · next r hr =>
        exact ⟨forgetBytes_wf _ _ _ h.memWf, forgetBytes_bound _ _ _ _ (region_inside hr) h.memInside⟩

/-- `rst_n` going low leaves the reset values and memory in its form (R290, R291). -/
theorem State.Inv.assertReset {s : State} (h : s.Inv) : (assertReset s).Inv := by
  obtain ⟨hwf, hinside⟩ := h.abandonCommand_mem
  exact {
    params := (abandonCommand_params s).symm ▸ h.params
    memWf := hwf
    memInside := (abandonCommand_params s).symm ▸ hinside
    busyFlags := fun hp => by cases hp
    errHasCode := fun he => by cases he
    codeBound := Nat.zero_le _
    resultByte := Nat.zero_lt_succ _
    taintBusy := fun ht => by cases ht
    resetState := fun _ => ⟨rfl, rfl, rfl, rfl, rfl, rfl, rfl, rfl, rfl, rfl, rfl⟩ }

theorem State.Inv.releaseReset {s : State} (h : s.Inv) : (releaseReset s).Inv :=
  ⟨h.params, h.memWf, h.memInside, h.busyFlags, h.errHasCode, h.codeBound, h.resultByte, h.taintBusy,
    fun hr => by cases hr⟩

/-- Settles O56: each event keeps the invariant. -/
theorem stepKeepsInvariant : Obligations.StepKeepsInvariant := by
  intro s t h hstep
  exact step_rel (R := fun s t => s.Inv → t.Inv) (fun hst htu h => htu (hst h)) (fun _ _ h => h.withPort _ _ _)
    (fun hx h => h.hostTxn hx) (fun hc h => h.coreTurn hc) (fun _ h => h.assertReset) (fun _ h => h.releaseReset)
    hstep h

/-- Settles O59: each event leaves the parameters alone. -/
theorem chipParametersAreFixed : Obligations.ChipParametersAreFixed := by
  intro s t hstep
  refine step_rel (R := fun s t => t.params = s.params) (fun hst htu => htu.trans hst) (fun _ _ => rfl) hostTxn_params
    (fun hc => ?_) abandonCommand_params (fun _ => rfl) hstep
  obtain ⟨-, -, -, hparams, -⟩ := coreTurn_rest hc
  exact hparams

end Sys2Proof.Machine
end

section
/-! SUPPORT. The arithmetic of 00_scope.md R11 and R12: rounding is to a nearest number of p bits, `conv` is exact on
small integers, and what `tc` makes of each kind of value. -/

namespace Sys2Proof

open Claims

/-! ## Rounding to p bits -/

/-- The support lemmas' numbers of p bits, which count 2^p as one, are the numbers of p bits. -/
theorem HasBits.representable {p m : Nat} (hp : 0 < p) (h : HasBits p m) : representable p m := by
  obtain ⟨t, k, ht, rfl⟩ := h
  rcases Nat.lt_or_eq_of_le ht with hlt | rfl
  · exact ⟨t, k, hlt, rfl⟩
  · refine ⟨1, p + k, Nat.one_lt_two_pow (by omega), ?_⟩
    rw [one_mul, pow_add]

/-- A number of p bits is a whole number of units 2^k, or it is below the p-bit significands of that unit. -/
theorem representable_cases {p m : Nat} (hp : 0 < p) (h : representable p m) (k : Nat) :
    (∃ u, m = u * 2 ^ k) ∨ (0 < k ∧ m < 2 ^ (p - 1) * 2 ^ k) := by
  obtain ⟨t, j, ht, rfl⟩ := h
  rcases Nat.lt_or_ge j k with hjk | hkj
  · refine .inr ⟨by omega, ?_⟩
    calc t * 2 ^ j < 2 ^ p * 2 ^ j := Nat.mul_lt_mul_of_pos_right ht (Nat.two_pow_pos j)
      _ = 2 ^ (p + j) := (pow_add 2 p j).symm
      _ ≤ 2 ^ (p - 1 + k) := Nat.pow_le_pow_right (by omega) (by omega)
      _ = 2 ^ (p - 1) * 2 ^ k := pow_add 2 (p - 1) k
  · obtain ⟨i, rfl⟩ := Nat.exists_eq_add_of_le hkj
    exact .inl ⟨t * 2 ^ i, by ring⟩

/-- When bits are lost, the least p-bit significand of the unit is no more than the ratio. -/
theorem least_mul_le_of_excess {p n d : Nat} (hp : 0 < p) (hd : 0 < d) (hk : 0 < excessBits p (n / d)) :
    2 ^ (p - 1) * 2 ^ excessBits p (n / d) * d ≤ n := by
  rw [← pow_add]
  exact (Nat.le_div_iff_mul_le hd).mp (two_pow_le_of_excess hp hk)

/-- Among the whole numbers of units the rounded ratio is a nearest one, and of two as near the even one. -/
theorem roundRatio_nearest_multiple {p n d : Nat} (hd : 0 < d) (u : Nat) :
    |((roundRatio p n d * d : Nat) : Int) - n| ≤ |((u * 2 ^ excessBits p (n / d) * d : Nat) : Int) - n| ∧
    (u * 2 ^ excessBits p (n / d) ≠ roundRatio p n d →
      |((roundRatio p n d * d : Nat) : Int) - n| = |((u * 2 ^ excessBits p (n / d) * d : Nat) : Int) - n| →
      nearestEven n (d * 2 ^ excessBits p (n / d)) % 2 = 0) := by
  have unit : ∀ v, v * 2 ^ excessBits p (n / d) * d = v * (d * 2 ^ excessBits p (n / d)) := fun v => by ring
  obtain ⟨hle, heven⟩ := nearestEven_nearest n (d * 2 ^ excessBits p (n / d))
    (Nat.mul_pos hd (Nat.two_pow_pos _)) u
  unfold roundRatio
  rw [unit, unit]
  exact ⟨hle, fun hne => heven (fun hu => hne (by rw [hu]))⟩

/-- The significand chosen has p bits, and a first bit unless the ratio is rounded to a whole number. -/
theorem roundRatio_significand {p n d : Nat} (hp : 0 < p) (hd : 0 < d) :
    nearestEven n (d * 2 ^ excessBits p (n / d)) ≤ 2 ^ p ∧
    (excessBits p (n / d) = 0 ∨ 2 ^ (p - 1) ≤ nearestEven n (d * 2 ^ excessBits p (n / d))) := by
  have hunit := Nat.two_pow_pos (excessBits p (n / d))
  constructor
  · have h := roundRatio_le_pow (p := p) (n := n) hd
    rw [roundRatio, pow_add] at h
    exact Nat.le_of_mul_le_mul_right h hunit
  · rcases Nat.eq_zero_or_pos (excessBits p (n / d)) with h0 | hpos
    · exact .inl h0
    · have h := pow_le_roundRatio hp hd hpos
      rw [roundRatio, pow_add] at h
      exact .inr (Nat.le_of_mul_le_mul_right h hunit)

/-- A number below the p-bit significands of the unit is farther from the ratio than the rounded one: the least of these
significands lies between it and the ratio. -/
theorem roundRatio_nearer_of_lt {p n d m : Nat} (hp : 0 < p) (hd : 0 < d) (hk : 0 < excessBits p (n / d))
    (hm : m < 2 ^ (p - 1) * 2 ^ excessBits p (n / d)) :
    |((roundRatio p n d * d : Nat) : Int) - n| < |((m * d : Nat) : Int) - n| := by
  have hleast := least_mul_le_of_excess hp hd hk
  have hfar : m * d < 2 ^ (p - 1) * 2 ^ excessBits p (n / d) * d := Nat.mul_lt_mul_of_pos_right hm hd
  obtain ⟨hnear, -⟩ := roundRatio_nearest_multiple (p := p) (n := n) hd (2 ^ (p - 1))
  refine lt_of_le_of_lt hnear ?_
  rw [abs_of_nonpos (by omega), abs_of_nonpos (by omega)]
  omega

/-- Settles O10: a number of p bits is a whole number of the rounding's units, or it is farther away. -/
theorem roundingIsToNearestEven : Obligations.RoundingIsToNearestEven := by
  intro p n d hp hd
  refine ⟨(hasBits_roundRatio hd).representable hp, fun m hm => ?_⟩
  rcases representable_cases hp hm (excessBits p (n / d)) with ⟨u, rfl⟩ | ⟨hk, hlt⟩
  · obtain ⟨hnear, heven⟩ := roundRatio_nearest_multiple (p := p) (n := n) hd u
    obtain ⟨hle, hnormal⟩ := roundRatio_significand (n := n) hp hd
    exact ⟨hnear, fun hne htie => ⟨_, _, rfl, heven hne htie, hle, hnormal⟩⟩
  · have hnear := roundRatio_nearer_of_lt hp hd hk hlt
    exact ⟨hnear.le, fun _ htie => absurd htie hnear.ne⟩

/-! ## The rounded square root -/

/-- The rounded root as R units 2^k, and the whole part t it is rounded from: for u up to t the midpoint of u and R units
does not lie above the root, and beyond t it does not lie below. -/
theorem roundRoot_midpoints (p n : Nat) (hp : 0 < p) :
    ∃ t R, roundRoot p n = R * 2 ^ rootExcess p n ∧ (R = t ∨ R = t + 1) ∧
      (0 < rootExcess p n → 2 ^ (p - 1) ≤ t) ∧
      (∀ u, u ≤ t → (u + R) * (u + R) * 4 ^ rootExcess p n ≤ 4 * n) ∧
      (∀ u, t < u → 4 * n ≤ (u + R) * (u + R) * 4 ^ rootExcess p n) := by
  obtain ⟨hlow, hhigh⟩ := wholeRoot_spec p _ (rootArg_lt (p := p) (n := n))
  have hleast := pow_le_root (p := p) (n := n) hp
  have h4 : 0 < 4 ^ rootExcess p n := Nat.pow_pos (by omega)
  simp only [roundRoot]
  generalize wholeRoot p (n / 4 ^ rootExcess p n) = t at *
  rw [Nat.le_div_iff_mul_le h4] at hlow
  rw [Nat.div_lt_iff_lt_mul h4] at hhigh
  generalize rootExcess p n = k at *
  have square : ∀ {a b : Nat}, a ≤ b → a * a * 4 ^ k ≤ b * b * 4 ^ k :=
    fun h => Nat.mul_le_mul_right _ (Nat.mul_self_le_mul_self h)
  refine ⟨t, _, rfl, ?_, hleast, fun u hu => ?_, fun u hu => ?_⟩
  · split <;> simp
  · split
    · next hup =>
      calc (u + (t + 1)) * (u + (t + 1)) * 4 ^ k ≤ (2 * t + 1) * (2 * t + 1) * 4 ^ k := square (by omega)
        _ ≤ 4 * n := by omega
    · calc (u + t) * (u + t) * 4 ^ k ≤ (2 * t) * (2 * t) * 4 ^ k := square (by omega)
        _ = 4 * (t * t * 4 ^ k) := by ring
        _ ≤ 4 * n := by omega
  · split
    · calc 4 * n ≤ 4 * ((t + 1) * (t + 1) * 4 ^ k) := by omega
        _ = (2 * (t + 1)) * (2 * (t + 1)) * 4 ^ k := by ring
        _ ≤ (u + (t + 1)) * (u + (t + 1)) * 4 ^ k := square (by omega)
    · next hdown =>
      calc 4 * n ≤ (2 * t + 1) * (2 * t + 1) * 4 ^ k := by omega
        _ ≤ (u + t) * (u + t) * 4 ^ k := square (by omega)

/-- The rounded root has p significant bits. -/
theorem hasBits_roundRoot (p n : Nat) : HasBits p (roundRoot p n) := by
  refine ⟨_, rootExcess p n, ?_, rfl⟩
  have := root_lt (p := p) (n := n)
  split <;> omega

/-- Settles O11: a number of p bits is a whole number of the rounding's units, or it is below the whole part. -/
theorem squareRootIsNearest : Obligations.SquareRootIsNearest := by
  intro p n hp
  refine ⟨(hasBits_roundRoot p n).representable hp, fun m hm => ?_⟩
  obtain ⟨t, R, hr, hR, hleast, hbelow, habove⟩ := roundRoot_midpoints p n hp
  rw [hr]
  generalize rootExcess p n = k at *
  have hunit := Nat.two_pow_pos k
  have square : ∀ u, (u * 2 ^ k + R * 2 ^ k) * (u * 2 ^ k + R * 2 ^ k) = (u + R) * (u + R) * 4 ^ k := fun u => by
    rw [show (4 : Nat) ^ k = 2 ^ k * 2 ^ k from mul_pow 2 2 k]
    ring
  rcases representable_cases hp hm k with ⟨u, rfl⟩ | ⟨hk, hlt⟩
  · rw [square]
    exact ⟨fun h => hbelow u (by have := Nat.lt_of_mul_lt_mul_right h; omega),
      fun h => habove u (by have := Nat.lt_of_mul_lt_mul_right h; omega)⟩
  · have hmid : (m + R * 2 ^ k) * (m + R * 2 ^ k) ≤ 4 * n := calc
      _ ≤ (2 ^ (p - 1) * 2 ^ k + R * 2 ^ k) * (2 ^ (p - 1) * 2 ^ k + R * 2 ^ k) :=
        Nat.mul_self_le_mul_self (by omega)
      _ ≤ 4 * n := by rw [square]; exact hbelow _ (hleast hk)
    have hmr : m < R * 2 ^ k := lt_of_lt_of_le hlt (Nat.mul_le_mul_right _ (by have := hleast hk; omega))
    exact ⟨fun _ => hmid, fun h => absurd h (by omega)⟩

/-! ## `conv` and `tc` -/

/-- `conv` is exact on an integer of no more bits than the format's precision (R11). -/
theorem Fp.conv_exact {f : Fmt} {n : Int} (h : n.natAbs ≤ 2 ^ f.precision) :
    Fp.conv f n = .fin (decide (n < 0)) (n.natAbs * f.one) := by
  have hbits : HasBits f.precision (n.natAbs * f.one) := ⟨n.natAbs, f.unitExp, h, rfl⟩
  have hmax : n.natAbs * f.one ≤ f.maxMag :=
    (Nat.mul_le_mul_right _ h).trans (f.two_pow_one_le_max (by cases f <;> decide))
  obtain ⟨hfin, -⟩ := Fp.round_fin (s := decide (n < 0)) Nat.one_pos hbits hmax (Nat.mul_one _).ge
  have hexact := roundRatio_exact f.precision_pos Nat.one_pos hbits
  rw [Nat.mul_one] at hexact
  rw [Fp.conv, hfin, hexact]

/-- Settles O12: the two bounds are the two precisions. -/
theorem convIsExactForSmallIntegers : Obligations.ConvIsExactForSmallIntegers := by
  refine ⟨fun n h => ?_, fun n h => ?_⟩
  · rw [Fp.conv_exact (f := .binary32) (by zify; exact h), Fmt.one, Fmt.unitExp]
  · rw [Fp.conv_exact (f := .binary64) (by zify; exact h), Fmt.one, Fmt.unitExp]

theorem clamp8_of_nonpos {n : Int} (h : n ≤ 0) : clamp8 n = 0 := by
  rcases Int.lt_or_eq_of_le h with hlt | rfl
  · rw [clamp8, if_pos hlt]
  · rfl

theorem clamp8_of_ge {n : Int} (h : 255 ≤ n) : clamp8 n = 255 := by
  rcases Int.lt_or_eq_of_le h with hlt | rfl
  · rw [clamp8, if_neg (by omega), if_pos hlt]
  · rfl

theorem clamp8_natCast {n : Nat} (h : n ≤ 255) : clamp8 (n : Int) = BitVec.ofNat 8 n := by
  rw [clamp8, if_neg (by omega), if_neg (by omega), BitVec.ofInt_natCast]

/-- `tc` of a value that is not negative is its whole part, clamped. -/
theorem tc_fin_false (f : Fmt) (m : Nat) : tc f (.fin false m) = some (clamp8 ((m / f.one : Nat) : Int)) := rfl

/-- `tc` of a negative value is its whole part negated, clamped. -/
theorem tc_fin_true (f : Fmt) (m : Nat) : tc f (.fin true m) = some (clamp8 (-((m / f.one : Nat) : Int))) := rfl

/-- Settles O13: the whole part of a finite value, clamped. -/
theorem truncateThenClamp : Obligations.TruncateThenClamp := by
  refine ⟨fun f n hn r hr => ?_, fun f m hm => ?_, fun f m => ?_, fun f => ⟨rfl, rfl, rfl⟩, rfl⟩
  · have hwhole : (n * f.one + r) / f.one = n := by
      rw [Nat.mul_comm, Nat.mul_add_div f.one_pos, Nat.div_eq_of_lt hr, Nat.add_zero]
    rw [tc_fin_false, hwhole, clamp8_natCast hn]
  · have hwhole : 255 ≤ m / f.one := (Nat.le_div_iff_mul_le f.one_pos).mpr hm
    rw [tc_fin_false, clamp8_of_ge (by omega)]
  · rw [tc_fin_true, clamp8_of_nonpos (neg_nonpos.mpr (Int.natCast_nonneg _))]

end Sys2Proof
end

section
/-! SUPPORT. The register window as the host sees it: what a read or a write of each kind of offset does in one step
(10_state.md R20 to R48), and the statements that say so register by register. -/

namespace Sys2Proof.Machine

open Claims

/-! ## One access of the window -/

/-- An event placed before all others is the one the step carries out. -/
theorem step_asks (e : Event) (s : State) : step (asks e s) = runEvent e s := rfl

theorem step_writes {off : Nat} (v : Word) (s : State) (h1 : off < 256) (h2 : off % 4 = 0) :
    step (writes off v s) = .next (writeOffset off v s) := hostRegWrite_at v h1 h2

theorem step_reads {off : Nat} (s : State) (h1 : off < 256) (h2 : off % 4 = 0) :
    step (reads off s) = .next (readOffset off s) := hostRegRead_at h1 h2

/-- PRNG_STATE is the last register of the window; reserved offsets follow (R45). -/
theorem Reg.offset_le (r : Reg) : r.offset ≤ 0x48 := by cases r <;> decide

theorem Reg.offset_aligned (r : Reg) : r.offset % 4 = 0 := by cases r <;> decide

theorem Reg.ofOffset_reserved {off : Nat} (h : 0x4C ≤ off) : Reg.ofOffset off = none := by
  cases ho : Reg.ofOffset off with
  | none => rfl
  | some r =>
    have := Reg.offset_of_ofOffset ho
    have := r.offset_le
    omega

theorem writeOffset_offset {s : State} (hr : s.inReset = false) (r : Reg) (v : Word) :
    writeOffset r.offset v s = s.writeReg v r := by
  simp [writeOffset, hr, Reg.ofOffset_offset]

theorem writeOffset_reserved {off : Nat} (h : 0x4C ≤ off) (v : Word) (s : State) : writeOffset off v s = s := by
  simp [writeOffset, Reg.ofOffset_reserved h]

theorem readOffset_offset {s : State} (hr : s.inReset = false) (r : Reg) :
    readOffset r.offset s =
      if s.busy && r.unspecifiedWhileBusy then s.answerFreeWord else s.answerWord (s.readReg r) := by
  simp [readOffset, hr, Reg.ofOffset_offset]

theorem readOffset_reserved {s : State} (hr : s.inReset = false) {off : Nat} (h : 0x4C ≤ off) :
    readOffset off s = s.answerWord 0 := by
  simp [readOffset, hr, Reg.ofOffset_reserved h]

/-- Out of reset a write at a register's offset is the write of that register. -/
theorem step_writes_offset {s : State} (hr : s.inReset = false) (r : Reg) (v : Word) :
    step (writes r.offset v s) = .next (s.writeReg v r) := by
  have := r.offset_le
  rw [step_writes v s (by omega) r.offset_aligned, writeOffset_offset hr]

theorem step_writes_reserved {off : Nat} (s : State) (v : Word) (h1 : 0x4C ≤ off) (h2 : off ≤ 0xFC) (h3 : off % 4 = 0) :
    step (writes off v s) = .next s := by
  rw [step_writes v s (by omega) h3, writeOffset_reserved h1]

theorem Reg.unspecifiedWhileBusy_iff (r : Reg) :
    r.unspecifiedWhileBusy = true ↔ r = .dstLen ∨ r = .result ∨ r = .prngState := by cases r <;> decide

/-- Out of reset a read gives the register's value, unless the core may be moving it (R48). -/
theorem step_reads_offset {s : State} (hr : s.inReset = false) {r : Reg}
    (h : ¬ (s.phase = .busy ∧ r.unspecifiedWhileBusy = true)) :
    step (reads r.offset s) = .next (given (s.readReg r) s) := by
  have := r.offset_le
  rw [step_reads s (by omega) r.offset_aligned, readOffset_offset hr,
    if_neg (by rwa [Bool.and_eq_true, State.busy_eq_true])]
  rfl

theorem step_reads_offset_specified {s : State} (hr : s.inReset = false) {r : Reg}
    (h : r.unspecifiedWhileBusy = false) : step (reads r.offset s) = .next (given (s.readReg r) s) :=
  step_reads_offset hr (by simp [h])

theorem step_reads_offset_free {s : State} (hr : s.inReset = false) {r : Reg} (hb : s.phase = .busy)
    (h : r.unspecifiedWhileBusy = true) :
    step (reads r.offset s) = .next (given (Config.freeWord s.draws) { s with draws := s.draws + 1 }) := by
  have := r.offset_le
  rw [step_reads s (by omega) r.offset_aligned, readOffset_offset hr,
    if_pos (by rw [State.busy_eq_true.mpr hb, h]; rfl)]
  rfl

/-! ## The registers the host sets while the core is idle -/

/-- Every offset of the list of R47 is a register's. -/
theorem exists_reg_of_mem_droppedOffsets {off : Nat} (h : off ∈ droppedOffsets) : ∃ r : Reg, r.offset = off := by
  have mapped : ∀ o ∈ droppedOffsets, (Reg.ofOffset o).isSome = true := by decide
  obtain ⟨r, ho⟩ := Option.isSome_iff_exists.mp (mapped off h)
  exact ⟨r, (Reg.offset_of_ofOffset ho).symm⟩

/-- A busy core drops the writes of the list of R47. -/
theorem State.writeReg_of_busy {s : State} {r : Reg} (hb : s.phase = .busy) (h : r.offset ∈ droppedOffsets) (v : Word) :
    s.writeReg v r = s.dropWrite := by
  cases r with
  | id | ctrl | status | dstLen | result => exact absurd h (by decide)
  | cmd | srcBase | srcLen | dstBase | width | height | newWidth | newHeight | startX | startY | amount | strength
  | arg | prngState => exact State.unlessBusy_busy hb _

theorem writeOffset_dropped {s : State} {off : Nat} (hr : s.inReset = false) (hb : s.phase = .busy)
    (h : off ∈ droppedOffsets) (v : Word) : writeOffset off v s = s.dropWrite := by
  obtain ⟨r, rfl⟩ := exists_reg_of_mem_droppedOffsets h
  rw [writeOffset_offset hr, State.writeReg_of_busy hb h]

/-- `t` is `s` with one register, a parameter register or PRNG_STATE, reading `v` instead. -/
structure SetsRegister (r : Reg) (v : Word) (s t : State) : Prop where
  rest : t = { s with regs := t.regs, prngState := t.prngState }
  same : t.readReg r = v
  others : ∀ q, q ≠ r → t.readReg q = s.readReg q

/-- An idle core takes the writes of the list of R47; that of CMD starts a command (R92). -/
theorem State.writeReg_of_idle {s : State} {r : Reg} (hi : s.phase = .idle) (h : r.offset ∈ droppedOffsets)
    (hc : r ≠ .cmd) (v : Word) : SetsRegister r v s (s.writeReg v r) := by
  cases r with
  | id | ctrl | status | dstLen | result => exact absurd h (by decide)
  | cmd => exact absurd rfl hc
  | srcBase | srcLen | dstBase | width | height | newWidth | newHeight | startX | startY | amount | strength | arg
  | prngState =>
    simp only [State.writeReg, State.unlessBusy_idle hi]
    exact ⟨rfl, rfl, fun q hq => by cases q <;> trivial⟩

/-! ## The fields of CTRL and STATUS -/

theorem State.ctrlWord_fields (s : State) : s.ctrlWord.getLsbD 0 = s.irqEn ∧ s.ctrlWord.extractLsb' 1 31 = 0 := by
  unfold State.ctrlWord flagBit
  exact ⟨by rw [BitVec.getLsbD_append]; simp, BitVec.extractLsb'_append_eq_left⟩

theorem State.statusWord_flags (s : State) :
    s.statusWord.getLsbD 0 = s.busy ∧ s.statusWord.getLsbD 1 = s.done ∧ s.statusWord.getLsbD 2 = s.err ∧
      s.statusWord.getLsbD 3 = s.dropped := by
  simp only [State.statusWord, flagBit, BitVec.getLsbD_append, BitVec.getLsbD_ofBool]
  simp

/-- The bytes of STATUS above the flags: the low nibble of zeros, ERR_CODE, and the upper half of zeros. -/
theorem State.statusWord_fields (s : State) :
    s.statusWord.extractLsb' 4 4 = 0 ∧ s.statusWord.extractLsb' 8 8 = s.errCode ∧ s.statusWord.extractLsb' 16 16 = 0 := by
  have above : ∀ start len, s.statusWord.extractLsb' (start + 4) len =
      ((0 : BitVec 16) ++ s.errCode ++ (0 : BitVec 4)).extractLsb' start len := by
    intro start len
    unfold State.statusWord
    rw [BitVec.extractLsb'_append_eq_of_le (by omega), BitVec.extractLsb'_append_eq_of_le (by omega),
      BitVec.extractLsb'_append_eq_of_le (by omega), BitVec.extractLsb'_append_eq_of_le (by omega)]
    rfl
  refine ⟨?_, ?_, ?_⟩
  · rw [above 0 4]; exact BitVec.extractLsb'_append_eq_right
  · rw [above 4 8, BitVec.extractLsb'_append_eq_of_le (by decide)]; exact BitVec.extractLsb'_append_eq_right
  · rw [above 12 16, BitVec.extractLsb'_append_eq_of_le (by decide)]; exact BitVec.extractLsb'_append_eq_left

/-! ## The statements -/

/-- Settles O38: an idle core takes the write. -/
theorem idleWriteSetsOneRegister : Obligations.IdleWriteSetsOneRegister := by
  intro s r v hr hi h hc
  obtain ⟨hrest, hsame, hothers⟩ := State.writeReg_of_idle hi h hc v
  exact ⟨s.writeReg v r, step_writes_offset hr r v, hrest, hsame, hothers⟩

/-- Settles O39: a CTRL write is taken in either phase, and the word read back is IRQ_EN and zeros. -/
theorem ctrlHoldsIrqEnOnly : Obligations.CtrlHoldsIrqEnOnly := by
  intro s v hr
  exact ⟨step_writes_offset hr .ctrl v, s.ctrlWord, step_reads_offset_specified hr (r := .ctrl) rfl,
    s.ctrlWord_fields⟩

/-- Settles O40: each flag is masked by its own bit of the word written. -/
theorem statusWriteOneToClear : Obligations.StatusWriteOneToClear := by
  intro s v hr
  rw [show (0x08 : Nat) = Reg.status.offset from rfl, step_writes_offset hr]
  have masked : ∀ flag bit : Bool, (flag && !bit) = if bit = true then false else flag := by decide
  simp only [State.writeReg, State.writeStatus, masked]

/-- Settles O41: STATUS reads as its word in either phase, and the word shows the fields. -/
theorem statusReadShowsFields : Obligations.StatusReadShowsFields := by
  intro s hr
  obtain ⟨hbusy, hdone, herr, hdropped⟩ := s.statusWord_flags
  obtain ⟨hlow, hcode, hhigh⟩ := s.statusWord_fields
  refine ⟨s.statusWord, step_reads_offset_specified hr (r := .status) rfl, ?_, hdone, herr, hdropped, hlow,
    hcode, hhigh⟩
  rw [hbusy, Bool.eq_iff_iff, State.busy_eq_true, decide_eq_true_iff]

/-- Settles O42: ID is read-only and its value is a constant. -/
theorem idIsConstant : Obligations.IdIsConstant := by
  intro s v hr
  exact ⟨step_reads_offset_specified hr (r := .id) rfl, step_writes_offset hr .id v⟩

/-- Settles O43: no register stands at a reserved offset, and no other access is one of the window. -/
theorem reservedOffsetsAndRefusedAccesses : Obligations.ReservedOffsetsAndRefusedAccesses := by
  constructor
  · intro s off v hr h1 h2 h3
    refine ⟨?_, step_writes_reserved s v h1 h2 h3⟩
    rw [step_reads s (by omega) h3, readOffset_reserved hr h1]
    rfl
  · intro s off n lanes h hn
    have outside : windowOffset s.params (s.params.regBase + off) n = none := windowOffset_eq_none (.inr h)
    simp [step_asks, runEvent, hostTxn, hostRegRead, hostRegWrite, hn, outside]

/-- Settles O44: the busy core's own registers are free draws, every other read is the value. -/
theorem registerReads : Obligations.RegisterReads := by
  intro s r hr
  rw [← r.unspecifiedWhileBusy_iff]
  exact ⟨fun hb h => step_reads_offset_free hr hb h, fun h => step_reads_offset hr h⟩

end Sys2Proof.Machine
end

section
/-! SUPPORT. Who moves the phase, DROPPED and a running command's operands (10_state.md R24, R26, R46, R47): what each
event can do to them, said once, and the statements about every step that follow from it. -/

namespace Sys2Proof.Machine

open Claims

/-! ## A step by its event -/

/-- A step carries out the next event with that event taken off the schedule. -/
theorem step_eq_runEvent (s : State) : step s = runEvent (nextEvent s) s.turnTaken := by
  cases hi : s.inbox with
  | nil => simpa [nextEvent, hi, runEvent] using step_coreToMove (s := s) (by simp [State.coreToMove, hi])
  | cons e rest => simp [step_cons hi, nextEvent, State.turnTaken, hi]

/-- What an event can be: a transaction alone, a transaction and then the completion of the running command, the core's
turn, or a change of the reset input. -/
theorem runEvent_cases {e : Event} {s t : State} (h : runEvent e s = .next t) :
    (∃ x, (e = .host x ∨ e = .hostAtCompletion x) ∧ hostTxn x s = .next t) ∨
    (∃ x u, e = .hostAtCompletion x ∧ s.phase = .busy ∧ hostTxn x s = .next u ∧ coreTurn u = .next t) ∨
    (e = .core ∧ coreTurn s = .next t) ∨ (e = .assertReset ∧ t = assertReset s) ∨
    (e = .releaseReset ∧ t = releaseReset s) := by
  cases e with
  | host x => exact .inl ⟨x, .inl rfl, h⟩
  | hostAtCompletion x =>
    rcases hostThenCore_cases h with ⟨-, hx⟩ | ⟨hb, u, hx, hc⟩
    · exact .inl ⟨x, .inr rfl, hx⟩
    · exact .inr (.inl ⟨x, u, rfl, hb, hx, hc⟩)
  | core => exact .inr (.inr (.inl ⟨rfl, h⟩))
  | assertReset => cases h; exact .inr (.inr (.inr (.inl ⟨rfl, rfl⟩)))
  | releaseReset => cases h; exact .inr (.inr (.inr (.inr ⟨rfl, rfl⟩)))

/-! ## The core's turn and the phase -/

/-- A busy core's turn always completes its command (R262, R263). -/
theorem coreTurn_completes {s : State} (hb : s.phase = .busy) :
    ∃ t, coreTurn s = .next t ∧ t.phase = .idle ∧ t.done = true := by
  simp only [coreTurn, hb, runLatched]
  split
  · next i hi =>
    cases hce : commandError i s with
    | some e => exact ⟨_, exec_of_error hce, rfl, rfl⟩
    | none =>
      obtain ⟨u, hu, -⟩ := exec_ok hce
      exact ⟨_, hu, rfl, rfl⟩
  · exact ⟨_, rfl, rfl, rfl⟩

theorem coreTurn_of_busy {s t : State} (hb : s.phase = .busy) (h : coreTurn s = .next t) :
    t.phase = .idle ∧ t.done = true := by
  obtain ⟨u, hu, hphase, hdone⟩ := coreTurn_completes hb
  rw [h] at hu
  cases hu
  exact ⟨hphase, hdone⟩

theorem coreTurn_of_idle {s t : State} (hi : s.phase = .idle) (h : coreTurn s = .next t) : t = s := by
  simp only [coreTurn, hi] at h
  cases h
  rfl

/-! ## A transaction of the host -/

theorem addr_of_windowOffset {p : Params} {a n off : Nat} (h : windowOffset p a n = some off) : a = p.regBase + off := by
  unfold windowOffset at h
  split at h
  · cases h; omega
  · cases h

/-- A transaction is a register write, or it moves memory, the port's data and the model's own fields only. -/
theorem hostTxn_regWrite_or_rest {x : Txn} {s t : State} (h : hostTxn x s = .next t) :
    (∃ off lanes v, x = .regWrite (s.params.regBase + off) lanes ∧ wordOfLanes lanes = some v ∧
      t = writeOffset off v s) ∨
    ∃ m d p b, t = { s with mem := m, draws := d, readData := p, tainted := b } := by
  rcases hostTxn_cases h with ⟨-, -, off, -, -, rfl⟩ | ⟨a, lanes, off, v, rfl, ho, hv, rfl⟩ | ⟨a, -, -, -, rfl⟩ |
    ⟨a, -, -, -, rfl⟩ | ⟨a, b, -, -, rfl⟩
  · exact .inr ⟨_, _, _, _, readOffset_rest off s⟩
  · exact .inl ⟨off, lanes, v, by rw [addr_of_windowOffset ho], hv, rfl⟩
  · exact .inr ⟨_, _, _, _, rfl⟩
  · exact .inr ⟨_, _, _, _, rfl⟩
  · exact .inr ⟨_, _, _, _, rfl⟩

/-- A write to a busy core moves no operand of the running command (R47). -/
theorem writeOffset_of_busy {s : State} (hb : s.phase = .busy) (off : Nat) (v : Word) :
    (writeOffset off v s).regs = s.regs ∧ (writeOffset off v s).prngState = s.prngState ∧
      (writeOffset off v s).cmd = s.cmd := by
  have notIdle : s.phase ≠ .idle := by rw [hb]; decide
  rcases writeOffset_cases off v s with h | ⟨-, -, h⟩ | ⟨-, -, h⟩ | ⟨-, -, h⟩ | ⟨-, hi, -⟩ | ⟨-, hi, -⟩ | ⟨-, hi, -⟩
  · rw [h]; exact ⟨rfl, rfl, rfl⟩
  · rw [h]; exact ⟨rfl, rfl, rfl⟩
  · rw [h]; exact ⟨rfl, rfl, rfl⟩
  · rw [h]; exact ⟨rfl, rfl, rfl⟩
  · exact absurd hi notIdle
  · exact absurd hi notIdle
  · exact absurd hi notIdle

theorem hostTxn_of_busy {x : Txn} {s t : State} (hb : s.phase = .busy) (h : hostTxn x s = .next t) :
    t.regs = s.regs ∧ t.prngState = s.prngState ∧ t.cmd = s.cmd := by
  rcases hostTxn_regWrite_or_rest h with ⟨off, lanes, v, -, -, rfl⟩ | ⟨m, d, p, b, rfl⟩
  · exact writeOffset_of_busy hb off v
  · exact ⟨rfl, rfl, rfl⟩

/-- The host moves the phase only by having a command accepted (R46, R92). -/
theorem hostTxn_phase {x : Txn} {s t : State} (h : hostTxn x s = .next t) :
    t.phase = s.phase ∨
    (s.phase = .idle ∧ ∃ lanes v, x = .regWrite (s.params.regBase + 0x0C) lanes ∧ wordOfLanes lanes = some v ∧
      t = s.accept v) := by
  rcases hostTxn_regWrite_or_rest h with ⟨off, lanes, v, hx, hv, rfl⟩ | ⟨m, d, p, b, rfl⟩
  · rcases writeOffset_cases off v s with hw | ⟨-, -, hw⟩ | ⟨-, -, hw⟩ | ⟨-, -, hw⟩ | ⟨-, hi, rfl, hw⟩ | ⟨-, -, r, hw⟩ |
      ⟨-, -, -, hw⟩
    · exact .inl (by simp [hw])
    · exact .inl (by simp [hw])
    · exact .inl (by simp [hw])
    · exact .inl (by simp [hw])
    · exact .inr ⟨hi, lanes, v, hx, hv, hw⟩
    · exact .inl (by simp [hw])
    · exact .inl (by simp [hw])
  · exact .inl rfl

theorem hostTxn_phase_of_busy {x : Txn} {s t : State} (hb : s.phase = .busy) (h : hostTxn x s = .next t) :
    t.phase = .busy := by
  rcases hostTxn_phase h with hp | ⟨hi, -⟩
  · exact hp.trans hb
  · rw [hb] at hi; cases hi

/-- A step that leaves a busy core busy is no completion, and moves no operand of the running command (R47). -/
theorem step_keeps_operands {s t : State} (hb : s.phase = .busy) (hstep : step s = .next t) (ht : t.phase = .busy) :
    t.regs = s.regs ∧ t.prngState = s.prngState ∧ t.cmd = s.cmd := by
  have notIdle : t.phase ≠ .idle := by rw [ht]; decide
  rw [step_eq_runEvent] at hstep
  rcases runEvent_cases hstep with ⟨x, -, hx⟩ | ⟨x, u, -, -, hx, hc⟩ | ⟨-, hc⟩ | ⟨-, rfl⟩ | ⟨-, rfl⟩
  · exact hostTxn_of_busy (s := s.turnTaken) hb hx
  · exact absurd (coreTurn_of_busy (hostTxn_phase_of_busy (s := s.turnTaken) hb hx) hc).1 notIdle
  · exact absurd (coreTurn_of_busy (s := s.turnTaken) hb hc).1 notIdle
  · exact absurd rfl notIdle
  · exact ⟨rfl, rfl, rfl⟩

/-- The host moves DROPPED only by a write the busy core drops or by a STATUS write (R26, R47). -/
theorem hostTxn_dropped {x : Txn} {s t : State} (h : hostTxn x s = .next t) :
    t.dropped = s.dropped ∨
    (t.dropped = true ∧ s.phase = .busy ∧ ∃ a lanes, x = .regWrite a lanes) ∨
    ∃ lanes v, x = .regWrite (s.params.regBase + 0x08) lanes ∧ wordOfLanes lanes = some v ∧
      t.dropped = (s.dropped && !v.getLsbD 3) := by
  rcases hostTxn_regWrite_or_rest h with ⟨off, lanes, v, hx, hv, rfl⟩ | ⟨m, d, p, b, rfl⟩
  · rcases writeOffset_cases off v s with hw | ⟨-, -, hw⟩ | ⟨-, rfl, hw⟩ | ⟨-, hb, hw⟩ | ⟨-, -, -, hw⟩ | ⟨-, -, r, hw⟩ |
      ⟨-, -, -, hw⟩
    · exact .inl (by simp [hw])
    · exact .inl (by simp [hw])
    · exact .inr (.inr ⟨lanes, v, hx, hv, by simp [hw]⟩)
    · exact .inr (.inl ⟨by simp [hw], hb, _, lanes, hx⟩)
    · exact .inl (by simp [hw])
    · exact .inl (by simp [hw])
    · exact .inl (by simp [hw])
  · exact .inl rfl

/-- A step moves DROPPED by its transaction, or clears it by reset. -/
theorem step_dropped {s t : State} (h : step s = .next t) :
    t.dropped = s.dropped ∨ (t.dropped = false ∧ nextEvent s = .assertReset) ∨
    ∃ x, (nextEvent s = .host x ∨ nextEvent s = .hostAtCompletion x) ∧
      ((t.dropped = true ∧ s.phase = .busy ∧ ∃ a lanes, x = .regWrite a lanes) ∨
        ∃ lanes v, x = .regWrite (s.params.regBase + 0x08) lanes ∧ wordOfLanes lanes = some v ∧
          t.dropped = (s.dropped && !v.getLsbD 3)) := by
  rw [step_eq_runEvent] at h
  rcases runEvent_cases h with ⟨x, he, hx⟩ | ⟨x, u, he, -, hx, hc⟩ | ⟨-, hc⟩ | ⟨he, rfl⟩ | ⟨-, rfl⟩
  · rcases hostTxn_dropped hx with hsame | hmoved
    · exact .inl hsame
    · exact .inr (.inr ⟨x, he, hmoved⟩)
  · rw [(coreTurn_rest hc).1]
    rcases hostTxn_dropped hx with hsame | hmoved
    · exact .inl hsame
    · exact .inr (.inr ⟨x, .inr he, hmoved⟩)
  · exact .inl (coreTurn_rest hc).1
  · exact .inr (.inl ⟨rfl, he⟩)
  · exact .inl rfl

/-! ## The statements -/

/-- Settles O37: a busy core drops the writes of R47's list, and no event short of the completion moves an operand. -/
theorem busyCoreDropsWrites : Obligations.BusyCoreDropsWrites := by
  refine ⟨fun s off v hr hb h => ?_, fun s off v hr h => ?_, fun s off v hr h => ?_, fun s t hb hstep ht => ?_⟩
  · obtain ⟨r, rfl⟩ := exists_reg_of_mem_droppedOffsets h
    rw [step_writes_offset hr, State.writeReg_of_busy hb h]
    rfl
  · rcases h with h | ⟨h1, h2, h3⟩
    · simp only [ignoredOffsets, List.mem_cons, List.not_mem_nil, or_false] at h
      rcases h with rfl | rfl | rfl
      · exact step_writes_offset hr .id v
      · exact step_writes_offset hr .dstLen v
      · exact step_writes_offset hr .result v
    · exact step_writes_reserved s v h1 h2 h3
  · rcases h with rfl | rfl
    · exact ⟨s.writeCtrl v, step_writes_offset hr .ctrl v, id⟩
    · exact ⟨s.writeStatus v, step_writes_offset hr .status v, fun hd => by simp [hd]⟩
  · exact step_keeps_operands hb hstep ht

/-- Settles O46: the write lands on a core that is still busy, and the completion sets DONE after it. -/
theorem completionWinsOverStatusClear : Obligations.CompletionWinsOverStatusClear := by
  intro s off v hr hb h
  have inWindow : off < 256 ∧ off % 4 = 0 := by
    rcases h with rfl | h
    · decide
    · obtain ⟨r, rfl⟩ := exists_reg_of_mem_droppedOffsets h
      exact ⟨lt_of_le_of_lt r.offset_le (by decide), r.offset_aligned⟩
  have hwrite : hostTxn (.regWrite (s.params.regBase + off) (lanesOfWord v)) s = .next (writeOffset off v s) :=
    hostRegWrite_at v inWindow.1 inWindow.2
  obtain ⟨t, ht, hidle, hdone⟩ := coreTurn_completes (hostTxn_phase_of_busy hb hwrite)
  refine ⟨t, ?_, hidle, hdone, fun hdrop => ?_⟩
  · simp only [step_asks, runEvent, hostThenCore, hb, hwrite]
    exact ht
  · rw [writeOffset_dropped hr hb hdrop] at ht
    obtain ⟨hdropped, hregs, hcmd, -⟩ := coreTurn_rest ht
    exact ⟨hdropped, hregs, hcmd⟩

/-- Settles O57: the phase moves by an acceptance, by a completion or by reset. -/
theorem phaseChangesOnlyByAcceptCompleteReset : Obligations.PhaseChangesOnlyByAcceptCompleteReset := by
  intro s t hstep hne
  rw [step_eq_runEvent] at hstep
  rcases runEvent_cases hstep with ⟨x, he, hx⟩ | ⟨x, u, he, hb, hx, hc⟩ | ⟨he, hc⟩ | ⟨he, rfl⟩ | ⟨-, rfl⟩
  · rcases hostTxn_phase hx with hp | ⟨hi, lanes, v, rfl, hv, rfl⟩
    · exact absurd hp hne
    · exact .inl ⟨hi, rfl, rfl, lanes, hv, he⟩
  · obtain ⟨hidle, hdone⟩ := coreTurn_of_busy (hostTxn_phase_of_busy hb hx) hc
    exact .inr (.inl ⟨hb, hidle, hdone, .inr ⟨x, he⟩⟩)
  · cases hp : s.phase with
    | idle => exact absurd (congrArg State.phase (coreTurn_of_idle (s := s.turnTaken) hp hc)) hne
    | busy =>
      obtain ⟨hidle, hdone⟩ := coreTurn_of_busy (s := s.turnTaken) hp hc
      exact .inr (.inl ⟨rfl, hidle, hdone, .inl he⟩)
  · cases hp : s.phase with
    | idle => exact absurd hp.symm hne
    | busy => exact .inr (.inr ⟨rfl, rfl, rfl, he⟩)
  · exact absurd rfl hne

/-- Settles O58: the step's transaction or reset moves DROPPED, and each only as R26 and R47 say. -/
theorem droppedChangesOnlyByHost : Obligations.DroppedChangesOnlyByHost := by
  intro s t hstep
  rcases step_dropped hstep with hsame | ⟨hcleared, he⟩ | ⟨x, he, ⟨hset, hb, a, lanes, rfl⟩ |
    ⟨lanes, v, rfl, hv, hmasked⟩⟩
  · exact ⟨fun h0 h1 => by simp [hsame, h0] at h1, fun h1 h0 => by simp [hsame, h1] at h0⟩
  · exact ⟨fun _ h1 => by simp [hcleared] at h1, fun _ _ => .inl he⟩
  · exact ⟨fun _ _ => ⟨hb, a, lanes, he⟩, fun _ h0 => by simp [hset] at h0⟩
  · refine ⟨fun h0 h1 => by simp [hmasked, h0] at h1, fun h1 h0 => .inr ⟨lanes, v, hv, ?_, he⟩⟩
    simpa [hmasked, h1] using h0

end Sys2Proof.Machine
end

section
/-! SUPPORT. The statements' words for the checks, the footprint and the stored bytes are the model's (60_exceptions.md
R251, 20_memory.md R67), what a tainted command stores (R71 clause 4), and the host's accesses to pixel memory (R60,
R71). -/

namespace Sys2Proof.Machine

open Claims

/-! ## Which words are commands -/

theorem opcodeIsAssigned_of_lookup {op : Byte} {i : Instr} (h : opcodeMap.lookup op = some i) :
    CommandWord.opcodeIsAssigned op = true := by
  have assigned : ∀ c ∈ opcodeMap, CommandWord.opcodeIsAssigned c.1 = true := by decide
  obtain ⟨l₁, l₂, hl, -⟩ := List.lookup_eq_some_iff.mp h
  exact assigned (op, i) (by rw [hl]; simp)

theorem wellFormed_of_decode {w : Word} {i : Instr} (h : decode w = .ok i) : CommandWord.wellFormed w = true := by
  unfold decode at h
  split at h
  · next hrsvd =>
    split at h
    · next j hj => simp [CommandWord.wellFormed, CommandWord.rsvdIsZero, hrsvd, opcodeIsAssigned_of_lookup hj]
    · cases h
  · cases h

/-! ## The checks -/

theorem checkLenAlign_eq (i : Instr) (s : State) : checkLenAlign s = failIf (cause i s .lenAlign) .lenAlign := rfl

theorem checkSrcRange_eq (i : Instr) (s : State) : checkSrcRange s = failIf (cause i s .srcRange) .srcRange := by
  simp [checkSrcRange, cause, ← decide_not]

theorem checkContrastRange_eq (i : Instr) (s : State) :
    checkContrastRange s = failIf (cause i s .contrastRange) .contrastRange := by
  simp [checkContrastRange, cause]

theorem checkStrength_eq (i : Instr) (s : State) :
    checkStrength s = failIf (cause i s .strengthNonfinite) .strengthNonfinite := by
  have field : ∀ e : Byte, (e.toNat == 0xFF) = (e == 0xFF) := by
    intro e
    rw [Bool.eq_iff_iff, beq_iff_eq, beq_iff_eq, ← BitVec.toNat_inj]
    rfl
  simp only [checkStrength, Binary32.nonFinite, Binary32.ofWord, field, cause]

theorem checkDimsBounds_eq (i : Instr) (s : State) :
    checkDimsBounds s = failIf (cause i s .dimsBounds) .dimsBounds := rfl

theorem checkCropOverrun_eq (i : Instr) (s : State) :
    checkCropOverrun s = failIf (cause i s .cropOverrun) .cropOverrun := rfl

/-- D as the statements write it (R200): `newRegion` or `flipRegion`, by the command. -/
def destination (i : Instr) (s : State) : Region := { base := s.regs.dstBase.toNat, len := dstBytes i s }

theorem checkDstRange_eq (i : Instr) (s : State) :
    checkDstRange s (destination i s) = failIf (cause i s .dstRange) .dstRange := by
  rw [checkDstRange, cause, ← decide_not, destination]
  simp only [Nat.not_le]

theorem checkOverlap_eq (i : Instr) (s : State) :
    checkOverlap s (destination i s) = failIf (cause i s .overlap) .overlap := by
  simp only [checkOverlap, cause, Bool.decide_and, Bool.and_assoc]
  rfl

/-- The checks the model makes are the statements' checks with their causes, in the same order (R251). -/
theorem commandChecks_eq_map (i : Instr) (s : State) :
    commandChecks i s = (checks i).map (fun e => failIf (cause i s e) e) := by
  have align := checkLenAlign_eq i s
  have range := checkSrcRange_eq i s
  have contrast := checkContrastRange_eq i s
  have strength := checkStrength_eq i s
  have dims := checkDimsBounds_eq i s
  have crop := checkCropOverrun_eq i s
  have dst := checkDstRange_eq i s
  have overlap := checkOverlap_eq i s
  cases i <;>
    simp only [checks, List.map, ← align, ← range, ← contrast, ← strength, ← dims, ← crop, ← dst, ← overlap] <;> rfl

/-- All checks of a command pass, in the statements' words and in the model's (R251). -/
theorem clear_iff {i : Instr} {s : State} : clear i s = true ↔ commandError i s = none := by
  simp [clear, commandError, firstError_eq_none, commandChecks_eq_map, failIf_eq_none]

/-! ## The footprint and the bytes a command stores -/

/-- The address lies in the footprint of a command: its checks pass and it touches the address (R67). -/
theorem footprint_any_has {i : Instr} {s : State} {a : Nat} :
    (footprint i s).any (fun r => r.has a) = true ↔ clear i s = true ∧ touches i s a := by
  rw [clear_iff]
  cases h : commandError i s with
  | some e => simp [footprint, writableRegion, h]
  | none =>
    cases i <;>
      simp [footprint, writableRegion, h, targetRegion, readsSource, touches, isFilter, isTransform, Region.has,
        srcRegion, imageRegion, newRegion, flipRegion, imagePixels, newPixels, filterPixels, dstBytes]

/-- The footprint of an accepted command is that of the command its word decodes to. -/
theorem inFootprint_of_decode {s : State} {i : Instr} (hb : s.phase = .busy) (hd : decode s.cmd = .ok i) (a : Nat) :
    inFootprint s a = (footprint i s).any (fun r => r.has a) := by
  simp [inFootprint, runningFootprint, hb, hd]

/-- The footprint of a word that is no command is empty. -/
theorem inFootprint_of_error {s : State} {e : DecodeError} (hd : decode s.cmd = .error e) (a : Nat) :
    inFootprint s a = false := by
  cases hp : s.phase <;> simp [inFootprint, runningFootprint, hp, hd]

theorem colourBytes_iff_colourByte {s : State} {n a : Nat} :
    colourBytes s.regs.srcBase.toNat 0 n a ↔ colourByte s n a := by
  constructor
  · rintro ⟨k, -, hk, h1, h2⟩
    exact ⟨k, a - (s.regs.srcBase.toNat + 4 * k), by omega, by omega, by omega⟩
  · rintro ⟨k, c, hk, hc, rfl⟩
    exact ⟨k, by omega, by omega, by omega, by omega⟩

/-- The bytes a command may write, in the statements' words and in the model's (R152, R200). -/
theorem stores_iff_writtenBy {i : Instr} {s : State} {a : Nat} : stores i s a ↔ writtenBy i s a := by
  cases i <;>
    simp [stores, writtenBy, isFilter, isTransform, filterPixels, srcPixels, imagePixels, colourBytes_iff_colourByte,
      dstBytes, newRegion, flipRegion, newPixels]

/-! ## A tainted command -/

theorem FreeStores.completeOk {s t : State} {I : Nat → Prop} (h : FreeStores s t I) : FreeStores s (completeOk t) I :=
  ⟨h.mono, h.free, h.frame⟩

/-- DST_LEN may take a draw and moves no byte. -/
theorem FreeStores.setDstLen {s t : State} {I : Nat → Prop} (h : FreeStores s t I) (n : Nat) :
    FreeStores s (t.setDstLen n) I := by
  have hmore : t.draws ≤ (t.setDstLen n).draws := by unfold State.setDstLen; split <;> simp
  have hmem : ∀ a, (t.setDstLen n).byteAt a = t.byteAt a := fun a => by simp [State.byteAt_eq]
  refine ⟨h.mono.trans hmore, fun a ha => ?_, fun a ha => (hmem a).trans (h.frame a ha)⟩
  obtain ⟨m, h1, h2, h3⟩ := h.free a ha
  exact ⟨m, h1, h2.trans_le hmore, (hmem a).trans h3⟩

/-- The end of a tainted filter's loop. -/
theorem finish_pixelLoop_free {body : Nat → State → Option State} {base n : Nat} {s t : State}
    (hbody : ∀ k u v, u.tainted = true → body k u = some v →
      FreeStores u v (fun x => base + 4 * k ≤ x ∧ x < base + 4 * k + 3) ∧ v.tainted = true)
    (ht : s.tainted = true) (h : finish (pixelLoop body n 0 s) = .next t) : FreeStores s t (colourBytes base 0 n) := by
  obtain ⟨u, hu, rfl⟩ := finish_eq_next h
  exact (pixelLoop_free n 0 hbody ht hu).completeOk

theorem runFilter_free {i : Instr} {n base : Nat} {f : Nat → Byte → Byte → Byte → Option (Byte × Byte × Byte)}
    {s t : State} (hc : commandError i s = none) (ht : s.tainted = true)
    (h : runFilter i n (fun k u => recolour (f k) (base + 4 * k) u) s = .next t) :
    FreeStores s t (colourBytes base 0 n) := by
  rw [runFilter_of_ok hc] at h
  exact finish_pixelLoop_free (fun _ _ _ hu hv => recolour_free hu hv) ht h

theorem recolourSource_free {i : Instr} {f : Byte → Byte → Byte → Option (Byte × Byte × Byte)} {s t : State}
    (hc : commandError i s = none) (ht : s.tainted = true) (h : recolourSource i f s = .next t) :
    FreeStores s t (colourBytes (zext s.regs.srcBase) 0 (srcPixels s)) :=
  runFilter_free (f := fun _ => f) hc ht h

/-- The draw of LOFI's generator before each pixel moves no byte and takes no free draw (R165). -/
theorem lofiStep_free {a : Nat} {s t : State} (ht : s.tainted = true) (h : lofiStep a s = some t) :
    FreeStores s t (fun x => a ≤ x ∧ x < a + 3) ∧ t.tainted = true := by
  obtain ⟨hfree, htainted⟩ := recolour_free (s := s.drawNoise) ht h
  exact ⟨⟨hfree.mono, hfree.free, hfree.frame⟩, htainted⟩

theorem execLofi_free {s t : State} (hc : commandError .lofi s = none) (ht : s.tainted = true)
    (h : execLofi s = .next t) : FreeStores s t (colourBytes (zext s.regs.srcBase) 0 (srcPixels s)) := by
  simp only [execLofi, hc] at h
  obtain ⟨mono, free, frame⟩ := finish_pixelLoop_free (fun _ _ _ hu hv => lofiStep_free hu hv)
    (s := { s with prngState := seed }) ht h
  exact ⟨mono, free, frame⟩

theorem runTransform_free {i : Instr} {d : Region} {src : Nat → Option Nat} {s t : State}
    (hc : commandError i s = none) (ht : s.tainted = true) (hd : d.len % 4 = 0)
    (h : runTransform i d src s = .next t) : FreeStores s t (fun a => d.base ≤ a ∧ a < d.base + d.len) := by
  rw [runTransform_of_ok hc] at h
  cases h
  refine ((copyPixels_free src d.base (d.len / 4) 0 ht).congr fun a => ?_).setDstLen d.len |>.completeOk
  omega

/-- A tainted command whose checks pass leaves a free draw in every byte it may write and moves no other (R71 clause
4). -/
theorem exec_free {i : Instr} {s t : State} (hc : commandError i s = none) (ht : s.tainted = true)
    (h : exec i s = .next t) : FreeStores s t (writtenBy i s) := by
  cases i with
  | clamp => cases h; exact ⟨le_rfl, fun _ ha => ha.elim, fun _ _ => rfl⟩
  | prngDraw => cases h; exact ⟨le_rfl, fun _ ha => ha.elim, fun _ _ => rfl⟩
  | grayscale => exact recolourSource_free hc ht h
  | invert => exact recolourSource_free hc ht h
  | brightness => exact recolourSource_free hc ht h
  | sepia => exact recolourSource_free hc ht h
  | contrast => exact recolourSource_free hc ht h
  | vignette => exact runFilter_free hc ht h
  | lofi => exact execLofi_free hc ht h
  | vintage => exact recolourSource_free hc ht h
  | cyberpunk => exact recolourSource_free hc ht h
  | resizeNn => exact runTransform_free hc ht (by simp [newRegion]) h
  | resizeBilinear => cases hc
  | crop => exact runTransform_free hc ht (by simp [newRegion]) h
  | flipH => exact runTransform_free hc ht (by simp [flipRegion]) h
  | flipV => exact runTransform_free hc ht (by simp [flipRegion]) h

/-! ## The host's accesses to pixel memory -/

/-- A host write below `MEM_BYTES` stores its byte, inside the footprint or outside it (R60, R71). -/
theorem hostMemWrite_at {s : State} {a : Nat} (b : Byte) (ha : a < s.params.memBytes) :
    hostMemWrite a b s = .next { s with mem := s.mem.set a b, tainted := s.tainted || inFootprint s a } := by
  simp only [hostMemWrite, if_pos ha]
  rfl

theorem hostMemRead_outside {s : State} {a : Nat} (ha : a < s.params.memBytes) (hf : inFootprint s a = false) :
    hostMemRead a s = .next { s with readData := some (.mem (s.byteAt a)) } := by
  simp [hostMemRead, ha, hf]

theorem hostMemRead_inside {s : State} {a : Nat} (ha : a < s.params.memBytes) (hf : inFootprint s a = true) :
    hostMemRead a s =
      .next { s with readData := some (.mem (Config.freeByte s.draws a)), draws := s.draws + 1 } := by
  simp [hostMemRead, ha, hf]

theorem Memory.byteAt_set_self (m : Memory) (a : Nat) (v : Byte) : (m.set a v).byteAt a = v := by
  rw [Memory.byteAt_set, if_pos rfl]

theorem Memory.byteAt_set_of_ne (m : Memory) {a c : Nat} (v : Byte) (h : c ≠ a) :
    (m.set a v).byteAt c = m.byteAt c := by
  rw [Memory.byteAt_set, if_neg h]

/-! ## The statements -/

/-- Settles O47: the access leaves `tainted` as it was. -/
theorem hostMemoryOutsideFootprint : Obligations.HostMemoryOutsideFootprint := by
  intro s a b ha hf
  refine ⟨⟨s.mem.set a b, ?_, s.mem.byteAt_set_self a b, fun c hc => s.mem.byteAt_set_of_ne b hc⟩,
    hostMemRead_outside ha hf⟩
  rw [step_asks, runEvent, hostTxn, hostMemWrite_at b ha, hf, Bool.or_false]

/-- Settles O48: both accesses compare the address with `MEM_BYTES` before anything else. -/
theorem addressesBeyondMemoryFault : Obligations.AddressesBeyondMemoryFault := by
  intro s a b ha
  simp [step_asks, runEvent, hostTxn, hostMemRead, hostMemWrite, Nat.not_lt.mpr ha]

/-- Settles O49: a decoded command's footprint is what it touches; without one in flight there is none. -/
theorem footprintOfRunningCommand : Obligations.FootprintOfRunningCommand := by
  refine ⟨fun s i a hb hd => by rw [inFootprint_of_decode hb hd, footprint_any_has], fun s a h => ?_⟩
  rcases h with hidle | hill
  · simp [inFootprint, runningFootprint, hidle]
  · cases hd : decode s.cmd with
    | ok i => simp [wellFormed_of_decode hd] at hill
    | error e => exact inFootprint_of_error hd a

/-- Settles O50: the write taints the command, the read takes a free draw. -/
theorem hostAccessInsideFootprint : Obligations.HostAccessInsideFootprint := by
  intro s a b ha hf
  refine ⟨hostMemRead_inside ha hf, s.mem.set a b, ?_, s.mem.byteAt_set_self a b,
    fun c hc => s.mem.byteAt_set_of_ne b hc⟩
  rw [step_asks, runEvent, hostTxn, hostMemWrite_at b ha, hf, Bool.or_true]

/-- Settles O51: the command completes, and each of its stores leaves a free draw. -/
theorem taintedCommandWritesAnyBytes : Obligations.TaintedCommandWritesAnyBytes := by
  intro i s ht hclear
  have hc := clear_iff.mp hclear
  obtain ⟨u, hu, -⟩ := exec_ok hc
  obtain ⟨-, free, frame⟩ := exec_free hc ht hu
  exact ⟨_, hu, fun a => ⟨fun ha => free a (stores_iff_writtenBy.mp ha),
    fun ha => frame a (fun hw => ha (stores_iff_writtenBy.mpr hw))⟩⟩

end Sys2Proof.Machine
end

section
/-! SUPPORT. The decoder against the encoder and the list of illegal words (30_encoding.md R90 to R96): a word decodes
to a command exactly when it is that command's word, and the opcode map assigns exactly the opcodes R96 leaves. -/

namespace Sys2Proof

/-! ## The opcode map -/

/-- Every command has the facts of `Laws.Encoding`: one case per row of the opcode map. -/
theorem encoding_statement : ∀ i : Instr, Laws.Encoding.Statement i
  | .clamp => Laws.Encoding.clamp
  | .prngDraw => Laws.Encoding.prngDraw
  | .grayscale => Laws.Encoding.grayscale
  | .invert => Laws.Encoding.invert
  | .brightness => Laws.Encoding.brightness
  | .sepia => Laws.Encoding.sepia
  | .contrast => Laws.Encoding.contrast
  | .vignette => Laws.Encoding.vignette
  | .lofi => Laws.Encoding.lofi
  | .vintage => Laws.Encoding.vintage
  | .cyberpunk => Laws.Encoding.cyberpunk
  | .resizeNn => Laws.Encoding.resizeNn
  | .resizeBilinear => Laws.Encoding.resizeBilinear
  | .crop => Laws.Encoding.crop
  | .flipH => Laws.Encoding.flipH
  | .flipV => Laws.Encoding.flipV

/-- The opcode map and the commands' own opcodes agree (R94; R122, R127, R155 to R167, R204 to R210). -/
theorem lookup_opcodeMap_eq_some_iff {op : Byte} {i : Instr} : opcodeMap.lookup op = some i ↔ op = i.opcode := by
  constructor
  · intro h
    have rows : ∀ c ∈ opcodeMap, c.1 = c.2.opcode := by decide
    obtain ⟨l₁, l₂, hl, -⟩ := List.lookup_eq_some_iff.mp h
    exact rows (op, i) (by rw [hl]; simp)
  · rintro rfl
    obtain ⟨-, -, -, hlookup⟩ := encoding_statement i
    exact hlookup

/-- An opcode R96 does not list as illegal is one of the sixteen of R94. -/
theorem mem_opcodeMap_of_opcodeIsAssigned {op : Byte} (h : CommandWord.opcodeIsAssigned op = true) :
    op ∈ opcodeMap.map Prod.fst := by
  simp only [CommandWord.opcodeIsAssigned, Bool.not_eq_true', Bool.or_eq_false_iff, Bool.and_eq_false_iff,
    beq_eq_false_iff_ne, decide_eq_false_iff_not] at h
  simp only [opcodeMap, List.map_cons, List.map_nil, List.mem_cons, List.not_mem_nil, or_false]
  bv_omega

theorem lookup_opcodeMap_isSome_iff {op : Byte} :
    (opcodeMap.lookup op).isSome = true ↔ CommandWord.opcodeIsAssigned op = true := by
  constructor
  · intro h
    obtain ⟨i, hi⟩ := Option.isSome_iff_exists.mp h
    exact Machine.opcodeIsAssigned_of_lookup hi
  · intro h
    obtain ⟨c, hc, rfl⟩ := List.mem_map.mp (mem_opcodeMap_of_opcodeIsAssigned h)
    exact List.lookup_isSome_iff.mpr ⟨c, hc, beq_self_eq_true _⟩

/-! ## Decode and encode -/

/-- R93's two lines for a word that is a command. -/
theorem decode_eq_ok_iff_fields {w : Word} {i : Instr} :
    decode w = .ok i ↔ w.extractLsb' 8 24 = 0 ∧ opcodeMap.lookup (w.setWidth 8) = some i := by
  unfold decode
  split
  · next hr =>
    split
    · next j hj => simp [hr, hj]
    · next hn => simp [hn]
  · next hr => exact iff_of_false (by simp) (fun h => hr h.1)

theorem decode_of_reservedBits {w : Word} (h : w.extractLsb' 8 24 ≠ 0) : decode w = .error .reservedBits := by
  rw [decode, if_neg h]

theorem decode_of_unassignedOpcode {w : Word} (hr : w.extractLsb' 8 24 = 0)
    (h : opcodeMap.lookup (w.setWidth 8) = none) : decode w = .error .unassignedOpcode := by
  rw [decode, if_pos hr, h]

/-- A word is its RSVD field above its OPCODE field (R90). -/
theorem rsvd_append_opcode (w : Word) : w.extractLsb' 8 24 ++ (w.setWidth 8 : Byte) = w := by
  rw [BitVec.setWidth_eq_extractLsb' (by decide), BitVec.extractLsb'_append_extractLsb'_eq_extractLsb' (by decide)]
  exact BitVec.extractLsb'_eq_self

/-- The words of the commands are those with RSVD zero and the command's opcode (R90, R94). -/
theorem eq_encode_iff {w : Word} {i : Instr} : w = encode i ↔ w.extractLsb' 8 24 = 0 ∧ w.setWidth 8 = i.opcode := by
  constructor
  · rintro rfl
    obtain ⟨-, hrsvd, hop, -⟩ := encoding_statement i
    exact ⟨hrsvd, hop⟩
  · rintro ⟨hrsvd, hop⟩
    rw [← rsvd_append_opcode w, hrsvd, hop, encode]

/-- A word decodes to a command exactly when it is that command's word (R93, R94). -/
theorem decode_eq_ok_iff {w : Word} {i : Instr} : decode w = .ok i ↔ w = encode i := by
  rw [decode_eq_ok_iff_fields, lookup_opcodeMap_eq_some_iff, eq_encode_iff]

@[simp] theorem decode_encode (i : Instr) : decode (encode i) = .ok i := decode_eq_ok_iff.mpr rfl

@[simp] theorem decodeBytes_lanesOfWord (w : Word) : decodeBytes (lanesOfWord w) = decode w := by
  simp [decodeBytes, wordOfLanes_lanesOfWord]

/-- A row of the opcode table stands for its 32-bit word (R91). -/
theorem decodeTableWord_of_decode {w : Word} {i : Instr} (h : decode w = .ok i) :
    decodeTableWord 32 w.toNat = some i := by
  have word : BitVec.ofNat 32 (w.toNat % 2 ^ 32) = w := by
    rw [Nat.mod_eq_of_lt w.isLt, BitVec.ofNat_toNat, BitVec.setWidth_eq]
  rw [decodeTableWord, if_pos le_rfl, word, decodeBytes_lanesOfWord, h]

/-! ## Which words are commands -/

theorem rsvdIsZero_iff {w : Word} : CommandWord.rsvdIsZero w = true ↔ w.extractLsb' 8 24 = 0 := by
  simp [CommandWord.rsvdIsZero]

/-- The map of R94 has a command for every word the list of R96 leaves. -/
theorem exists_decode_iff_wellFormed {w : Word} : (∃ i, decode w = .ok i) ↔ CommandWord.wellFormed w = true := by
  simp only [decode_eq_ok_iff_fields, exists_and_left, ← Option.isSome_iff_exists, CommandWord.wellFormed,
    Bool.and_eq_true, rsvdIsZero_iff, lookup_opcodeMap_isSome_iff]

/-! ## The statements -/

/-- Settles O1: both directions of `decode_eq_ok_iff`, with the lanes and the table row of the same word. -/
theorem commandWordsRoundTrip : Obligations.CommandWordsRoundTrip := by
  refine ⟨fun i _ => ⟨decode_encode i, ?_, decodeTableWord_of_decode (decode_encode i)⟩,
    fun w i => decode_eq_ok_iff.mp⟩
  rw [decodeBytes_lanesOfWord, decode_encode]

/-- Settles O2: the opcode map assigns exactly the opcodes R96 leaves, and decode looks at RSVD first. -/
theorem decodeRefusesExactlyIllegalWords : Obligations.DecodeRefusesExactlyIllegalWords := by
  intro w
  refine ⟨exists_decode_iff_wellFormed, fun hrsvd => ?_, fun hrsvd hop => ?_⟩
  · apply decode_of_reservedBits
    rw [Ne, ← rsvdIsZero_iff, hrsvd]
    exact Bool.false_ne_true
  · apply decode_of_unassignedOpcode (rsvdIsZero_iff.mp hrsvd)
    rw [← Option.not_isSome_iff_eq_none, lookup_opcodeMap_isSome_iff, hop]
    exact Bool.false_ne_true

/-- Settles O3: each of the sixteen words is `encode` of its row's command. -/
theorem opcodeMapWordsDecode : Obligations.OpcodeMapWordsDecode :=
  ⟨decode_encode .clamp, decode_encode .prngDraw, decode_encode .grayscale, decode_encode .invert,
    decode_encode .brightness, decode_encode .sepia, decode_encode .contrast, decode_encode .vignette,
    decode_encode .lofi, decode_encode .vintage, decode_encode .cyberpunk, decode_encode .resizeNn,
    decode_encode .resizeBilinear, decode_encode .crop, decode_encode .flipH, decode_encode .flipV⟩

end Sys2Proof
end

section
/-! SUPPORT. From the CMD write to the command's own meaning (30_encoding.md R92, R93, R98): acceptance, then the core's
turn runs what the latched word decodes to. -/

namespace Sys2Proof.Machine

open Claims

/-- A busy core's turn is the meaning of the latched word's command (R93). -/
theorem step_of_decode {s : State} {i : Instr} (hb : s.phase = .busy) (hturn : s.coreToMove = true)
    (hd : decode s.cmd = .ok i) : step s = exec i s.turnTaken := by
  rw [step_coreToMove hturn]
  simp [coreTurn, runLatched, hb, hd]

/-- An accepted command word runs in the core's turn that stands next in the schedule (R92, R93). -/
theorem step_accept_core {s : State} {w : Word} {i : Instr} (hd : decode w = .ok i) :
    step { s.accept w with inbox := .core :: s.inbox } = exec i (s.accept w) :=
  step_of_decode (s := { s.accept w with inbox := .core :: s.inbox }) rfl rfl hd

theorem step_writes_cmd_of_idle {s : State} (hr : s.inReset = false) (hi : s.phase = .idle) (w : Word) :
    step (writes Reg.cmd.offset w s) = .next (s.accept w) := by
  rw [step_writes_offset hr, State.writeReg, State.unlessBusy_idle hi]

theorem step_writes_cmd_of_busy {s : State} (hr : s.inReset = false) (hb : s.phase = .busy) (w : Word) :
    step (writes Reg.cmd.offset w s) = .next s.dropWrite := by
  rw [step_writes_offset hr, State.writeReg, State.unlessBusy_busy hb]

/-! ## The statements -/

/-- Settles O4: in the second clause the fetch word is `w` itself, accepted in the state out of reset. -/
theorem stepRunsDecodedCommand : Obligations.StepRunsDecodedCommand := by
  refine ⟨fun s i => step_of_decode, fun s w i hw hd => ?_⟩
  rw [State.withFetchWord, Nat.mod_eq_of_lt hw]
  exact step_accept_core (s := { s with inReset := false }) hd

/-- Settles O36: an idle core accepts the word, a busy one drops it. -/
theorem cmdWriteIsAcceptedWhileIdle : Obligations.CmdWriteIsAcceptedWhileIdle :=
  fun _ w hr => ⟨fun hi => step_writes_cmd_of_idle hr hi w, fun hb => step_writes_cmd_of_busy hr hb w⟩

/-- Settles O60: `run` writes the command's word to CMD and leaves the core its turn. -/
theorem runStatementRunsCommand : Obligations.RunStatementRunsCommand := by
  intro s i hr hi
  exact ⟨_, step_writes_cmd_of_idle (s := { s with inbox := .core :: s.inbox }) hr hi (encode i),
    step_accept_core (decode_encode i)⟩

end Sys2Proof.Machine
end

section
/-! SUPPORT. The clamp unit and the generator (40_clamp_prng.md): what `clamp8` is as a number, and that the generator
steps as `lcg` does on numbers. -/

namespace Sys2Proof

/-- The clamped value as a number: n pinned to 0 .. 255 (R120). -/
theorem clamp8_toNat (n : Int) : ((clamp8 n).toNat : Int) = max 0 (min 255 n) := by
  rcases Int.lt_or_le n 0 with hneg | hnonneg
  · rw [clamp8_of_nonpos hneg.le, min_eq_right (by omega), max_eq_left hneg.le]
    rfl
  · rcases Int.lt_or_le 255 n with hbig | hsmall
    · rw [clamp8_of_ge hbig.le, min_eq_left hbig.le]
      rfl
    · obtain ⟨m, rfl⟩ := Int.eq_ofNat_of_zero_le hnonneg
      rw [clamp8_natCast (by omega), BitVec.toNat_ofNat, min_eq_right hsmall, max_eq_right hnonneg]
      omega

/-- The clamped value as a register holds it, zero-extended (R122). -/
theorem clamp8_setWidth (n : Int) : ((clamp8 n).setWidth 32 : Word) = BitVec.ofInt 32 (max 0 (min 255 n)) := by
  rw [← clamp8_toNat, BitVec.ofInt_natCast, BitVec.ofNat_toNat]

/-- Settles O6: the three clauses are the three ranges of the pinned number. -/
theorem clamp8PinsToNearestByte : Obligations.Clamp8PinsToNearestByte := by
  intro n
  have pinned := clamp8_toNat n
  exact ⟨fun hneg => by omega, fun hbig => by omega, fun hnonneg hsmall => by omega⟩

namespace Machine

open Claims

theorem completeOk_eq_completed (s : State) : completeOk s = completed 0x00 false s := rfl

/-- A transition of the 32-bit generator state is one on its number (R124). -/
@[simp] theorem advance_toNat (s : Word) : (advance s).toNat = lcg s.toNat := by
  rw [advance, BitVec.toNat_ofNat, lcg, Nat.add_comm, Nat.mul_comm]

theorem advance_eq_ofNat_lcg (s : Word) : advance s = BitVec.ofNat 32 (lcg s.toNat) := by
  rw [← advance_toNat, BitVec.ofNat_toNat, BitVec.setWidth_eq]

theorem advance_iterate_toNat (n : Nat) (s : Word) : (advance^[n] s).toNat = lcgTimes n s.toNat := by
  induction n with
  | zero => rfl
  | succ n ih => rw [Function.iterate_succ_apply', advance_toNat, ih, lcgTimes]

@[simp] theorem drawIndex_val (s : Word) : (drawIndex s).val = s.toNat % 100 := rfl

/-! ## The statements -/

/-- Settles O7: RESULT is the clamped value as a register holds it. -/
theorem clampWritesSaturatedArg : Obligations.ClampWritesSaturatedArg := by
  refine ⟨decode_encode .clamp, fun s => ?_⟩
  rw [exec, execClamp, clamp8_setWidth, completeOk_eq_completed]

/-- Settles O8: the new state and its index, both as numbers. -/
theorem prngDrawReturnsIndex : Obligations.PrngDrawReturnsIndex := by
  refine ⟨decode_encode .prngDraw, fun s => ?_⟩
  rw [exec, execPrngDraw, completeOk_eq_completed, drawIndex_val, State.drawNoise, advance_toNat,
    advance_eq_ofNat_lcg]

/-- Settles O9: the table is ten transitions on numbers from 12345. -/
theorem prngSequenceFromSeed : Obligations.PrngSequenceFromSeed := by
  unfold Obligations.PrngSequenceFromSeed
  simp only [drawIndex_val, advance_iterate_toNat]
  decide

end Machine

end Sys2Proof
end

section
/-! SUPPORT. No step ends in the fault `nanChannel` (41_color_filters.md R169): the core's turn always answers a next
state, which rests on the bounds of Sys2Proof/Laws/Float.lean, and the host's transactions raise another fault. -/

namespace Sys2Proof.Machine

/-- The core's turn answers a next state, whatever the phase, the word latched and the operands (R169, R263). -/
theorem coreTurn_answers (s : State) : ∃ t, coreTurn s = .next t := by
  cases hp : s.phase with
  | idle => exact ⟨s, by simp only [coreTurn, hp]⟩
  | busy =>
    obtain ⟨t, ht, -⟩ := coreTurn_completes hp
    exact ⟨t, ht⟩

theorem coreTurn_ne_nanChannel (s : State) : coreTurn s ≠ .fault .nanChannel := by
  obtain ⟨t, ht⟩ := coreTurn_answers s
  simp [ht]

/-- The one fault a transaction of the host can raise is that of an address beyond the pixel memory (R60, R69). -/
theorem hostTxn_fault {x : Txn} {s : State} {r : Fault} (h : hostTxn x s = .fault r) : r = .noSuchAddress := by
  cases x with
  | regRead a n =>
    simp only [hostTxn, hostRegRead] at h
    split at h <;> cases h
  | regWrite a lanes =>
    simp only [hostTxn, hostRegWrite] at h
    split at h <;> cases h
  | memRead a =>
    simp only [hostTxn, hostMemRead] at h
    split at h
    · split at h <;> cases h
    · cases h; rfl
  | memWrite a b =>
    simp only [hostTxn, hostMemWrite] at h
    split at h
    · cases h
    · cases h; rfl

theorem hostTxn_ne_nanChannel (x : Txn) (s : State) : hostTxn x s ≠ .fault .nanChannel :=
  fun h => by cases hostTxn_fault h

theorem hostThenCore_ne_nanChannel (x : Txn) (s : State) : hostThenCore x s ≠ .fault .nanChannel := by
  unfold hostThenCore
  split
  · exact hostTxn_ne_nanChannel x s
  · split
    · next u _ => exact coreTurn_ne_nanChannel u
    · next r hr => rw [hostTxn_fault hr]; simp
    · simp

/-- Settles O35: whatever the next event is, it does not answer that fault. -/
theorem nanChannelIsUnreachable : Obligations.NaNChannelIsUnreachable := by
  intro s
  rw [State.NoNaN, step_eq_runEvent]
  cases Claims.nextEvent s with
  | host x => exact hostTxn_ne_nanChannel x _
  | hostAtCompletion x => exact hostThenCore_ne_nanChannel x _
  | core => exact coreTurn_ne_nanChannel _
  | assertReset => simp [runEvent]
  | releaseReset => simp [runEvent]

end Sys2Proof.Machine
end

section
/-! SUPPORT. The colour filters (41_color_filters.md): each is the loop over its pixels of one function from old
channels to new ones, `filterPixel`; what that function answers is read off it filter by filter. -/

namespace Sys2Proof.Machine

open Claims

/-! ## The pixel function of each filter -/

/-- What pixel k's channels become under a colour filter accepted in state s (R151). LOFI's pixel k takes the
(k + 1)-st draw from the seed (R165). -/
def filterPixel (i : Instr) (s : State) (k : Nat) : Byte → Byte → Byte → Option (Byte × Byte × Byte) :=
  match i with
  | .grayscale => grayscalePixel s.params.fmt
  | .invert => eachChannel invertChannel
  | .brightness => eachChannel (brightnessChannel (sext s.regs.amount))
  | .sepia => sepiaPixel s.params.fmt
  | .contrast => eachChannel (contrastChannel s.params.fmt (contrastFactor s.params.fmt (sext s.regs.amount)))
  | .vignette =>
    vignettePixel s.params.fmt (zext s.regs.width) (zext s.regs.height)
      ((Binary32.ofWord s.regs.strength).toFp s.params.fmt) (k % zext s.regs.width) (k / zext s.regs.width)
  | .lofi => lofiPixel s.params.fmt (s.params.lofiNoise.get (drawIndex (advanceBy (k + 1) seed)))
  | .vintage => vintagePixel s.params.fmt
  | .cyberpunk => cyberpunkPixel s.params.fmt
  | .clamp | .prngDraw | .resizeNn | .resizeBilinear | .crop | .flipH | .flipV => fun _ _ _ => none

/-- Every filter but LOFI is the plain loop over its pixels (R153). -/
theorem exec_eq_runFilter {i : Instr} (hi : isFilter i = true) (hne : i ≠ .lofi) (s : State) :
    exec i s = runFilter i (filterPixels i s)
      (fun k t => recolour (filterPixel i s k) (zext s.regs.srcBase + 4 * k) t) s := by
  cases i with
  | grayscale | invert | brightness | sepia | contrast | vignette | vintage | cyberpunk => rfl
  | lofi => exact absurd rfl hne
  | clamp | prngDraw | resizeNn | resizeBilinear | crop | flipH | flipV => cases hi

/-- The pixels VIGNETTE visits lie in the image: column k mod W and row k / W exist (R162). -/
theorem column_row_lt {w h k : Nat} (hk : k < w * h) : k % w < w ∧ k / w < h := by
  have hw : 0 < w := Nat.pos_of_ne_zero (by rintro rfl; simp at hk)
  exact ⟨Nat.mod_lt _ hw, Nat.div_lt_of_lt_mul hk⟩

/-- Once the checks pass, no pixel a filter processes ends in a NaN (R169). -/
theorem filterPixel_isSome {i : Instr} {s : State} (hi : isFilter i = true) (hc : commandError i s = none) {k : Nat}
    (hk : k < filterPixels i s) (r g b : Byte) : (filterPixel i s k r g b).isSome := by
  cases i with
  | grayscale => exact grayscalePixel_isSome _ r g b
  | invert => exact eachChannel_isSome invertChannel_isSome r g b
  | brightness => exact eachChannel_isSome (brightnessChannel_isSome _) r g b
  | sepia => exact sepiaPixel_isSome _ r g b
  | contrast =>
    obtain ⟨-, hlow, hhigh⟩ := commandError_contrast_none.mp hc
    exact eachChannel_isSome (contrastChannel_isSome hlow hhigh) r g b
  | vignette =>
    obtain ⟨-, hstrength, -⟩ := commandError_vignette_none.mp hc
    obtain ⟨hx, hy⟩ := column_row_lt hk
    exact vignettePixel_isSome hx hy s.regs.width.isLt s.regs.height.isLt hstrength r g b
  | lofi => exact lofiPixel_isSome _ _ r g b
  | vintage => exact vintagePixel_isSome _ r g b
  | cyberpunk => exact cyberpunkPixel_isSome _ r g b
  | clamp | prngDraw | resizeNn | resizeBilinear | crop | flipH | flipV => cases hi

/-! ## What the channels become, filter by filter -/

theorem eachChannel_eq_some {f : Byte → Option Byte} {r g b r' g' b' : Byte} :
    eachChannel f r g b = some (r', g', b') ↔ f r = some r' ∧ f g = some g' ∧ f b = some b' := by
  unfold eachChannel
  cases f r <;> cases f g <;> cases f b <;> simp

theorem tcPixel_eq_some {f : Fmt} {x y z : Fp} {r g b : Byte} :
    tcPixel f x y z = some (r, g, b) ↔ tc f x = some r ∧ tc f y = some g ∧ tc f z = some b := by
  unfold tcPixel
  cases tc f x <;> cases tc f y <;> cases tc f z <;> simp

theorem grayscalePixel_eq_some {f : Fmt} {r g b r' g' b' : Byte} :
    grayscalePixel f r g b = some (r', g', b') ↔ tc f (luminance f r g b) = some r' ∧ g' = r' ∧ b' = r' := by
  unfold grayscalePixel
  cases tc f (luminance f r g b) with
  | none => simp
  | some v =>
    simp only [Option.some.injEq, Prod.mk.injEq]
    constructor <;> (rintro ⟨rfl, rfl, rfl⟩; exact ⟨rfl, rfl, rfl⟩)

theorem invertChannel_eq_some {c c' : Byte} (h : invertChannel c = some c') : c'.toNat = 255 - c.toNat := by
  cases h
  rw [BitVec.toNat_ofNat, Nat.mod_eq_of_lt (by omega)]

theorem brightnessChannel_eq_some {amt : Int} {c c' : Byte} (h : brightnessChannel amt c = some c') :
    (c'.toNat : Int) = max 0 (min 255 (c.toNat + amt)) := by
  cases h
  exact clamp8_toNat _

/-- The fields of a STRENGTH pattern, read off as bits or as quotients and remainders, give one value (R41). -/
theorem toFp_ofWord (f : Fmt) (w : Word) : (Binary32.ofWord w).toFp f = strengthValue f w := by
  have hexp : (Binary32.ofWord w).exp = w.toNat / 2 ^ 23 % 256 := by
    simp [Binary32.ofWord, Nat.shiftRight_eq_div_pow]
  have hfrac : (Binary32.ofWord w).frac = w.toNat % 2 ^ 23 := by
    simp [Binary32.ofWord]
  rw [Binary32.toFp, Binary32.units, hexp, hfrac]
  rfl

/-! ## A filter whose checks pass, when the host left its footprint alone -/

/-- The pixel function's results and the frame of a loop say that the memory is recoloured by any relation the pixel
function meets. -/
theorem recoloured_of_pixels {s : State} {n : Nat} {m : Memory}
    {f : Nat → Byte → Byte → Byte → Option (Byte × Byte × Byte)} {R : Nat → (r g b r' g' b' : Byte) → Prop}
    (hpix : ∀ k, k < n → f k (s.byteAt (zext s.regs.srcBase + 4 * k)) (s.byteAt (zext s.regs.srcBase + 4 * k + 1))
        (s.byteAt (zext s.regs.srcBase + 4 * k + 2))
      = some (m.byteAt (zext s.regs.srcBase + 4 * k), m.byteAt (zext s.regs.srcBase + 4 * k + 1),
          m.byteAt (zext s.regs.srcBase + 4 * k + 2)))
    (hframe : ∀ a, ¬ colourBytes (zext s.regs.srcBase) 0 n a → m.byteAt a = s.byteAt a)
    (hR : ∀ {k r g b r' g' b'}, f k r g b = some (r', g', b') → R k r g b r' g' b') : recoloured s n R m :=
  ⟨fun k hk => hR (hpix k hk), fun a ha => hframe a (fun hin => ha (colourBytes_iff_colourByte.mp hin))⟩

/-- A filter other than LOFI completes, memory being all it changes, and recolours each of its pixels by its pixel
function (R151, R152, R263). -/
theorem exec_recolours {i : Instr} {s : State} {R : Nat → (r g b r' g' b' : Byte) → Prop} (hi : isFilter i = true)
    (hne : i ≠ .lofi) (ht : s.tainted = false) (hclear : clear i s = true)
    (hR : ∀ {k r g b r' g' b'}, filterPixel i s k r g b = some (r', g', b') → R k r g b r' g' b') :
    ∃ m : Memory, exec i s = .next (completed 0x00 false { s with mem := m }) ∧
      recoloured s (filterPixels i s) R m := by
  have hc := clear_iff.mp hclear
  obtain ⟨m, hexec, hpix, hframe⟩ := runFilter_untainted (base := zext s.regs.srcBase) hc ht
    (fun k hk => filterPixel_isSome hi hc (k := k) hk)
  exact ⟨m, (exec_eq_runFilter hi hne s).trans hexec, recoloured_of_pixels hpix hframe hR⟩

/-! ## LOFI's draws -/

/-- The generator's states from the seed, as numbers (R124, R126). -/
theorem advanceBy_seed_toNat (n : Nat) : (advanceBy n seed).toNat = lcgTimes n 12345 := advance_iterate_toNat n seed

theorem advanceBy_seed (n : Nat) : advanceBy n seed = BitVec.ofNat 32 (lcgTimes n 12345) := by
  rw [← advanceBy_seed_toNat, BitVec.ofNat_toNat, BitVec.setWidth_eq]

theorem lofiNoise_get_draw (v : Vector NoiseTerm 100) (k : Nat) :
    v.get (drawIndex (advanceBy k seed)) = v[lcgTimes k 12345 % 100]'(Nat.mod_lt _ (by decide)) := by
  rw [Vector.get_eq_getElem]
  simp only [drawIndex_val, advanceBy_seed_toNat]

/-! ## Every filter in every state -/

/-- A filter other than LOFI completes in every state, having stored only colour bytes of the pixels it processes
(R152). -/
theorem exec_filter_storesOnly {i : Instr} {s : State} (hi : isFilter i = true) (hne : i ≠ .lofi)
    (hc : commandError i s = none) :
    ∃ u, exec i s = .next (completeOk u) ∧ StoresOnly s u (colourBytes (zext s.regs.srcBase) 0 (filterPixels i s)) := by
  rw [exec_eq_runFilter hi hne]
  exact runFilter_completes hc (fun k hk => filterPixel_isSome hi hc hk)

/-! ## The statements -/

/-- Settles O14: the pixel function's luminance is the statement's. -/
theorem grayscaleSetsLuminance : Obligations.GrayscaleSetsLuminance :=
  fun _ ht hclear => exec_recolours rfl (by decide) ht hclear grayscalePixel_eq_some.mp

/-- Settles O15: the complement of a byte is exact. -/
theorem invertComplementsChannels : Obligations.InvertComplementsChannels :=
  fun _ ht hclear => exec_recolours rfl (by decide) ht hclear fun hpixel =>
    have ⟨hr, hg, hb⟩ := (eachChannel_eq_some (f := invertChannel)).mp hpixel
    ⟨invertChannel_eq_some hr, invertChannel_eq_some hg, invertChannel_eq_some hb⟩

/-- Settles O16: the clamped sum is the sum pinned to 0 .. 255. -/
theorem brightnessAddsSignedAmount : Obligations.BrightnessAddsSignedAmount :=
  fun s ht hclear => exec_recolours rfl (by decide) ht hclear fun hpixel =>
    have ⟨hr, hg, hb⟩ := (eachChannel_eq_some (f := brightnessChannel (sext s.regs.amount))).mp hpixel
    ⟨brightnessChannel_eq_some hr, brightnessChannel_eq_some hg, brightnessChannel_eq_some hb⟩

/-- Settles O17: the three rows are the statement's sums. -/
theorem sepiaAppliesMatrix : Obligations.SepiaAppliesMatrix :=
  fun _ ht hclear => exec_recolours rfl (by decide) ht hclear tcPixel_eq_some.mp

/-- Settles O18: the one channel function on each of the three channels. -/
theorem contrastScalesAboutMidpoint : Obligations.ContrastScalesAboutMidpoint :=
  fun _ ht hclear => exec_recolours rfl (by decide) ht hclear eachChannel_eq_some.mp

/-- Settles O19: k = y*W + x with x < W determines column and row. -/
theorem vignetteDarkensByDistance : Obligations.VignetteDarkensByDistance := by
  intro s ht hclear
  refine exec_recolours rfl (by decide) ht hclear fun hpixel x y hx hk => ?_
  have hcolumn : (y * s.regs.width.toNat + x) % s.regs.width.toNat = x := by
    rw [Nat.mul_add_mod_self_right, Nat.mod_eq_of_lt hx]
  have hrow : (y * s.regs.width.toNat + x) / s.regs.width.toNat = y := by
    rw [Nat.mul_comm, Nat.mul_add_div (by omega), Nat.div_eq_of_lt hx, Nat.add_zero]
  subst hk
  rw [filterPixel, toFp_ofWord, zext, hcolumn, hrow] at hpixel
  exact eachChannel_eq_some.mp hpixel

/-- Settles O20: the loop's draws are the transitions from 12345. -/
theorem lofiTintsWithSeededNoise : Obligations.LofiTintsWithSeededNoise := by
  intro s ht hclear
  obtain ⟨m, hexec, hpix, hframe⟩ := execLofi_untainted (clear_iff.mp hclear) ht
  refine ⟨m, ?_, recoloured_of_pixels hpix hframe fun hpixel => ?_⟩
  · rw [← advanceBy_seed]
    exact hexec
  · rw [lofiNoise_get_draw] at hpixel
    exact tcPixel_eq_some.mp hpixel

/-- Settles O21: the pixel function's three sums are the statement's. -/
theorem vintageFadesAndLifts : Obligations.VintageFadesAndLifts :=
  fun _ ht hclear => exec_recolours rfl (by decide) ht hclear tcPixel_eq_some.mp

/-- Settles O22: the pixel function's three values are the statement's. -/
theorem cyberpunkShiftsChannels : Obligations.CyberpunkShiftsChannels :=
  fun _ ht hclear => exec_recolours rfl (by decide) ht hclear tcPixel_eq_some.mp

/-- Settles O23: LOFI's loop moves the generator too, the other filters' loops only store. -/
theorem filterStoresOnlyColourBytes : Obligations.FilterStoresOnlyColourBytes := by
  intro i s hi hclear
  have hc := clear_iff.mp hclear
  by_cases hlofi : i = .lofi
  · subst hlofi
    obtain ⟨u, hexec, hrest, hframe, -, -, hdraws⟩ := execLofi_completes hc
    refine ⟨u.mem, u.draws, advanceBy (srcPixels s) seed, ?_,
      fun a ha => hframe a (fun hin => ha (colourBytes_iff_colourByte.mp hin)), fun hne => absurd rfl hne, hdraws⟩
    rw [exec, hexec, ← completeOk_eq_completed, ← hrest]
  · obtain ⟨u, hexec, hstores⟩ := exec_filter_storesOnly hi hlofi hc
    refine ⟨u.mem, u.draws, s.prngState, ?_,
      fun a ha => hstores.frame a (fun hin => ha (colourBytes_iff_colourByte.mp hin)), fun _ => rfl, hstores.draws⟩
    rw [hexec, ← completeOk_eq_completed, ← hstores.rest]

/-- INVERT byte by byte: the complement in every colour byte, every other byte as it was (R156). -/
theorem exec_invert_byteAt {s : State} (ht : s.tainted = false) (hclear : clear .invert s = true) :
    ∃ m : Memory, exec .invert s = .next (completed 0x00 false { s with mem := m }) ∧
      (∀ a, colourByte s (srcPixels s) a → (m.byteAt a).toNat = 255 - (s.byteAt a).toNat) ∧
      ∀ a, ¬ colourByte s (srcPixels s) a → m.byteAt a = s.byteAt a := by
  obtain ⟨m, hexec, hpix, hframe⟩ := invertComplementsChannels s ht hclear
  refine ⟨m, hexec, ?_, hframe⟩
  rintro a ⟨k, c, hk, hc, rfl⟩
  obtain ⟨hr, hg, hb⟩ := hpix k hk
  obtain rfl | rfl | rfl : c = 0 ∨ c = 1 ∨ c = 2 := by omega
  · exact hr
  · exact hg
  · exact hb

/-- Settles O24: the complement of a byte's complement is the byte, and both runs visit the same pixels. -/
theorem invertTwiceRestores : Obligations.InvertTwiceRestores := by
  intro s ht hclear
  obtain ⟨m, hexec, hcolour, hframe⟩ := exec_invert_byteAt ht hclear
  obtain ⟨m', hexec', hcolour', hframe'⟩ :=
    exec_invert_byteAt (s := completed 0x00 false { s with mem := m }) rfl hclear
  refine ⟨_, _, hexec, hexec', fun a => ?_, rfl⟩
  by_cases ha : colourByte s (srcPixels s) a
  · apply BitVec.eq_of_toNat_eq
    calc (m'.byteAt a).toNat = 255 - (m.byteAt a).toNat := hcolour' a ha
      _ = 255 - (255 - (s.byteAt a).toNat) := by rw [hcolour a ha]
      _ = (s.byteAt a).toNat := Nat.sub_sub_self (Nat.le_of_lt_succ (s.byteAt a).isLt)
  · exact (hframe' a ha).trans (hframe a ha)

end Sys2Proof.Machine
end

section
/-! SUPPORT. The geometric transforms (42_geometric.md): each is the copying loop over the pixels of D from one source
map, `transformSource`, whose pixels lie wholly in S; the statements' columns and rows are read off the pixel number. -/

namespace Sys2Proof.Machine

open Claims

/-! ## Pixel numbers, columns and rows (20_memory.md R62) -/

theorem pixel_mod_width {w x : Nat} (y : Nat) (hx : x < w) : (y * w + x) % w = x := by
  rw [Nat.mul_add_mod_self_right, Nat.mod_eq_of_lt hx]

theorem pixel_div_width {w x : Nat} (y : Nat) (hx : x < w) : (y * w + x) / w = y := by
  rw [Nat.mul_comm, Nat.mul_add_div (by omega), Nat.div_eq_of_lt hx, Nat.add_zero]

theorem pixel_lt {w h x y : Nat} (hx : x < w) (hy : y < h) : y * w + x < w * h := by
  calc y * w + x < (y + 1) * w := by rw [Nat.succ_mul]; omega
    _ ≤ h * w := Nat.mul_le_mul_right w hy
    _ = w * h := Nat.mul_comm h w

/-- Every byte of an image is a channel of a pixel. -/
theorem exists_pixel_of_lt {w h j : Nat} (hj : j < w * h * 4) :
    ∃ x y c, x < w ∧ y < h ∧ c < 4 ∧ j = (y * w + x) * 4 + c := by
  obtain ⟨hx, hy⟩ := column_row_lt (show j / 4 < w * h by omega)
  refine ⟨j / 4 % w, j / 4 / w, j % 4, hx, hy, by omega, ?_⟩
  rw [Nat.mul_comm (j / 4 / w), Nat.div_add_mod]
  omega

/-! ## The source of each destination pixel, by column and row -/

/-- The column a flip takes a column from (R209). -/
def mirrorColumn (i : Instr) (w x : Nat) : Nat := if i = .flipH then w - 1 - x else x

/-- The row a flip takes a row from (R210). -/
def mirrorRow (i : Instr) (h y : Nat) : Nat := if i = .flipV then h - 1 - y else y

theorem mirrorColumn_lt {i : Instr} {w x : Nat} (hx : x < w) : mirrorColumn i w x < w := by
  unfold mirrorColumn; split <;> omega

theorem mirrorRow_lt {i : Instr} {h y : Nat} (hy : y < h) : mirrorRow i h y < h := by
  unfold mirrorRow; split <;> omega

theorem mirrorColumn_mirrorColumn {i : Instr} {w x : Nat} (hx : x < w) :
    mirrorColumn i w (mirrorColumn i w x) = x := by
  unfold mirrorColumn; split <;> omega

theorem mirrorRow_mirrorRow {i : Instr} {h y : Nat} (hy : y < h) : mirrorRow i h (mirrorRow i h y) = y := by
  unfold mirrorRow; split <;> omega

/-- The address destination pixel k of a transform accepted in state s is copied from, if it is copied. -/
def transformSource (i : Instr) (s : State) : Nat → Option Nat :=
  match i with
  | .resizeNn => resizeSource s
  | .crop => cropSource s
  | .flipH => flipHSource s
  | .flipV => flipVSource s
  | .clamp | .prngDraw | .grayscale | .invert | .brightness | .sepia | .contrast | .vignette | .lofi | .vintage
  | .cyberpunk | .resizeBilinear => fun _ => none

/-- A flip's source pixel, by column and row (R209, R210). -/
theorem transformSource_flip {i : Instr} (hi : i = .flipH ∨ i = .flipV) (s : State) (k : Nat) :
    transformSource i s k = some (s.regs.srcBase.toNat +
      (mirrorRow i s.regs.height.toNat (k / s.regs.width.toNat) * s.regs.width.toNat +
        mirrorColumn i s.regs.width.toNat (k % s.regs.width.toNat)) * 4) := by
  rcases hi with rfl | rfl
  · rfl
  · rw [Nat.add_mul, ← Nat.add_assoc]
    rfl

/-- CROP's source pixel, by column and row (R207). -/
theorem cropSource_eq (s : State) (k : Nat) :
    cropSource s k = if s.regs.startY.toNat + k / s.regs.newWidth.toNat < s.regs.height.toNat
      then some (s.regs.srcBase.toNat + ((s.regs.startY.toNat + k / s.regs.newWidth.toNat) * s.regs.width.toNat +
        (s.regs.startX.toNat + k % s.regs.newWidth.toNat)) * 4)
      else none := by
  rw [← Nat.add_assoc (_ * _), Nat.add_mul _ (k % _), ← Nat.add_assoc]
  rfl

/-! ## A transform is the copying loop over D -/

/-- Every transform is the copying loop over D (R200, R201). -/
theorem exec_eq_runTransform {i : Instr} (hi : isTransform i = true) (s : State) :
    exec i s = runTransform i (destination i s) (transformSource i s) s := by
  cases i with
  | resizeNn | crop | flipH | flipV => rfl
  | clamp | prngDraw | grayscale | invert | brightness | sepia | contrast | vignette | lofi | vintage | cyberpunk
  | resizeBilinear => cases hi

theorem dstBytes_mod_four (i : Instr) (s : State) : dstBytes i s % 4 = 0 := by
  cases i <;> exact Nat.mul_mod_left _ 4

/-- Once a transform's checks pass, D is apart from S (R260, R261). -/
theorem destinationOk_of_transform {i : Instr} {s : State} (hi : isTransform i = true) (hc : commandError i s = none) :
    DestinationOk s (destination i s) := by
  cases i with
  | resizeNn => exact (commandError_resizeNn_none.mp hc).2
  | crop =>
    obtain ⟨-, -, -, hd⟩ := commandError_crop_none.mp hc
    exact hd
  | flipH | flipV =>
    obtain ⟨-, -, hd⟩ := (commandError_flip_none rfl).mp hc
    exact hd
  | clamp | prngDraw | grayscale | invert | brightness | sepia | contrast | vignette | lofi | vintage | cyberpunk
  | resizeBilinear => cases hi

/-- A pixel of an image no longer than S lies wholly in S (R258). -/
theorem pixel_inside {base len w h x y : Nat} (hdims : w * h * 4 ≤ len) (hx : x < w) (hy : y < h) :
    base ≤ base + (y * w + x) * 4 ∧ base + (y * w + x) * 4 + 4 ≤ base + len := by
  have := pixel_lt hx hy
  omega

theorem dstBytes_flip {i : Instr} (hi : i = .flipH ∨ i = .flipV) (s : State) :
    dstBytes i s = s.regs.width.toNat * s.regs.height.toNat * 4 := by
  rcases hi with rfl | rfl <;> rfl

/-- Once a flip's checks pass, D is no longer than S (R258). -/
theorem dstBytes_flip_le {i : Instr} {s : State} (hi : i = .flipH ∨ i = .flipV) (hc : commandError i s = none) :
    dstBytes i s ≤ s.regs.srcLen.toNat := by
  rcases hi with rfl | rfl <;>
  · obtain ⟨-, hdims, -⟩ := (commandError_flip_none rfl).mp hc
    exact hdims

/-- Once a transform's checks pass, every pixel it copies lies wholly in S (R203, R207 to R210). -/
theorem transformSource_inside {i : Instr} {s : State} (hi : isTransform i = true) (hc : commandError i s = none)
    {k p : Nat} (hk : k < dstBytes i s / 4) (hp : transformSource i s k = some p) :
    s.regs.srcBase.toNat ≤ p ∧ p + 4 ≤ s.regs.srcBase.toNat + s.regs.srcLen.toNat := by
  have pixels : ∀ {w h : Nat}, dstBytes i s = w * h * 4 → k % w < w ∧ k / w < h := fun hlen =>
    column_row_lt (by rwa [hlen, Nat.mul_div_cancel _ (by decide)] at hk)
  have flip : i = .flipH ∨ i = .flipV →
      s.regs.srcBase.toNat ≤ p ∧ p + 4 ≤ s.regs.srcBase.toNat + s.regs.srcLen.toNat := by
    intro hflip
    obtain ⟨hx, hy⟩ := pixels (dstBytes_flip hflip s)
    have hdims := dstBytes_flip_le hflip hc
    rw [dstBytes_flip hflip] at hdims
    rw [transformSource_flip hflip, Option.some.injEq] at hp
    exact hp ▸ pixel_inside hdims (mirrorColumn_lt hx) (mirrorRow_lt hy)
  cases i with
  | resizeNn =>
    simp only [transformSource, resizeSource, zext, Option.ite_none_right_eq_some, Option.some.injEq] at hp
    omega
  | crop =>
    obtain ⟨-, hdims, hover, -⟩ := commandError_crop_none.mp hc
    rw [transformSource, cropSource_eq, Option.ite_none_right_eq_some, Option.some.injEq] at hp
    obtain ⟨hrow, rfl⟩ := hp
    obtain ⟨hx, -⟩ := pixels rfl
    exact pixel_inside hdims (by omega) hrow
  | flipH => exact flip (.inl rfl)
  | flipV => exact flip (.inr rfl)
  | clamp | prngDraw | grayscale | invert | brightness | sepia | contrast | vignette | lofi | vintage | cyberpunk
  | resizeBilinear => cases hi

/-- Once a transform's checks pass, no pixel it copies lies in D (R261). -/
theorem transformSource_apart {i : Instr} {s : State} (hi : isTransform i = true) (hc : commandError i s = none)
    {k p : Nat} (hk : k < dstBytes i s / 4) (hp : transformSource i s k = some p) :
    p + 4 ≤ s.regs.dstBase.toNat ∨ s.regs.dstBase.toNat + dstBytes i s ≤ p := by
  obtain ⟨-, hapart⟩ := destinationOk_of_transform hi hc
  obtain ⟨hbelow, habove⟩ := transformSource_inside hi hc hk hp
  simp only [destination] at hapart
  omega

/-! ## DST_LEN (10_state.md R33) -/

/-- Setting DST_LEN changes that register and, for the one length it cannot hold, the count of draws. -/
theorem State.setDstLen_eq (s : State) (n : Nat) : ∃ (l : Word) (d : Nat),
    s.setDstLen n = { s with dstLen := l, draws := d } ∧ (n < 2 ^ 32 → l.toNat = n ∧ d = s.draws) := by
  rcases Nat.lt_or_ge n (2 ^ 32) with hn | hn
  · exact ⟨_, s.draws, if_pos hn, fun _ => ⟨BitVec.toNat_ofNat n 32 ▸ Nat.mod_eq_of_lt hn, rfl⟩⟩
  · exact ⟨_, _, if_neg (Nat.not_lt.mpr hn), fun hlt => absurd hlt (Nat.not_lt.mpr hn)⟩

/-! ## A transform whose checks pass -/

/-- A transform completes in every state, having stored only bytes of D and DST_LEN (R200, R67). -/
theorem exec_transform_storesOnly {i : Instr} {s : State} (hi : isTransform i = true) (hc : commandError i s = none) :
    ∃ u, exec i s = .next (completeOk (u.setDstLen (dstBytes i s))) ∧
      StoresOnly s u (fun a => s.regs.dstBase.toNat ≤ a ∧ a < s.regs.dstBase.toNat + dstBytes i s) := by
  rw [exec_eq_runTransform hi]
  exact runTransform_completes hc (dstBytes_mod_four i s)

/-- When the host left its footprint alone, a transform redraws D as an image of w by h pixels, pixel (x, y) from
source `y * w + x` (R200); DST_LEN holds its length whenever 32 bits can (log 8). -/
theorem exec_redraws {i : Instr} {s : State} {w h : Nat} {px : (x y c : Nat) → Byte} (hi : isTransform i = true)
    (ht : s.tainted = false) (hclear : clear i s = true) (hlen : dstBytes i s = w * h * 4)
    (hpx : ∀ x y c, x < w → y < h → c < 4 → copiedByte s.mem (transformSource i s (y * w + x)) c = px x y c) :
    ∃ (m : Memory) (l : Word) (d : Nat),
      exec i s = .next (completed 0x00 false { s with mem := m, dstLen := l, draws := d }) ∧
      (dstBytes i s < 2 ^ 32 → l.toNat = dstBytes i s ∧ d = s.draws) ∧ redrawn s w h px m := by
  have hc := clear_iff.mp hclear
  obtain ⟨m, hexec, hpix, hframe⟩ := runTransform_untainted (i := i) (d := destination i s)
    (src := transformSource i s) hc ht (dstBytes_mod_four i s) (fun _ hk _ hp => transformSource_apart hi hc hk hp)
  obtain ⟨l, d, hset, hl⟩ := (s.withMem m).setDstLen_eq (dstBytes i s)
  rw [← exec_eq_runTransform hi, destination, hset] at hexec
  refine ⟨m, l, d, hexec, hl, fun x y c hx hy hcn => ?_, fun a ha => hframe a (by rwa [destination, hlen])⟩
  have hk : y * w + x < dstBytes i s / 4 := by rw [hlen, Nat.mul_div_cancel _ (by decide)]; exact pixel_lt hx hy
  rw [← hpx x y c hx hy hcn, Nat.mul_comm (y * w + x) 4]
  exact hpix _ hk c hcn

/-- An image drawn channel by channel from the same places of a source is its copy, byte by byte. -/
theorem byteAt_of_redrawn {s t : State} {w h : Nat} {px : (x y c : Nat) → Byte} {m : Memory}
    (hredrawn : redrawn t w h px m)
    (hpx : ∀ x y c, x < w → y < h → c < 4 →
      px x y c = s.byteAt (s.regs.srcBase.toNat + ((y * w + x) * 4 + c))) {j : Nat} (hj : j < w * h * 4) :
    m.byteAt (t.regs.dstBase.toNat + j) = s.byteAt (s.regs.srcBase.toNat + j) := by
  obtain ⟨x, y, c, hx, hy, hc, rfl⟩ := exists_pixel_of_lt hj
  obtain ⟨hpix, -⟩ := hredrawn
  rw [← hpx x y c hx hy hc, ← Nat.add_assoc]
  exact hpix x y c hx hy hc

theorem copiedByte_ite (m : Memory) (q : Prop) [Decidable q] (p j : Nat) :
    copiedByte m (if q then some p else none) j = if q then m.byteAt (p + j) else 0 := by
  split <;> rfl

/-! ## The flips -/

/-- Channel c of the pixel a flip copies to column x, row y (R209, R210). -/
def mirroredByte (i : Instr) (s : State) (x y c : Nat) : Byte :=
  s.byteAt (s.regs.srcBase.toNat +
    (mirrorRow i s.regs.height.toNat y * s.regs.width.toNat + mirrorColumn i s.regs.width.toNat x) * 4 + c)

/-- A flip completes with DST_LEN exact and D the mirrored source (R209, R210). -/
theorem exec_flip_redraws {i : Instr} {s : State} (hi : i = .flipH ∨ i = .flipV) (ht : s.tainted = false)
    (hclear : clear i s = true) :
    ∃ m : Memory,
      exec i s = .next (completed 0x00 false { s with mem := m, dstLen := BitVec.ofNat 32 (dstBytes i s) }) ∧
      redrawn s s.regs.width.toNat s.regs.height.toNat (mirroredByte i s) m := by
  have htransform : isTransform i = true := by rcases hi with rfl | rfl <;> rfl
  obtain ⟨m, l, d, hexec, hl, hredrawn⟩ := exec_redraws htransform ht hclear (dstBytes_flip hi s)
    fun x y c hx _ _ => by
      rw [transformSource_flip hi, pixel_mod_width y hx, pixel_div_width y hx, copiedByte, ← State.byteAt_eq,
        ← mirroredByte]
  obtain ⟨hlen, rfl⟩ := hl ((dstBytes_flip_le hi (clear_iff.mp hclear)).trans_lt s.regs.srcLen.isLt)
  refine ⟨m, ?_, hredrawn⟩
  rw [hexec, ← hlen, BitVec.ofNat_toNat, BitVec.setWidth_eq]

/-- The mirror image of a mirror image is the image: a column mirrored twice is the column, a row the row (R211). -/
theorem mirroredByte_of_redrawn {i : Instr} {s t : State} (hw : t.regs.width = s.regs.width)
    (hh : t.regs.height = s.regs.height) (hbase : t.regs.srcBase = s.regs.dstBase)
    (hredrawn : redrawn s s.regs.width.toNat s.regs.height.toNat (mirroredByte i s) t.mem) {x y c : Nat}
    (hx : x < s.regs.width.toNat) (hy : y < s.regs.height.toNat) (hc : c < 4) :
    mirroredByte i t x y c = s.byteAt (s.regs.srcBase.toNat + ((y * s.regs.width.toNat + x) * 4 + c)) := by
  obtain ⟨hpix, -⟩ := hredrawn
  rw [mirroredByte, hw, hh, hbase, State.byteAt_eq, hpix _ _ c (mirrorColumn_lt hx) (mirrorRow_lt hy) hc,
    mirroredByte, mirrorColumn_mirrorColumn hx, mirrorRow_mirrorRow hy, Nat.add_assoc]

/-! ## The statements -/

/-- Settles O25: the pixel number's column and row are x and y, and the skip test is the model's. -/
theorem resizeNnTakesNearestPixel : Obligations.ResizeNnTakesNearestPixel := by
  intro s ht hclear
  refine exec_redraws rfl ht hclear rfl fun x y c hx _ _ => ?_
  simp only [transformSource, resizeSource, pixel_mod_width y hx, pixel_div_width y hx, copiedByte_ite]
  rfl

/-- Settles O26: the rows below HEIGHT are copied from column START_X on. -/
theorem cropCopiesWindow : Obligations.CropCopiesWindow := by
  intro s ht hclear
  refine exec_redraws rfl ht hclear rfl fun x y c hx _ _ => ?_
  rw [transformSource, cropSource_eq, pixel_mod_width y hx, pixel_div_width y hx, copiedByte_ite]
  simp only [← Nat.not_le, ite_not]
  rfl

/-- Settles O27: of column and row, FLIP_H mirrors the column. -/
theorem flipHMirrorsColumns : Obligations.FlipHMirrorsColumns :=
  fun _ ht hclear => exec_flip_redraws (.inl rfl) ht hclear

/-- Settles O28: of column and row, FLIP_V mirrors the row. -/
theorem flipVMirrorsRows : Obligations.FlipVMirrorsRows :=
  fun _ ht hclear => exec_flip_redraws (.inr rfl) ht hclear

/-- Settles O29: the loop stores bytes of D, then DST_LEN is set. -/
theorem transformStoresOnlyDestination : Obligations.TransformStoresOnlyDestination := by
  intro i s hi hclear
  obtain ⟨u, hexec, hstores⟩ := exec_transform_storesOnly hi (clear_iff.mp hclear)
  obtain ⟨l, d, hset, hl⟩ := u.setDstLen_eq (dstBytes i s)
  refine ⟨u.mem, l, d, ?_, hstores.frame, fun hlt => (hl hlt).1⟩
  rw [hexec, hset, hstores.rest, completeOk_eq_completed]

/-- Settles O30: the command's meaning is that error completion. -/
theorem bilinearCompletesUnimplemented : Obligations.BilinearCompletesUnimplemented :=
  ⟨decode_encode .resizeBilinear, fun _ => rfl⟩

/-- Settles O31: the second flip's source is the first one's mirror image. -/
theorem flipTwiceRestores : Obligations.FlipTwiceRestores := by
  intro i s e hi ht hclear
  obtain ⟨m, hexec, hredrawn⟩ := exec_flip_redraws hi ht hclear
  refine ⟨_, hexec, fun t ht' hclear' => ?_⟩
  obtain ⟨m', hexec', hredrawn'⟩ := exec_flip_redraws hi (by rw [ht']; rfl) hclear'
  have hw : t.regs.width = s.regs.width := by rw [ht']; rfl
  have hh : t.regs.height = s.regs.height := by rw [ht']; rfl
  have hbase : t.regs.srcBase = s.regs.dstBase := by rw [ht']
  have hdst : t.regs.dstBase = e := by rw [ht']
  have hmem : t.mem = m := by rw [ht']; rfl
  rw [hw, hh] at hredrawn'
  exact ⟨_, hexec', fun j hj => hdst ▸ byteAt_of_redrawn hredrawn'
    (fun x y c => mirroredByte_of_redrawn hw hh hbase (hmem ▸ hredrawn)) (dstBytes_flip hi s ▸ hj)⟩

/-- Settles O32: pixel (x, y) of the destination is pixel (x, y) of the source. -/
theorem fullImageIdentity : Obligations.FullImageIdentity := by
  intro i s hi hw hh hlen ht hclear
  rcases hi with rfl | ⟨rfl, hx0, hy0⟩
  · obtain ⟨m, l, d, hexec, -, hredrawn⟩ := resizeNnTakesNearestPixel s ht hclear
    rw [hw, hh] at hredrawn
    refine ⟨_, hexec, fun j hj => byteAt_of_redrawn hredrawn (fun x y c hx hy _ => ?_) (hlen ▸ hj)⟩
    have hpixel := pixel_lt hx hy
    have hnonempty : ¬ (s.regs.width.toNat = 0 ∨ s.regs.height.toNat = 0) := by omega
    simp only [if_neg hnonempty, Nat.mul_div_cancel _ (Nat.zero_lt_of_lt hx),
      Nat.mul_div_cancel _ (Nat.zero_lt_of_lt hy)]
    rw [if_pos (by omega), Nat.add_assoc]
  · obtain ⟨m, l, d, hexec, -, hredrawn⟩ := cropCopiesWindow s ht hclear
    rw [hw, hh, hx0, hy0] at hredrawn
    refine ⟨_, hexec, fun j hj => byteAt_of_redrawn hredrawn (fun x y c _ hy _ => ?_) (hlen ▸ hj)⟩
    simp only [BitVec.ofNat_eq_ofNat, BitVec.toNat_zero, Nat.zero_add]
    rw [if_neg (by omega), Nat.add_assoc]

end Sys2Proof.Machine
end

section
/-! SUPPORT. Errors and completion (60_exceptions.md): every command ends in one of two completions (R262, R263), which
check's error it is (R251), and what the completion and the host's writes do to `irq` (R264). -/

namespace Sys2Proof.Machine

open Claims

/-! ## The two completions -/

/-- The model's numbers of the error codes are the statements' (R250). -/
theorem CmdError.code_eq_number (e : CmdError) : e.code = number e := by cases e <;> rfl

theorem raiseError_eq_completed (e : CmdError) (s : State) : raiseError e s = completed (number e) true s := by
  rw [← e.code_eq_number]
  rfl

/-- The latched word's run ends in an error completion of the state it began in, or in a successful completion (R262,
R263). -/
theorem runLatched_completes (s : State) :
    (∃ e, runLatched s = .next (raiseError e s)) ∨ ∃ u, runLatched s = .next (completeOk u) := by
  unfold runLatched
  split
  · next i _ =>
    cases hce : commandError i s with
    | some e => exact .inl ⟨e, exec_of_error hce⟩
    | none =>
      obtain ⟨u, hu, -⟩ := exec_ok hce
      exact .inr ⟨u, hu⟩
  · exact .inl ⟨.illegalCmd, rfl⟩

/-- When a busy core is to move, a step is the latched word's run (R46). -/
theorem step_of_busy {s : State} (hb : s.phase = .busy) (hturn : s.coreToMove = true) :
    step s = runLatched s.turnTaken := by
  simp only [step_coreToMove hturn, coreTurn, State.turnTaken_phase, hb]

/-! ## The word that is no command -/

/-- No word with a bit of RSVD set, and none whose low byte is no command's opcode, decodes to a command (R93, R252). -/
theorem decode_ne_ok_of_illegal {w : Word} (i : Instr)
    (h : w.extractLsb' 8 24 ≠ 0 ∨ ∀ j, encode j ≠ (0 : BitVec 24) ++ (w.setWidth 8 : Byte)) : decode w ≠ .ok i := by
  intro hd
  obtain ⟨hrsvd, hop⟩ := eq_encode_iff.mp (decode_eq_ok_iff.mp hd)
  rcases h with hne | hne
  · exact hne hrsvd
  · exact hne i (by rw [hop, encode])

theorem runLatched_of_error {s : State} {e : DecodeError} (h : decode s.cmd = .error e) :
    runLatched s = .next (raiseError .illegalCmd s) := by
  simp only [runLatched, h]

/-! ## The first check that fails -/

theorem firstError_append_some {before after : List (Option CmdError)} {e : CmdError}
    (h : ∀ c ∈ before, c = none) : firstError (before ++ some e :: after) = some e := by
  induction before with
  | nil => rfl
  | cons c rest ih =>
    obtain ⟨rfl, hrest⟩ := List.forall_mem_cons.mp h
    exact ih hrest

/-- The check whose cause holds, those before it in the row passing, is the command's error (R251). -/
theorem commandError_of_first_cause {i : Instr} {s : State} {before after : List CmdError} {e : CmdError}
    (hrow : checks i = before ++ e :: after) (hbefore : ∀ e' ∈ before, cause i s e' = false)
    (he : cause i s e = true) : commandError i s = some e := by
  rw [commandError, commandChecks_eq_map, hrow, List.map_append, List.map_cons, he, failIf_true]
  apply firstError_append_some
  simpa [failIf_eq_none] using hbefore

/-! ## The interrupt line -/

theorem State.irq_eq_true {s : State} : s.irq = true ↔ s.irqEn = true ∧ s.done = true := Bool.and_eq_true_iff

theorem State.irq_of_not_irqEn {s : State} (h : s.irqEn = false) : s.irq = false := by simp [State.irq, h]

theorem State.irq_of_not_done {s : State} (h : s.done = false) : s.irq = false := by simp [State.irq, h]

/-! ## The statements -/

/-- Settles O34: by `runLatched_completes` the step is one of the two completions. -/
theorem everyCommandCompletes : Obligations.EveryCommandCompletes := by
  intro s hb hturn
  rw [step_of_busy hb hturn]
  rcases runLatched_completes s.turnTaken with ⟨e, he⟩ | ⟨u, hu⟩
  · exact ⟨_, he, rfl, rfl, .inr ⟨rfl, e.code_ne_zero, rfl⟩⟩
  · exact ⟨_, hu, rfl, rfl, .inl ⟨rfl, rfl⟩⟩

/-- Settles O5: such a word does not decode, and the run of a word that does not decode is that completion. -/
theorem illegalWordCompletesIllegalCmd : Obligations.IllegalWordCompletesIllegalCmd := by
  intro s hb hturn hill
  rw [step_of_busy hb hturn]
  cases hd : decode s.cmd with
  | ok i => exact absurd hd (decode_ne_ok_of_illegal i hill)
  | error e => rw [runLatched_of_error (s := s.turnTaken) hd, raiseError_eq_completed, number]

/-- Settles O33: the model's checks are the row's causes in the row's order. -/
theorem lowestFailingCheckIsReported : Obligations.LowestFailingCheckIsReported := by
  refine fun i s => ⟨fun before e after hrow hbefore he => ?_, fun hclear => ?_⟩
  · rw [exec_of_error (commandError_of_first_cause hrow hbefore he), raiseError_eq_completed]
  · obtain ⟨u, hu, -⟩ := exec_ok (clear_iff.mp hclear)
    exact ⟨_, hu, rfl, rfl⟩

/-- Settles O45: a completion sets DONE and keeps IRQ_EN; each write moves one of the two. -/
theorem irqFollowsDone : Obligations.IrqFollowsDone := by
  refine ⟨fun s => State.irq_eq_true, fun s t hb hturn hen hstep => ?_, fun s t v hr =>
    ⟨fun hdone hbit hstep => ?_, fun hbit hstep => ?_, fun hbit hstep => ?_, fun hi hstep => ?_⟩⟩
  · rw [step_coreToMove hturn] at hstep
    obtain ⟨-, hdone⟩ := coreTurn_of_busy (s := s.turnTaken) hb hstep
    obtain ⟨-, -, -, -, -, hkept⟩ := coreTurn_rest hstep
    exact State.irq_eq_true.mpr ⟨hkept.trans hen, hdone⟩
  · cases (step_writes_offset hr .ctrl v).symm.trans hstep
    exact State.irq_eq_true.mpr ⟨hbit, hdone⟩
  · cases (step_writes_offset hr .ctrl v).symm.trans hstep
    exact State.irq_of_not_irqEn hbit
  · cases (step_writes_offset hr .status v).symm.trans hstep
    apply State.irq_of_not_done
    rw [State.writeReg, State.writeStatus_done, hbit, Bool.not_true, Bool.and_false]
  · cases (step_writes_cmd_of_idle hr hi v).symm.trans hstep
    exact State.irq_of_not_done rfl

end Sys2Proof.Machine
end

section
/-! SUPPORT. Reset (70_reset_and_hazards.md R290, R291): the chip's parameters and the state after reset, what the
host's accesses give while `rst_n` is low, and what asserting it does to memory, a command in flight being abandoned. -/

namespace Sys2Proof

/-! ## The parameters of the unknown chip -/

/-- The greatest finite magnitude has as many bits as the precision, all of them one. -/
theorem Fmt.hasBits_maxMag (f : Fmt) : HasBits f.precision f.maxMag := by
  cases f with
  | binary32 => exact ⟨2 ^ 24 - 1, 104 + 149, Nat.sub_le _ _, rfl⟩
  | binary64 => exact ⟨2 ^ 53 - 1, 971 + 1074, Nat.sub_le _ _, rfl⟩

theorem Fmt.representable_of_hasBits {f : Fmt} {m : Nat} (hm : HasBits f.precision m) (hmax : m ≤ f.maxMag) :
    f.representable m = true := by
  have hexact := roundRatio_exact f.precision_pos Nat.one_pos hm
  rw [Nat.mul_one] at hexact
  simp [Fmt.representable, hmax, hexact]

/-- A fitted noise term is a value of the format (R164): a rounded magnitude, or the greatest one. -/
theorem NoiseTerm.representable_fit (f : Fmt) (n : NoiseTerm) : f.representable (n.fit f).mag = true := by
  unfold NoiseTerm.fit
  split
  · assumption
  · rcases le_total (roundRatio f.precision n.mag 1) f.maxMag with hle | hle
    · simpa only [min_eq_left hle] using Fmt.representable_of_hasBits (hasBits_roundRatio Nat.one_pos) hle
    · simpa only [min_eq_right hle] using Fmt.representable_of_hasBits f.hasBits_maxMag le_rfl

/-- Whatever the opaque constants are, R8 admits the parameters made of them. -/
theorem Config.params_wf : Config.params.wf = true := by
  have hmem : Config.memBytesLessOne.val + 1 ≤ 2 ^ 32 := Config.memBytesLessOne.isLt
  simp only [Params.wf, Config.params, Bool.and_eq_true, Vector.all_eq_true, Vector.getElem_ofFn]
  exact ⟨⟨decide_eq_true (Nat.succ_pos _), decide_eq_true hmem⟩, fun k _ => NoiseTerm.representable_fit _ _⟩

namespace Machine

open Claims

/-! ## The reset values -/

theorem State.AtResetValues.irq_eq_false {s : State} (h : s.AtResetValues) : s.irq = false :=
  State.irq_of_not_irqEn h.irqEn

theorem State.AtResetValues.ctrlWord_eq_zero {s : State} (h : s.AtResetValues) : s.ctrlWord = 0 := by
  rw [State.ctrlWord, h.irqEn]
  rfl

theorem State.AtResetValues.statusWord_eq_zero {s : State} (h : s.AtResetValues) : s.statusWord = 0 := by
  rw [State.statusWord, State.busy, h.errCode, h.dropped, h.err, h.done, h.phase]
  rfl

theorem State.reset_atResetValues : State.reset.AtResetValues :=
  ⟨rfl, rfl, rfl, rfl, rfl, rfl, rfl, rfl, rfl, rfl, rfl⟩

theorem assertReset_atResetValues (s : State) : (assertReset s).AtResetValues :=
  ⟨rfl, rfl, rfl, rfl, rfl, rfl, rfl, rfl, rfl, rfl, rfl⟩

/-! ## The register window while reset is asserted -/

theorem writeOffset_of_inReset {s : State} (hr : s.inReset = true) (off : Nat) (v : Word) : writeOffset off v s = s :=
  if_pos hr

theorem readOffset_of_inReset {s : State} (hr : s.inReset = true) (off : Nat) :
    readOffset off s = s.answerFreeWord :=
  if_pos hr

/-! ## The command that reset abandons -/

/-- The command in flight could have written the byte when reset abandons it (R291): it is accepted, its checks pass,
and the byte lies in what it writes. -/
def abandonedByte (s : State) (a : Nat) : Prop :=
  s.phase = .busy ∧ ∃ i, decode s.cmd = .ok i ∧ clear i s = true ∧ abandons i s a

/-- What a command whose checks pass abandons is the region it writes. -/
theorem abandons_iff_targetRegion {i : Instr} {s : State} {a : Nat} :
    abandons i s a ↔ ∃ r, targetRegion i s = some r ∧ r.base ≤ a ∧ a < r.base + r.len := by
  cases i <;>
    simp [abandons, targetRegion, isFilter, isTransform, srcRegion, imageRegion, newRegion, flipRegion, imagePixels,
      newPixels, filterPixels, dstBytes]

theorem writableRegion_eq_some {i : Instr} {s : State} {r : Region} :
    writableRegion i s = some r ↔ clear i s = true ∧ targetRegion i s = some r := by
  rw [clear_iff, writableRegion]
  cases commandError i s <;> simp

theorem abandonedByte_iff_writableRegion {i : Instr} {s : State} (hb : s.phase = .busy) (hd : decode s.cmd = .ok i)
    {a : Nat} : abandonedByte s a ↔ ∃ r, writableRegion i s = some r ∧ r.base ≤ a ∧ a < r.base + r.len := by
  simp [abandonedByte, hb, hd, abandons_iff_targetRegion, writableRegion_eq_some, and_assoc]

theorem abandonCommand_of_idle {s : State} (hi : s.phase = .idle) : abandonCommand s = s := by
  simp only [abandonCommand, hi]

/-- Abandoning the command in flight makes free draws of exactly the bytes it could have written (R291). -/
theorem abandonCommand_free (s : State) : FreeStores s (abandonCommand s) (abandonedByte s) := by
  cases hp : s.phase with
  | idle =>
    rw [abandonCommand_of_idle hp]
    exact (FreeStores.refl s).congr fun a => by simp [abandonedByte, hp]
  | busy =>
    cases hd : decode s.cmd with
    | error e =>
      simp only [abandonCommand, hp, hd]
      exact (FreeStores.refl s).congr fun a => by simp [abandonedByte, hd]
    | ok i =>
      cases hr : writableRegion i s with
      | none =>
        simp only [abandonCommand, hp, hd, hr]
        exact (FreeStores.refl s).congr fun a => by simp [abandonedByte_iff_writableRegion hp hd, hr]
      | some r =>
        simp only [abandonCommand, hp, hd, hr]
        exact (forgetBytes_free r.len r.base s).congr fun a => by simp [abandonedByte_iff_writableRegion hp hd, hr]

/-- The reset values do not touch memory or the count of draws. -/
theorem assertReset_free (s : State) : FreeStores s (assertReset s) (abandonedByte s) := by
  obtain ⟨mono, free, frame⟩ := abandonCommand_free s
  exact ⟨mono, free, frame⟩

theorem assertReset_inbox (s : State) : (assertReset s).inbox = s.inbox := by
  obtain ⟨m, d, h⟩ := abandonCommand_rest s
  rw [assertReset, h]

theorem assertReset_mem_of_idle {s : State} (hi : s.phase = .idle) : (assertReset s).mem = s.mem := by
  rw [assertReset, abandonCommand_of_idle hi]

/-! ## The statements -/

/-- Settles O53: asserting reset moves memory by `abandonCommand` alone. -/
theorem assertResetKeepsMemory : Obligations.AssertResetKeepsMemory := by
  intro s
  obtain ⟨-, free, frame⟩ := assertReset_free s
  exact ⟨assertReset s, step_asks .assertReset s, assertReset_atResetValues s, rfl, abandonCommand_params s,
    assertReset_inbox s, assertReset_mem_of_idle, fun i a hb hd hclear ha => free a ⟨hb, i, hd, hclear, ha⟩, frame⟩

/-- Settles O52: `irq`, STATUS and CTRL follow from the reset values, and an unlisted byte is the power-on byte. -/
theorem resetStateValues : Obligations.ResetStateValues :=
  have h := State.reset_atResetValues
  ⟨h, h.irq_eq_false, h.statusWord_eq_zero, h.ctrlWord_eq_zero, fun _ => rfl, rfl⟩

/-- Settles O54: `readOffset` and `writeOffset` look at `inReset` before anything else. -/
theorem accessesWhileResetAsserted : Obligations.AccessesWhileResetAsserted := by
  intro s off v hr hoff halign
  refine ⟨?_, ?_, step_asks .releaseReset s⟩
  · rw [step_writes v s hoff halign, writeOffset_of_inReset hr]
  · rw [step_reads s hoff halign, readOffset_of_inReset hr]
    rfl

/-- Settles O55: the opaque parameters are admitted ones, no byte is listed, and no flag is set. -/
theorem invariantHoldsAtReset : Obligations.InvariantHoldsAtReset where
  params := Config.params_wf
  memWf := Memory.wf_nil
  memInside := List.forall_mem_nil _
  busyFlags hb := by cases hb
  errHasCode he := by cases he
  codeBound := Nat.zero_le _
  resultByte := Nat.zero_lt_succ _
  taintBusy ht := by cases ht
  resetState _ := State.reset_atResetValues

end Machine

end Sys2Proof
end
